-- ==== Sys2Proof/Word.lean ====
section
/-! DEFINITION. The engine's value types: words, labels, characters, tags, modes, records, frames
(spec/00_scope.md R12, R15, R17). Plain data only; every computation on them stands under Machine/. -/

namespace Sys2Proof

/-- A bus word, bit 31 most significant (R12, R90). -/
abbrev Word := BitVec 32

/-- A label, the 8-bit logical channel or address value (R15, R73). -/
abbrev Label := BitVec 8

/-- A 7-bit character or key code (R15, R102). -/
abbrev Char7 := BitVec 7

/-- Milliseconds, unbounded (R50, R315). -/
abbrev Time := Nat

/-- A CNTRL layout (R153). -/
inductive Tag where
  | A
  | B
  deriving DecidableEq, Repr

/-- The mode an ENQ requests (R15, R35). -/
inductive Mode where
  | menu
  | data
  deriving DecidableEq, Repr

/-- The closed set of handshake states (R33, C11). -/
inductive TxState where
  | idle
  | rts
  | sendData
  | scratchpad
  deriving DecidableEq, Repr

/-- A number counted from 1 (a record index R37, a column R15), held as how many come before it,
so that zero cannot be written. -/
structure OneBased where
  before : Nat
  deriving DecidableEq, Repr, Inhabited

/-- A record to be sent (R17): bounded text, colour, display line, start column, attribute. -/
structure TextRecord where
  text  : List Char7
  color : BitVec 3
  line  : Nat
  col   : OneBased
  attr  : BitVec 3
  deriving DecidableEq, Repr

/-- One rendered line of a stored Frame (R200). -/
structure LineRender where
  text  : List Char7
  color : BitVec 3
  col   : OneBased
  attr  : BitVec 3
  deriving DecidableEq, Repr, Inhabited

/-- A stored Frame: its lines in order, line 1 first (R200). -/
abbrev Frame := List LineRender

/-- A line as the host hands it over, before the bounds of R200 are checked. -/
structure HostLine where
  text  : List Nat
  color : Nat
  col   : Nat
  attr  : Nat
  deriving DecidableEq, Repr

/-- A Frame as the host hands it over (R201). -/
abbrev HostFrame := List HostLine

/-- A word as the bus driver drains it, with the timestamp the engine ignores (R310). -/
structure Arrival where
  word  : Word
  stamp : Time
  deriving DecidableEq, Repr

/-- The six kinds of word the engine reacts to (R100). -/
inductive RxKind where
  | enq
  | dc1
  | cts
  | ack
  | nack
  | syn
  deriving DecidableEq, Repr

/-- An accepted word with its kind: an element of the batch A of R220. -/
structure Rx where
  kind : RxKind
  word : Word
  deriving DecidableEq, Repr

/-- What `unpack` returns (R135). -/
structure Unpacked where
  parity   : Bool
  ssm      : BitVec 2
  sdi      : BitVec 2
  data     : BitVec 19
  label    : Label
  parityOk : Bool
  deriving DecidableEq, Repr

/-- The result of `send_record` (R170). -/
inductive SendResult where
  | acked
  | rejected
  | provisional
  deriving DecidableEq, Repr

end Sys2Proof
end

