-- ==== Sys2Proof/Config.lean ====
section
/-! DEFINITION. The configuration record of spec/00_scope.md R10, and the model's free values. -/

namespace Sys2Proof

/-- The parameters of one endpoint (R10). Addresses are naturals so that a value above 0xFF can be
offered to reset and refused (R303). -/
structure EpConfig where
  /-- OWN_ADDR[e] -/
  ownAddr     : Nat
  /-- DEFAULT_PEER_LABEL[e] -/
  defaultPeer : Nat
  /-- PAD_COLUMNS[e] -/
  padColumns  : Bool
  deriving DecidableEq, Repr

/-- The configuration record (R10). NUM_ENDPOINTS is the length of `endpoints`. -/
structure Config where
  endpoints       : List EpConfig
  /-- HB_LABEL -/
  hbLabel         : Nat
  /-- HB_PERIOD_MS -/
  hbPeriodMs      : Nat
  /-- ACK_TIMEOUT_MS -/
  ackTimeoutMs    : Nat
  /-- MAX_RETRIES -/
  maxRetries      : Nat
  /-- RECORD_CAP -/
  recordCap       : Nat
  /-- LABEL_MASK -/
  labelMask       : Label
  /-- DROP_BAD_PARITY -/
  dropBadParity   : Bool
  /-- SAME_TICK_INSPECT -/
  sameTickInspect : Bool
  /-- TEXT_MAX -/
  textMax         : Nat
  /-- FRAME_LINES -/
  frameLines      : Nat
  /-- LINE_CHARS -/
  lineChars       : Nat
  /-- SCRATCHPAD_LINE -/
  scratchpadLine  : Nat
  /-- CNTRL_B_COUNT as a table over the data-word count k; a k past its end packs k mod 16, the
  reference value (R10, D14). DESIGN CHOICE (log 11). -/
  cntrlBCount     : List (BitVec 4)
  /-- The first tag of the initial CNTRL order (R155; a parameter by D61 and C10). Log 10. -/
  firstTag        : Tag
  deriving DecidableEq, Repr

/-- R10's reference values; the OPEN addresses are those of spec/95_test_vectors.md.
DESIGN CHOICE (log 2): one endpoint, OWN_ADDR 0o004, HB_LABEL 0o177. Unsafe for a claim about
`State.reset` alone; statements quantify over the configuration. -/
def Config.reference : Config where
  endpoints       := [{ ownAddr := 0o004, defaultPeer := 0o004, padColumns := false }]
  hbLabel         := 0o177
  hbPeriodMs      := 900
  ackTimeoutMs    := 1500
  maxRetries      := 3
  recordCap       := 3
  labelMask       := 0x7F#8
  dropBadParity   := true
  sameTickInspect := true
  textMax         := 24
  frameLines      := 14
  lineChars       := 24
  scratchpadLine  := 14
  cntrlBCount     := []
  firstTag        := .A

/-- FREE VALUE (log 12): what line i of a Frame reads as where the stored Frame has no line i.
No rule states it; no body, so no claim can rest on it. -/
opaque Config.freeLine : Nat → LineRender

/-- FREE VALUE (log 12): the scratchpad character at a position past the end of the buffer.
No rule states it; no body, so no claim can rest on it. -/
opaque Config.freeChar : List Char7 → Nat → Char7

end Sys2Proof
end

