-- ==== Sys2Proof/Syntax.lean ====
section
/-! DEFINITION. Instr: one constructor per row of spec/opcode_table.json, and the boundary events
that carry an instruction to the engine. -/

namespace Sys2Proof

/-- The bits of an inbound word that give it no meaning beyond its label: P (31), SSM (30..29),
bit 10, SDI (9..8), and the logical label (R90, R93, R94, R96, R115). Kept, so that no bit of a
received word is lost. -/
structure RxBits where
  p     : Bool
  ssm   : BitVec 2
  b10   : Bool
  sdi   : BitVec 2
  label : Label
  deriving DecidableEq, Repr

/-- The engine's instructions. `ch` is the channel index, which is the endpoint index (R74).
Inbound words carry the driver's timestamp (R310) and every bit; `x` holds the argument bits no rule
names (R99). Outbound words carry the label they are to be sent with (R104 to R112). -/
inductive Instr where
  -- inbound words
  /-- ENQ (R101) -/
  | enq (ch : Nat) (stamp : Time) (h : RxBits) (x : BitVec 1) (mode : Mode) (tgt : Label)
  /-- DC1 (R102) -/
  | dc1 (ch : Nat) (stamp : Time) (h : RxBits) (x : BitVec 3) (key : Char7)
  /-- CTS, DC3 (R103) -/
  | cts (ch : Nat) (stamp : Time) (h : RxBits) (x : BitVec 4) (max : BitVec 6)
  /-- ACK.in (R108, R223) -/
  | ackIn (ch : Nat) (stamp : Time) (h : RxBits) (x : BitVec 10)
  /-- NACK (R108, R223) -/
  | nack (ch : Nat) (stamp : Time) (h : RxBits) (x : BitVec 10)
  /-- SYN (R108, R223) -/
  | syn (ch : Nat) (stamp : Time) (h : RxBits) (x : BitVec 10)
  -- outbound words
  /-- RTS, DC2 (R105) -/
  | rts (ch : Nat) (label : Label) (count : BitVec 6) (mode : Mode)
  /-- STX (R106) -/
  | stx (ch : Nat) (label : Label) (idx wc : BitVec 5)
  /-- ETX (R107) -/
  | etx (ch : Nat) (label : Label)
  /-- EOT (R107) -/
  | eot (ch : Nat) (label : Label)
  /-- ACK.out (R108) -/
  | ackOut (ch : Nat) (label : Label)
  /-- HB (R112) -/
  | hb (ch : Nat) (label : Label) (addr : Label)
  /-- CNTRL.A (R109, R110) -/
  | cntrlA (ch : Nat) (label : Label) (color : BitVec 3) (line : BitVec 5) (attr : BitVec 3) (col : BitVec 5)
  /-- CNTRL.B (R109, R111) -/
  | cntrlB (ch : Nat) (label : Label) (color : BitVec 3) (count : BitVec 4) (function : BitVec 3) (line : BitVec 5)
  /-- DATA (R104) -/
  | data (ch : Nat) (label : Label) (c0 c1 c2 : Char7)
  -- codec
  /-- reverse_bits (R130) -/
  | reverseBits (x : BitVec 8)
  /-- parity (R132) -/
  | parity (v : BitVec 31)
  /-- pack (R133) -/
  | pack (label sdi data : Nat)
  /-- unpack (R135) -/
  | unpack (w : Word)
  /-- parity_check (R136) -/
  | parityCheck (w : Word)
  -- control encoder
  /-- encode_A (R150) -/
  | encodeA (color line attr col : Nat)
  /-- encode_B (R151) -/
  | encodeB (color count function line : Nat)
  /-- cntrlSub (R152) -/
  | cntrlSub (tag : Tag) (rec : TextRecord) (col : OneBased) (k : Nat)
  /-- select_order (R155) -/
  | selectOrder (ch : Nat)
  -- record sender
  /-- send_record (R170, R180) -/
  | sendRecord (ch : Nat) (rec : TextRecord) (idx : Int) (isLast : Bool)
  /-- emitFrame (R173) -/
  | emitFrame (ch : Nat) (rec : TextRecord) (idx : OneBased) (isLast : Bool) (tag : Tag)
  /-- Peek (R181) -/
  | peek (ch : Nat)
  -- diff queue
  /-- ingest (R202) -/
  | ingest (ch : Nat) (frame : HostFrame)
  /-- host_supply (R201) -/
  | hostSupply (ch : Nat) (frame : HostFrame)
  /-- differs (R203) -/
  | differs (a b : LineRender)
  /-- pending_count (R204) -/
  | pendingCount (ch : Nat)
  /-- get_planned_record_count (R205) -/
  | getPlannedRecordCount (ch : Nat) (cap : Nat)
  /-- prepare_batch (R206) -/
  | prepareBatch (ch : Nat) (n : Nat)
  -- transport state machine; `batch` is the drained batch B of R220
  /-- tickEndpoint (R220) -/
  | tickEndpoint (ch : Nat) (now : Time)
  /-- keypress (R225) -/
  | keypress (ch : Nat) (w : Word)
  /-- idle_handler (R230) -/
  | idleHandler (ch : Nat) (batch : List Word)
  /-- acceptEnq (R231) -/
  | acceptEnq (ch : Nat) (w : Word)
  /-- enterRTS (R232) -/
  | enterRTS (ch : Nat)
  /-- idle_to_scratchpad (R233) -/
  | idleToScratchpad (ch : Nat)
  /-- rts_handler (R240) -/
  | rtsHandler (ch : Nat)
  /-- cts_handler (R242) -/
  | ctsHandler (ch : Nat) (batch : List Word)
  /-- senddata_transmit (R247) -/
  | senddataTransmit (ch : Nat) (now : Time)
  /-- senddata_responses (R248) -/
  | senddataResponses (ch : Nat) (now : Time) (batch : List Word)
  /-- transmitBatch (R249) -/
  | transmitBatch (ch : Nat)
  /-- ackData (R250) -/
  | ackData (ch : Nat)
  /-- retry (R251) -/
  | retry (ch : Nat) (now : Time)
  /-- exhaust (R252) -/
  | exhaust (ch : Nat)
  /-- timeout (R253) -/
  | timeout (ch : Nat) (now : Time)
  /-- enterScratchpad (R255) -/
  | enterScratchpad (ch : Nat)
  /-- sendChar (R256) -/
  | sendChar (ch : Nat) (now : Time)
  /-- scratchpad_handler (R257) -/
  | scratchpadHandler (ch : Nat) (now : Time) (batch : List Word)
  /-- restartScratchpad (R258) -/
  | restartScratchpad (ch : Nat)
  /-- finishScratchpad (R259) -/
  | finishScratchpad (ch : Nat)
  /-- spAck (R260) -/
  | spAck (ch : Nat) (now : Time)
  /-- spRetry (R261) -/
  | spRetry (ch : Nat) (now : Time)
  /-- spExhaust (R262) -/
  | spExhaust (ch : Nat)
  -- manager and reset
  /-- engineTick (R270, R271) -/
  | engineTick (now : Time) (ready : Bool)
  /-- heartbeat (R275) -/
  | heartbeat (ch : Nat) (now : Time)
  /-- reset (R320) -/
  | reset (cfg : Config)
  deriving DecidableEq, Repr

/-- Where a word stands in the outbound stream. CNTRL and DATA words have no code of their own and
are told apart by their position in a record only (R109, R114); which layout a CNTRL word has is
the sender's tag. -/
inductive OutPos where
  | control
  | cntrl (tag : Tag)
  | data
  deriving DecidableEq, Repr

/-- What a bus word's bits do not say and the decoder must be told: its channel and its direction,
with the driver's timestamp inbound and the position outbound. -/
inductive WordCtx where
  | inbound (ch : Nat) (stamp : Time)
  | outbound (ch : Nat) (pos : OutPos)
  deriving DecidableEq, Repr

/-- A boundary event (R9, R311): a word on a channel, a call of an operation, or the words that the
coming send attempts of a channel will find arrived (R181). DESIGN CHOICE (log 1, log 6). -/
inductive Input where
  | word (ctx : WordCtx) (w : Word)
  | call (i : Instr)
  | arrivals (ch : Nat) (batches : List (List Arrival))
  deriving DecidableEq, Repr

end Sys2Proof
end

