-- ==== Sys2Proof/Machine/Bits.lean ====
section
/-! DEFINITION. Bit-level helpers of the word codec: popcount, label reversal, parity, the layout of
R90, the field readers and the word builders of R139. Independent of State (R138). -/

namespace Sys2Proof.Machine

/-- The number of set bits (R13). -/
def popcount {n : Nat} (v : BitVec n) : Nat :=
  (List.range n).countP fun i => v.getLsbD i

/-- `reverse8` (R130): bit i of the result is bit 7 - i of x. The mirror is the spec's general
knowledge (G1, log 22). -/
def reverse8 (x : BitVec 8) : BitVec 8 :=
  BitVec.ofBool (x.getLsbD 0) ++ BitVec.ofBool (x.getLsbD 1) ++ BitVec.ofBool (x.getLsbD 2) ++
  BitVec.ofBool (x.getLsbD 3) ++ BitVec.ofBool (x.getLsbD 4) ++ BitVec.ofBool (x.getLsbD 5) ++
  BitVec.ofBool (x.getLsbD 6) ++ BitVec.ofBool (x.getLsbD 7)

/-- The parity bit of the 31 low bits of a word (R132): `1 - popcount mod 2`. -/
def parityBit (v : BitVec 31) : Bool :=
  popcount v % 2 == 0

/-- A word passes the parity check iff its popcount, bit 31 included, is odd (R136). -/
def parityOk (w : Word) : Bool :=
  popcount w % 2 == 1

/-- The layout of R90 without the parity bit: SSM, DATA, SDI, and the reversed label (R95). -/
def lowBits (ssm : BitVec 2) (data : BitVec 19) (sdi : BitVec 2) (label : Label) : BitVec 31 :=
  ssm ++ data ++ sdi ++ reverse8 label

/-- The layout of R90 with a given parity bit. -/
def layWord (p : Bool) (ssm : BitVec 2) (data : BitVec 19) (sdi : BitVec 2) (label : Label) : Word :=
  BitVec.ofBool p ++ lowBits ssm data sdi label

/-- A word with generated odd parity and SSM 0 (R92, R93, R132). -/
def parityWord (label : Label) (sdi : BitVec 2) (data : BitVec 19) : Word :=
  layWord (parityBit (lowBits 0#2 data sdi label)) 0#2 data sdi label

/-- `pack` (R133): the label masked by LABEL_MASK, `sdi` and `data` masked to their fields. -/
def packWord (mask : Label) (label sdi data : Nat) : Word :=
  parityWord (BitVec.ofNat 8 label &&& mask) (BitVec.ofNat 2 sdi) (BitVec.ofNat 19 data)

/-- P, bit 31 (R90). -/
def wP (w : Word) : Bool := w.getLsbD 31
/-- SSM, bits 30..29 (R90). -/
def wSsm (w : Word) : BitVec 2 := w.extractLsb' 29 2
/-- DATA, bits 28..10 (R90). -/
def wData (w : Word) : BitVec 19 := w.extractLsb' 10 19
/-- SDI, bits 9..8 (R90). -/
def wSdi (w : Word) : BitVec 2 := w.extractLsb' 8 2
/-- The logical label of a word, not masked (R95, R135). -/
def wLabel (w : Word) : Label := reverse8 (w.extractLsb' 0 8)
/-- CODE, bits 28..21 (R98). -/
def wCode (w : Word) : BitVec 8 := w.extractLsb' 21 8
/-- ARG, bits 20..11 (R99). -/
def wArg (w : Word) : BitVec 10 := w.extractLsb' 11 10
/-- Bit 10, no part of a control word's payload (R96). -/
def wB10 (w : Word) : Bool := w.getLsbD 10
/-- The payload, bits 28..11 (R96). -/
def wPayload (w : Word) : BitVec 18 := w.extractLsb' 11 18

/-- The mode bit of ENQ and RTS: 1 is Data, 0 is Menu (R101, R105). -/
def modeBit : Mode → BitVec 1
  | .menu => 0#1
  | .data => 1#1

/-- The mode a mode bit stands for (R101). -/
def modeOf (b : Bool) : Mode :=
  if b then .data else .menu

/-- The other CNTRL layout (R153). -/
def other : Tag → Tag
  | .A => .B
  | .B => .A

/-- A number counted from 1. -/
def oneBased (n : OneBased) : Nat := n.before + 1

/-- The DATA field of a control word: code, argument, bit 10 zero (R98, R99, R139). -/
def ctlData (code : BitVec 8) (arg : BitVec 10) : BitVec 19 :=
  code ++ arg ++ 0#1

/-- The DATA field of a CNTRL word: the sub-word zero-extended to 18 bits, bit 10 zero (R109, R139). -/
def cntrlData (sub : BitVec 16) : BitVec 19 :=
  0#2 ++ sub ++ 0#1

/-- The 21 character bits of a DATA word, first character lowest (R104, R78, G2, log 22). -/
def charBits (c0 c1 c2 : Char7) : BitVec 21 :=
  c2 ++ c1 ++ c0

/-- `ctlWord` (R139). -/
def ctlWord (mask : Label) (label : Nat) (code : BitVec 8) (arg : BitVec 10) : Word :=
  packWord mask label 0 (ctlData code arg).toNat

/-- `cntrlWord` (R139). -/
def cntrlWord (mask : Label) (label : Nat) (sub : BitVec 16) : Word :=
  packWord mask label 0 (cntrlData sub).toNat

/-- `dataWord` (R139): the SDI bits carry the two lowest character bits (R104). -/
def dataWord (mask : Label) (label : Nat) (c0 c1 c2 : Char7) : Word :=
  packWord mask label ((charBits c0 c1 c2).extractLsb' 0 2).toNat
    ((charBits c0 c1 c2).extractLsb' 2 19).toNat

/-- The control codes of R97, and the heartbeat's code byte 0x00 (R112). -/
def codeSTX : BitVec 8 := 0x02#8
def codeETX : BitVec 8 := 0x03#8
def codeEOT : BitVec 8 := 0x04#8
def codeENQ : BitVec 8 := 0x05#8
def codeACK : BitVec 8 := 0x06#8
def codeDC1 : BitVec 8 := 0x11#8
def codeRTS : BitVec 8 := 0x12#8
def codeCTS : BitVec 8 := 0x13#8
def codeNACK : BitVec 8 := 0x15#8
def codeSYN : BitVec 8 := 0x16#8
def codeHB : BitVec 8 := 0x00#8

/-- The argument of an RTS word: `(m << 8) | (count & 63)` (R105, R240). -/
def rtsArg (mode : Mode) (count : BitVec 6) : BitVec 10 :=
  0#1 ++ modeBit mode ++ 0#2 ++ count

/-- The argument of an STX word: index and word count (R106). -/
def stxArg (idx wc : BitVec 5) : BitVec 10 :=
  idx ++ wc

/-- The argument of a heartbeat word: the endpoint's address (R112). -/
def hbArg (addr : Label) : BitVec 10 :=
  0#2 ++ addr

/-- The sub-word of layout A (R110): colour 15..13, line 12..8, attribute 7..5, column 4..0. -/
def subA (color : BitVec 3) (line : BitVec 5) (attr : BitVec 3) (col : BitVec 5) : BitVec 16 :=
  color ++ line ++ attr ++ col

/-- The sub-word of layout B (R111): bit 15 zero, colour 14..12, count 11..8, function 7..5, line 4..0. -/
def subB (color : BitVec 3) (count : BitVec 4) (function : BitVec 3) (line : BitVec 5) : BitVec 16 :=
  0#1 ++ color ++ count ++ function ++ line

end Sys2Proof.Machine
end

