-- ==== Sys2Proof/Decode.lean ====
section
/-! DEFINITION. The decoder, total on every word and rejecting by name, and after it the encoder.
Both are written from spec/30_encoding.md R90 to R112. -/

namespace Sys2Proof

open Machine

/-- Why a word is no instruction. -/
inductive DecodeError where
  /-- Inbound: the code is none of the six the engine reacts to; the word is ignored (R100, R115). Safe. -/
  | irrelevant
  /-- Outbound: a bit the engine always sends 0 is set (R93, R94, R96, R99, R109 to R112). Safe. -/
  | reservedBits
  /-- Outbound: the code byte is none the engine sends (R97, R116). Safe. -/
  | unknownCode
  deriving DecidableEq, Repr

/-- The kind of an inbound word, from its code alone (R97, R100). -/
def rxKindOf (w : Word) : Option RxKind :=
  if wCode w = codeENQ then some .enq
  else if wCode w = codeDC1 then some .dc1
  else if wCode w = codeCTS then some .cts
  else if wCode w = codeACK then some .ack
  else if wCode w = codeNACK then some .nack
  else if wCode w = codeSYN then some .syn
  else none

/-- The bits of an inbound word around its code and argument. -/
def rxBits (w : Word) : RxBits where
  p     := wP w
  ssm   := wSsm w
  b10   := wB10 w
  sdi   := wSdi w
  label := wLabel w

/-- Decoding an inbound word (R100 to R103, R108, R118). -/
def decodeInbound (ch : Nat) (stamp : Time) (w : Word) : Except DecodeError Instr :=
  match rxKindOf w with
  | some .enq =>
      .ok (.enq ch stamp (rxBits w) ((wArg w).extractLsb' 9 1) (modeOf ((wArg w).getLsbD 8)) ((wArg w).extractLsb' 0 8))
  | some .dc1 => .ok (.dc1 ch stamp (rxBits w) ((wArg w).extractLsb' 7 3) ((wArg w).extractLsb' 0 7))
  | some .cts => .ok (.cts ch stamp (rxBits w) ((wArg w).extractLsb' 6 4) ((wArg w).extractLsb' 0 6))
  | some .ack => .ok (.ackIn ch stamp (rxBits w) (wArg w))
  | some .nack => .ok (.nack ch stamp (rxBits w) (wArg w))
  | some .syn => .ok (.syn ch stamp (rxBits w) (wArg w))
  | none => .error .irrelevant

/-- Decoding an outbound control word: SSM, bit 10 and SDI zero, and the argument bits no rule names
zero (R93, R94, R96, R99, R105 to R108, R112). -/
def decodeControl (ch : Nat) (w : Word) : Except DecodeError Instr :=
  if wSsm w ≠ 0#2 ∨ wB10 w = true ∨ wSdi w ≠ 0#2 then .error .reservedBits
  else if wCode w = codeRTS then
    if (wArg w).getLsbD 9 = true ∨ (wArg w).extractLsb' 6 2 ≠ 0#2 then .error .reservedBits
    else .ok (.rts ch (wLabel w) ((wArg w).extractLsb' 0 6) (modeOf ((wArg w).getLsbD 8)))
  else if wCode w = codeSTX then
    .ok (.stx ch (wLabel w) ((wArg w).extractLsb' 5 5) ((wArg w).extractLsb' 0 5))
  else if wCode w = codeETX then
    if wArg w ≠ 0#10 then .error .reservedBits else .ok (.etx ch (wLabel w))
  else if wCode w = codeEOT then
    if wArg w ≠ 0#10 then .error .reservedBits else .ok (.eot ch (wLabel w))
  else if wCode w = codeACK then
    if wArg w ≠ 0#10 then .error .reservedBits else .ok (.ackOut ch (wLabel w))
  else if wCode w = codeHB then
    if (wArg w).extractLsb' 8 2 ≠ 0#2 then .error .reservedBits
    else .ok (.hb ch (wLabel w) ((wArg w).extractLsb' 0 8))
  else .error .unknownCode

/-- Decoding the CNTRL word of a record, in the layout the sender used (R109, R110, R111). -/
def decodeCntrl (ch : Nat) (tag : Tag) (w : Word) : Except DecodeError Instr :=
  if wSsm w ≠ 0#2 ∨ wB10 w = true ∨ wSdi w ≠ 0#2 ∨ (wPayload w).extractLsb' 16 2 ≠ 0#2 then
    .error .reservedBits
  else match tag with
    | .A =>
        .ok (.cntrlA ch (wLabel w) ((wPayload w).extractLsb' 13 3) ((wPayload w).extractLsb' 8 5)
          ((wPayload w).extractLsb' 5 3) ((wPayload w).extractLsb' 0 5))
    | .B =>
        if (wPayload w).getLsbD 15 = true then .error .reservedBits
        else .ok (.cntrlB ch (wLabel w) ((wPayload w).extractLsb' 12 3) ((wPayload w).extractLsb' 8 4)
          ((wPayload w).extractLsb' 5 3) ((wPayload w).extractLsb' 0 5))

/-- Decoding a DATA word of a record (R104). -/
def decodeData (ch : Nat) (w : Word) : Except DecodeError Instr :=
  if wSsm w ≠ 0#2 then .error .reservedBits
  else .ok (.data ch (wLabel w) (w.extractLsb' 8 7) (w.extractLsb' 15 7) (w.extractLsb' 22 7))

/-- The decoder. The parity bit of an outbound word is not looked at, as in `unpack` (R135); it is
generated again when the word is sent (log 8). -/
def decode (ctx : WordCtx) (w : Word) : Except DecodeError Instr :=
  match ctx with
  | .inbound ch stamp => decodeInbound ch stamp w
  | .outbound ch .control => decodeControl ch w
  | .outbound ch (.cntrl tag) => decodeCntrl ch tag w
  | .outbound ch .data => decodeData ch w

/-- The decoder reads the word at this place. -/
def readsAt (ctx : WordCtx) (w : Word) : Bool :=
  match decode ctx w with
  | .ok _ => true
  | .error _ => false

/-- How a word that stands alone is read (log 7): as one of the six inbound kinds where its code is
one of theirs; else as an outbound control word, a CNTRL word in layout A, or a DATA word, the first
of these that it is; else as an inbound word, which is then ignored (R115). -/
def loneCtx (w : Word) : WordCtx :=
  if (rxKindOf w).isSome then .inbound 0 0
  else if readsAt (.outbound 0 .control) w then .outbound 0 .control
  else if readsAt (.outbound 0 (.cntrl .A)) w then .outbound 0 (.cntrl .A)
  else if readsAt (.outbound 0 .data) w then .outbound 0 .data
  else .inbound 0 0

/-- The instruction the decoder reads from a word that stands alone, its bits numbered as
spec/opcode_table.json numbers them. -/
def decodeTableWord (_nbits w : Nat) : Option Instr :=
  if 2 ^ 32 ≤ w then none
  else (decode (loneCtx (BitVec.ofNat 32 w)) (BitVec.ofNat 32 w)).toOption

/-- An inbound word with every bit as given (R90, R98, R99). -/
def rxWord (h : RxBits) (code : BitVec 8) (arg : BitVec 10) : Word :=
  layWord h.p h.ssm (code ++ arg ++ BitVec.ofBool h.b10) h.sdi h.label

/-- The encoder: the word of an instruction that is a word; the operations have no encoding. -/
def encode : Instr → Option Word
  | .enq _ _ h x mode tgt => some (rxWord h codeENQ (x ++ modeBit mode ++ tgt))
  | .dc1 _ _ h x key => some (rxWord h codeDC1 (x ++ key))
  | .cts _ _ h x max => some (rxWord h codeCTS (x ++ max))
  | .ackIn _ _ h x => some (rxWord h codeACK x)
  | .nack _ _ h x => some (rxWord h codeNACK x)
  | .syn _ _ h x => some (rxWord h codeSYN x)
  | .rts _ label count mode => some (parityWord label 0#2 (ctlData codeRTS (rtsArg mode count)))
  | .stx _ label idx wc => some (parityWord label 0#2 (ctlData codeSTX (stxArg idx wc)))
  | .etx _ label => some (parityWord label 0#2 (ctlData codeETX 0#10))
  | .eot _ label => some (parityWord label 0#2 (ctlData codeEOT 0#10))
  | .ackOut _ label => some (parityWord label 0#2 (ctlData codeACK 0#10))
  | .hb _ label addr => some (parityWord label 0#2 (ctlData codeHB (hbArg addr)))
  | .cntrlA _ label color line attr col => some (parityWord label 0#2 (cntrlData (subA color line attr col)))
  | .cntrlB _ label color count function line =>
      some (parityWord label 0#2 (cntrlData (subB color count function line)))
  | .data _ label c0 c1 c2 =>
      some (parityWord label ((charBits c0 c1 c2).extractLsb' 0 2) ((charBits c0 c1 c2).extractLsb' 2 19))
  | .reverseBits _ | .parity _ | .pack _ _ _ | .unpack _ | .parityCheck _ => none
  | .encodeA _ _ _ _ | .encodeB _ _ _ _ | .cntrlSub _ _ _ _ | .selectOrder _ => none
  | .sendRecord _ _ _ _ | .emitFrame _ _ _ _ _ | .peek _ => none
  | .ingest _ _ | .hostSupply _ _ | .differs _ _ | .pendingCount _ => none
  | .getPlannedRecordCount _ _ | .prepareBatch _ _ => none
  | .tickEndpoint _ _ | .keypress _ _ | .idleHandler _ _ | .acceptEnq _ _ | .enterRTS _ => none
  | .idleToScratchpad _ | .rtsHandler _ | .ctsHandler _ _ | .senddataTransmit _ _ => none
  | .senddataResponses _ _ _ | .transmitBatch _ | .ackData _ | .retry _ _ | .exhaust _ => none
  | .timeout _ _ | .enterScratchpad _ | .sendChar _ _ | .scratchpadHandler _ _ _ => none
  | .restartScratchpad _ | .finishScratchpad _ | .spAck _ _ | .spRetry _ _ | .spExhaust _ => none
  | .engineTick _ _ | .heartbeat _ _ | .reset _ => none

/-- Where the word of an instruction stands: its channel, direction and position. -/
def ctxOf : Instr → Option WordCtx
  | .enq ch stamp _ _ _ _ | .dc1 ch stamp _ _ _ | .cts ch stamp _ _ _ => some (.inbound ch stamp)
  | .ackIn ch stamp _ _ | .nack ch stamp _ _ | .syn ch stamp _ _ => some (.inbound ch stamp)
  | .rts ch _ _ _ | .stx ch _ _ _ | .etx ch _ | .eot ch _ | .ackOut ch _ | .hb ch _ _ =>
      some (.outbound ch .control)
  | .cntrlA ch _ _ _ _ _ => some (.outbound ch (.cntrl .A))
  | .cntrlB ch _ _ _ _ _ => some (.outbound ch (.cntrl .B))
  | .data ch _ _ _ _ => some (.outbound ch .data)
  | .reverseBits _ | .parity _ | .pack _ _ _ | .unpack _ | .parityCheck _ => none
  | .encodeA _ _ _ _ | .encodeB _ _ _ _ | .cntrlSub _ _ _ _ | .selectOrder _ => none
  | .sendRecord _ _ _ _ | .emitFrame _ _ _ _ _ | .peek _ => none
  | .ingest _ _ | .hostSupply _ _ | .differs _ _ | .pendingCount _ => none
  | .getPlannedRecordCount _ _ | .prepareBatch _ _ => none
  | .tickEndpoint _ _ | .keypress _ _ | .idleHandler _ _ | .acceptEnq _ _ | .enterRTS _ => none
  | .idleToScratchpad _ | .rtsHandler _ | .ctsHandler _ _ | .senddataTransmit _ _ => none
  | .senddataResponses _ _ _ | .transmitBatch _ | .ackData _ | .retry _ _ | .exhaust _ => none
  | .timeout _ _ | .enterScratchpad _ | .sendChar _ _ | .scratchpadHandler _ _ _ => none
  | .restartScratchpad _ | .finishScratchpad _ | .spAck _ _ | .spRetry _ _ | .spExhaust _ => none
  | .engineTick _ _ | .heartbeat _ _ | .reset _ => none

end Sys2Proof
end

