-- ==== Sys2Proof/Machine/State.lean ====
section
/-! DEFINITION. The machine's state: the configuration record, the registers of each endpoint
(spec/10_state.md section 3), the queues the bus driver and the host hold for each channel, and the
boundary events still to happen; the reasons a step can stop; the state after reset. Plain data. -/

namespace Sys2Proof.Machine

/-- There is no fault: every error of the source is recovered, ignored, or refused at the boundary
(R16, 93_implementation_defined.md). No rule raises one, so the type has no constructor. -/
inductive Fault where
  deriving DecidableEq, Repr

/-- The reasons an operation is refused (R300). A refused operation changes nothing. In the model a
refusal ends the run (log 15): safe, since nothing can be proved of what follows. -/
inductive Refusal where
  /-- An instruction with no meaning yet: raised by an arm of exec only. No arm raises it. Safe. -/
  | notModelled (mnemonic : String)
  /-- `send_record` with an index that is not positive (R170). Raised by execSendRecord. Safe. -/
  | nonPositiveRecordIndex
  /-- A channel index outside 0..NUM_ENDPOINTS-1 (R301). Raised by every operation on a channel. Safe. -/
  | badChannel
  /-- A configuration that breaks R303. Raised by execReset. Safe. -/
  | badConfig
  /-- A host Frame outside the bounds of R200. Raised by execIngest and execHostSupply. Safe. -/
  | badFrame
  /-- A tick whose `now` is less than the previous tick's (R270). Raised by execEngineTick. Safe. -/
  | timeWentBack
  /-- An outbound boundary event whose word is none the engine builds at that position (R116, R16).
  Raised by step. Safe. -/
  | notEngineWord (why : DecodeError)
  deriving DecidableEq, Repr

/-- The registers of one endpoint (10_state.md section 3). -/
structure Regs where
  /-- R33 -/
  state       : TxState
  /-- R34 -/
  lock        : Option Label
  /-- R35 -/
  mode        : Mode
  /-- R36 -/
  reqCount    : Nat
  /-- R44 -/
  rtsSent     : Bool
  /-- R37: the record index and the record -/
  batch       : List (OneBased × TextRecord)
  /-- R45 -/
  sdSent      : Bool
  /-- R38: the spec's `repeat` -/
  repeatCount : Nat
  /-- R39 -/
  deadline    : Option Time
  /-- R40, R154 -/
  preferred   : Option Tag
  /-- R41, R182 -/
  lastTag     : Option Tag
  /-- R46 -/
  spDirty     : Bool
  /-- R47 -/
  spBuf       : List Char7
  /-- R47 -/
  spPos       : Nat
  /-- R47 -/
  spSent      : Bool
  /-- R42, R71 -/
  prevFrame   : Option Frame
  /-- R42, R72: head first -/
  queue       : List Nat
  /-- R43 -/
  everDrained : Bool
  /-- R48 -/
  lastHb      : Option Time
  deriving DecidableEq, Repr

/-- The registers of an endpoint after reset (R320). -/
def Regs.reset : Regs where
  state       := .idle
  lock        := none
  mode        := .menu
  reqCount    := 0
  rtsSent     := false
  batch       := []
  sdSent      := false
  repeatCount := 0
  deadline    := none
  preferred   := none
  lastTag     := none
  spDirty     := false
  spBuf       := []
  spPos       := 0
  spSent      := false
  prevFrame   := none
  queue       := []
  everDrained := false
  lastHb      := none

/-- What the bus driver and the host hold for one channel, outside the engine (R51, R52, R312). -/
structure Channel where
  /-- The inbound queue, oldest first (R51, R310). -/
  inbound  : List Arrival
  /-- The free input of R181: what each coming send attempt will find arrived (log 6). -/
  arriving : List (List Arrival)
  /-- The outbound channel: every word sent, oldest first (R52, R83). -/
  outbound : List Word
  /-- The key codes handed to the host, oldest first (R312). -/
  keys     : List Char7
  deriving DecidableEq, Repr

/-- A channel with nothing on it. -/
def Channel.empty : Channel where
  inbound  := []
  arriving := []
  outbound := []
  keys     := []

/-- One endpoint with its channel: what an endpoint's operation reads and writes (R32, R74). -/
structure Ep where
  reg  : Regs
  chan : Channel
  deriving DecidableEq, Repr

/-- The value an operation hands back to its caller (log 3). -/
inductive Ret where
  | nothing
  | byte (b : BitVec 8)
  | bit (b : Bool)
  | word (w : Word)
  | fields (u : Unpacked)
  | sub (v : BitVec 16)
  | tags (ts : List Tag)
  | result (r : SendResult)
  | words (ws : List Arrival)
  | count (n : Nat)
  | records (rs : List TextRecord)
  deriving DecidableEq, Repr

/-- The state of the machine. -/
structure State where
  /-- The configuration record, written by reset only (R10, R32, R85). -/
  cfg     : Config
  /-- The registers of endpoints 0..NUM_ENDPOINTS-1 (R32). -/
  eps     : List Regs
  /-- The channels; endpoint e uses channel e (R74). -/
  chans   : List Channel
  /-- The `now` of the previous tick (R270). -/
  lastNow : Option Time
  /-- The boundary events still to happen, in order (log 1). -/
  inputs  : List Input
  /-- The value the last operation handed back (log 3). -/
  ret     : Ret
  deriving DecidableEq, Repr

/-- The machine right after reset (R320) with the reference configuration (log 2), nothing on the
channels and no boundary event yet. -/
def State.reset : State where
  cfg     := Config.reference
  eps     := Config.reference.endpoints.map fun _ => Regs.reset
  chans   := Config.reference.endpoints.map fun _ => Channel.empty
  lastNow := none
  inputs  := []
  ret     := .nothing

end Sys2Proof.Machine
end

