-- ==== Sys2Proof/Machine/Ops.lean ====
section
/-! DEFINITION. The named operations over channels and endpoints: Send, Drain, Peek, HostKey (R13),
reading and writing one endpoint, and the boundary's shared shape (a channel index checked, then an
operation of that endpoint, then an answer). There is no trap to take or return from (60_exceptions.md):
the one way out of an operation is a refusal at the boundary, `refuse`. -/

namespace Sys2Proof.Machine

open Host (Outcome)

/-- `Send(e, w)`: append one whole word to the outbound channel (R13, R52, R80). -/
def Ep.send (E : Ep) (w : Word) : Ep :=
  { E with chan := { E.chan with outbound := E.chan.outbound ++ [w] } }

/-- Several words sent in order (R83). -/
def Ep.sendAll (E : Ep) (ws : List Word) : Ep :=
  { E with chan := { E.chan with outbound := E.chan.outbound ++ ws } }

/-- `HostKey(e, code)` (R312). -/
def Ep.hostKey (E : Ep) (code : Char7) : Ep :=
  { E with chan := { E.chan with keys := E.chan.keys ++ [code] } }

/-- What `Drain(e)` returns: the queued words, oldest first; the timestamps are not used (R310). -/
def Ep.drained (E : Ep) : List Word :=
  E.chan.inbound.map Arrival.word

/-- `Drain(e)` empties the inbound queue (R80, R220). -/
def Ep.drain (E : Ep) : Ep :=
  { E with chan := { E.chan with inbound := [] } }

/-- What the next `Peek(e, k)` returns: the words that have arrived since the previous Drain or Peek,
the free input of this send attempt; none where no more is given (R181, log 6). -/
def Ep.peeked (E : Ep) : List Arrival :=
  E.chan.arriving.headD []

/-- The effect of a Peek on the queue: the words it saw are in the inbound queue and stay there for
the next Drain (R181, R311). -/
def Ep.peek (E : Ep) : Ep :=
  { E with chan := { E.chan with
      inbound  := E.chan.inbound ++ E.chan.arriving.headD []
      arriving := E.chan.arriving.tail } }

/-- Write the endpoint's registers. -/
def Ep.mapReg (E : Ep) (f : Regs → Regs) : Ep :=
  { E with reg := f E.reg }

/-- Endpoint `ch` with its parameters and its channel; none where the index is outside
0..NUM_ENDPOINTS-1 (R74). -/
def State.ep? (s : State) (ch : Nat) : Option (EpConfig × Ep) :=
  match s.cfg.endpoints[ch]?, s.eps[ch]?, s.chans[ch]? with
  | some p, some r, some k => some (p, { reg := r, chan := k })
  | _, _, _ => none

/-- Write endpoint `ch` and its channel. -/
def State.setEp (s : State) (ch : Nat) (E : Ep) : State :=
  { s with eps := s.eps.set ch E.reg, chans := s.chans.set ch E.chan }

/-- The state with an answer for the caller (log 3). -/
def State.answer (s : State) (r : Ret) : State :=
  { s with ret := r }

/-- Rejection at the boundary: nothing changes, the caller gets the reason (R300). -/
def refuse (r : Refusal) : Outcome State Fault Refusal :=
  .refused r

/-- An operation of one endpoint: an index out of range is refused (R301); otherwise the endpoint is
replaced by what the operation makes of it, and its answer is given. -/
def onEp (s : State) (ch : Nat) (f : Config → EpConfig → Ep → Ep × Ret) : Outcome State Fault Refusal :=
  match s.ep? ch with
  | none => refuse .badChannel
  | some (p, E) => .next ((s.setEp ch (f s.cfg p E).1).answer (f s.cfg p E).2)

/-- An operation of one endpoint that gives no answer. -/
def doEp (s : State) (ch : Nat) (f : Config → EpConfig → Ep → Ep) : Outcome State Fault Refusal :=
  onEp s ch fun c p E => (f c p E, .nothing)

/-- A question to one endpoint: nothing but the answer is written. -/
def askEp (s : State) (ch : Nat) (f : Config → EpConfig → Ep → Ret) : Outcome State Fault Refusal :=
  match s.ep? ch with
  | none => refuse .badChannel
  | some (p, E) => .next (s.answer (f s.cfg p E))

/-- A combinational operation: nothing but the answer is written (R138). -/
def answerWith (s : State) (r : Ret) : Outcome State Fault Refusal :=
  .next (s.answer r)

/-- A word arrives on channel `ch`: it joins the inbound queue at the tail (R51, R82), whatever its
bits (R115); a channel index out of range is refused (R301). -/
def deliver (s : State) (ch : Nat) (a : Arrival) : Outcome State Fault Refusal :=
  doEp s ch fun _ _ E => { E with chan := { E.chan with inbound := E.chan.inbound ++ [a] } }

/-- The word of an instruction sent on channel `ch` by the builder of R139 (R116; log 5). -/
def sendWord (s : State) (ch : Nat) (build : Label → Word) : Outcome State Fault Refusal :=
  doEp s ch fun c _ E => E.send (build c.labelMask)

/-- Apply an endpoint's operation in place; nothing where there is no such endpoint. -/
def State.updateEp (s : State) (ch : Nat) (f : Config → EpConfig → Ep → Ep) : State :=
  match s.ep? ch with
  | none => s
  | some (p, E) => s.setEp ch (f s.cfg p E)

end Sys2Proof.Machine
end

