-- ==== Sys2Proof/Machine/Operands.lean ====
section
/-! DEFINITION. Operand forms: which drained words are accepted (R100, R221), the arguments of the
inbound words (R101 to R103), the outbound label (R49), a record's padded and bounded text (R171, R172),
the lines of the stored Frame, and the scratchpad text (R53). -/

namespace Sys2Proof.Machine

/-- A drained word is accepted (R100): its parity passes where DROP_BAD_PARITY holds, and its
logical label, unmasked, is OWN_ADDR[e] (R135, D8). -/
def accepted (c : Config) (p : EpConfig) (w : Word) : Bool :=
  (!c.dropBadParity || parityOk w) && decide ((wLabel w).toNat = p.ownAddr)

/-- The kind of an accepted word the engine knows; none for every other word (R100, R221). -/
def classify (c : Config) (p : EpConfig) (w : Word) : Option Rx :=
  if accepted c p w then (rxKindOf w).map fun k => { kind := k, word := w } else none

/-- The batch A of R220 made from the drained batch B, in order (R82, R221). -/
def acceptedOf (c : Config) (p : EpConfig) (B : List Word) : List Rx :=
  B.filterMap (classify c p)

/-- The first word of a kind in A. -/
def firstOf (k : RxKind) (A : List Rx) : Option Rx :=
  A.find? fun r => r.kind = k

/-- ENQ's reply target, ARG[7:0] (R101). -/
def enqTarget (w : Word) : Label := (wArg w).extractLsb' 0 8
/-- ENQ's mode, ARG[8] (R101). -/
def enqMode (w : Word) : Mode := modeOf ((wArg w).getLsbD 8)
/-- DC1's key code, ARG[6:0] (R102). -/
def dc1Key (w : Word) : Char7 := (wArg w).extractLsb' 0 7
/-- CTS's maximum, ARG[5:0] (R103). -/
def ctsMax (w : Word) : Nat := ((wArg w).extractLsb' 0 6).toNat

/-- `outLabel(E)` (R49): the locked target, else DEFAULT_PEER_LABEL[e]. -/
def outLabel (p : EpConfig) (r : Regs) : Nat :=
  match r.lock with
  | some l => l.toNat
  | none => p.defaultPeer

/-- `ceil_div` (R13). -/
def ceilDiv (a b : Nat) : Nat := (a + b - 1) / b

/-- A record's text after column padding and truncation (R171, R172). -/
def padText (c : Config) (p : EpConfig) (rec : TextRecord) : List Char7 :=
  ((if p.padColumns then List.replicate (oneBased rec.col - 1) 0x20#7 else []) ++ rec.text).take c.textMax

/-- A record's column after padding (R171). -/
def padCol (p : EpConfig) (rec : TextRecord) : OneBased :=
  if p.padColumns then { before := 0 } else rec.col

/-- A record's data-word count k (R172). -/
def dataCount (c : Config) (p : EpConfig) (rec : TextRecord) : Nat :=
  ceilDiv (padText c p rec).length 3

/-- `ch(i)` of R173: character i of the text, 0 past its end. -/
def charAt (text : List Char7) (i : Nat) : Char7 := text.getD i 0#7

/-- Line i of a Frame, counted from 1. A line the Frame does not have is a free value (log 12). -/
def frameLine (F : Frame) (i : Nat) : LineRender :=
  match F[i - 1]? with
  | some l => if i = 0 then Config.freeLine i else l
  | none => Config.freeLine i

/-- Line i of the stored Frame; where none is stored, a free value (log 12). -/
def storedLine (r : Regs) (i : Nat) : LineRender :=
  match r.prevFrame with
  | some F => frameLine F i
  | none => Config.freeLine i

/-- A text with its trailing spaces removed (R53). -/
def stripSpaces (text : List Char7) : List Char7 :=
  (text.reverse.dropWhile fun x => x = 0x20#7).reverse

/-- `scratchpadText(E)` (R53). -/
def scratchpadText (c : Config) (r : Regs) : List Char7 :=
  match r.prevFrame with
  | some F => stripSpaces (frameLine F c.scratchpadLine).text
  | none => []

/-- The record of scratchpad character `spPos` (R256): colour and attribute of the scratchpad line,
or 0 where no Frame is stored. A character past the buffer is a free value (log 12). -/
def scratchpadRecord (c : Config) (r : Regs) : TextRecord where
  text  := [match r.spBuf[r.spPos]? with
            | some x => x
            | none => Config.freeChar r.spBuf r.spPos]
  color := match r.prevFrame with
           | some F => (frameLine F c.scratchpadLine).color
           | none => 0#3
  line  := c.scratchpadLine
  col   := { before := r.spPos }
  attr  := match r.prevFrame with
           | some F => (frameLine F c.scratchpadLine).attr
           | none => 0#3

end Sys2Proof.Machine
end

