-- ==== Sys2Proof/Machine/Flags.lean ====
section
/-! DEFINITION. The Boolean conditions the rules test: the response summary (R223), the sender's
same-tick inspection (R180), the deadline (R253), the heartbeat's due time (R275), a changed line
(R203). The engine has no condition codes (R31). -/

namespace Sys2Proof.Machine

/-- `neg` of R223: some word of A is SYN or NACK. -/
def negIn (A : List Rx) : Bool := A.any fun r => decide (r.kind = .syn ∨ r.kind = .nack)

/-- `pos` of R223: some word of A is ACK. -/
def posIn (A : List Rx) : Bool := A.any fun r => decide (r.kind = .ack)

/-- Some DC1 is in A (R257). -/
def dc1In (A : List Rx) : Bool := A.any fun r => decide (r.kind = .dc1)

/-- What a same-tick inspection concludes (R180): SYN or NACK first, then ACK, else nothing yet. -/
inductive Verdict where
  | negative
  | positive
  | silent
  deriving DecidableEq, Repr

/-- The verdict on the words a Peek returned: only accepted words count (R180, R100). -/
def verdict (c : Config) (p : EpConfig) (seen : List Arrival) : Verdict :=
  if negIn (acceptedOf c p (seen.map Arrival.word)) then .negative
  else if posIn (acceptedOf c p (seen.map Arrival.word)) then .positive
  else .silent

/-- The deadline has expired (R253): it is set and `now` has reached it. -/
def expired (r : Regs) (now : Time) : Bool :=
  match r.deadline with
  | some d => decide (d ≤ now)
  | none => false

/-- The heartbeat is due (R275): none sent yet, or HB_PERIOD_MS have passed since the last (log 19). -/
def heartbeatDue (c : Config) (r : Regs) (now : Time) : Bool :=
  match r.lastHb with
  | none => true
  | some t => decide (t + c.hbPeriodMs ≤ now)

/-- `differs` (R203): the column is not compared. -/
def differs (a b : LineRender) : Bool :=
  decide (a.text ≠ b.text) || decide (a.color ≠ b.color) || decide (a.attr ≠ b.attr)

/-- The tag a response refers to: the last one sent, A where none was (R41, R156, R250; log 10). -/
def triedTag (r : Regs) : Tag := r.lastTag.getD .A

end Sys2Proof.Machine
end

