-- ==== Sys2Proof/Machine/Codec.lean ====
section
/-! DEFINITION. The Word Codec's operations (spec/40_codec.md). Combinational: no state but the answer
is written (R138). -/

namespace Sys2Proof.Machine

open Host (Outcome)

/-- The fields `unpack` returns (R135). -/
def unpackWord (w : Word) : Unpacked where
  parity   := wP w
  ssm      := wSsm w
  sdi      := wSdi w
  data     := wData w
  label    := wLabel w
  parityOk := parityOk w

/-- reverse_bits (R130). -/
def execReverseBits (x : BitVec 8) (s : State) : Outcome State Fault Refusal :=
  answerWith s (.byte (reverse8 x))

/-- parity (R132). -/
def execParity (v : BitVec 31) (s : State) : Outcome State Fault Refusal :=
  answerWith s (.bit (parityBit v))

/-- pack (R133). -/
def execPack (label sdi data : Nat) (s : State) : Outcome State Fault Refusal :=
  answerWith s (.word (packWord s.cfg.labelMask label sdi data))

/-- unpack (R135). -/
def execUnpack (w : Word) (s : State) : Outcome State Fault Refusal :=
  answerWith s (.fields (unpackWord w))

/-- parity_check (R136). -/
def execParityCheck (w : Word) (s : State) : Outcome State Fault Refusal :=
  answerWith s (.bit (parityOk w))

end Sys2Proof.Machine
end

