-- ==== Sys2Proof/Machine/Bounds.lean ====
section
/-! DEFINITION. The bounds the boundary checks: records (R17), host Frames (R200), configurations (R303),
and the conversion of a checked host Frame into a stored one. Independent of State. -/

namespace Sys2Proof.Machine

/-- A host line within R200: at most `chars` characters, each 7-bit; colour and attribute 3-bit;
column 1..`chars` (log 23). -/
def hostLineOk (chars : Nat) (l : HostLine) : Bool :=
  decide (l.text.length ≤ chars) && l.text.all (fun x => decide (x ≤ 0x7F)) &&
  decide (l.color ≤ 7) && decide (1 ≤ l.col) && decide (l.col ≤ chars) && decide (l.attr ≤ 7)

/-- A host Frame within R200: exactly `lines` lines, each within its bounds. -/
def hostFrameOk (lines chars : Nat) (f : HostFrame) : Bool :=
  decide (f.length = lines) && f.all (hostLineOk chars)

/-- The column of a host line as a number counted from 1. -/
def colOf (n : Nat) : OneBased := { before := n - 1 }

/-- The stored form of a host line. -/
def renderLine (l : HostLine) : LineRender where
  text  := l.text.map (BitVec.ofNat 7)
  color := BitVec.ofNat 3 l.color
  col   := colOf l.col
  attr  := BitVec.ofNat 3 l.attr

/-- The stored form of a host Frame. -/
def renderFrame (f : HostFrame) : Frame := f.map renderLine

/-- A stored line within R200. -/
def lineOk (chars : Nat) (l : LineRender) : Bool :=
  decide (l.text.length ≤ chars) && decide (oneBased l.col ≤ chars)

/-- A record within the ranges of R17 and R15: text at most 24 characters, line 1..31, column 1..24. -/
def recordOk (r : TextRecord) : Bool :=
  decide (r.text.length ≤ 24) && decide (1 ≤ r.line) && decide (r.line ≤ 31) && decide (oneBased r.col ≤ 24)

/-- The addresses of an endpoint fit the 8-bit label field (R303). -/
def epConfigOk (p : EpConfig) : Bool :=
  decide (p.ownAddr ≤ 0xFF) && decide (p.defaultPeer ≤ 0xFF)

/-- A configuration that reset accepts (R303): at least one endpoint, the heartbeat period within
500..900, every address within 0xFF. Nothing else of it is checked (log 24). -/
def configOk (c : Config) : Bool :=
  decide (500 ≤ c.hbPeriodMs) && decide (c.hbPeriodMs ≤ 900) && decide (1 ≤ c.endpoints.length) &&
  decide (c.hbLabel ≤ 0xFF) && c.endpoints.all epConfigOk

end Sys2Proof.Machine
end

