-- ==== Sys2Proof/Machine/DiffQueue.lean ====
section
/-! DEFINITION. The Diff Queue and the Frame store (spec/43_diff_queue.md). -/

namespace Sys2Proof.Machine

open Host (Outcome)

/-- Line i is to be queued (R202): no Frame is stored, or the line differs from the stored one. -/
def lineChanged (old : Option Frame) (new : Frame) (i : Nat) : Bool :=
  match old with
  | none => true
  | some F => differs (frameLine new i) (frameLine F i)

/-- Push an index at the tail unless it is pending already (R202, D63). -/
def pushLine (q : List Nat) (i : Nat) : List Nat :=
  if i ∈ q then q else q ++ [i]

/-- The queue after an ingest: the lines 1..`lines` in ascending order, each pushed if it changed (R202). -/
def queueChanges (lines : Nat) (old : Option Frame) (new : Frame) (q : List Nat) : List Nat :=
  ((List.range' 1 lines).filter (lineChanged old new)).foldl pushLine q

/-- ingest of a Frame within bounds (R202). -/
def ingest (c : Config) (new : Frame) (E : Ep) : Ep :=
  E.mapReg fun r => { r with
    queue     := queueChanges c.frameLines r.prevFrame new r.queue
    prevFrame := some new }

/-- pending_count (R204). -/
def pendingCount (r : Regs) : Nat := r.queue.length

/-- get_planned_record_count (R205). -/
def plannedCount (r : Regs) (cap : Nat) : Nat :=
  if r.queue.length = 0 then 0
  else if r.everDrained then 1
  else min r.queue.length cap

/-- The record of line i of the stored Frame (R206). -/
def recordOfLine (r : Regs) (i : Nat) : TextRecord where
  text  := (storedLine r i).text
  color := (storedLine r i).color
  line  := i
  col   := (storedLine r i).col
  attr  := (storedLine r i).attr

/-- The records prepare_batch returns: of the first n pending lines, from the stored Frame (R206). -/
def batchRecords (r : Regs) (n : Nat) : List TextRecord :=
  (r.queue.take n).map (recordOfLine r)

/-- The registers after prepare_batch: the lines are popped, and `everDrained` is set where a pop
left the queue empty (R206, D51). -/
def popBatch (r : Regs) (n : Nat) : Regs :=
  { r with
    queue       := r.queue.drop n
    everDrained := r.everDrained || (decide (r.queue.take n ≠ []) && decide (r.queue.drop n = [])) }

/-- A host Frame offered to endpoint `ch`: the channel is checked (R301), then the Frame's bounds
(R200), then it is ingested (R202). DESIGN CHOICE (log 26): with both at fault the channel is the reason
given. -/
def supplyFrame (s : State) (ch : Nat) (frame : HostFrame) : Outcome State Fault Refusal :=
  match s.ep? ch with
  | none => refuse .badChannel
  | some _ =>
      if hostFrameOk s.cfg.frameLines s.cfg.lineChars frame then
        doEp s ch fun c _ E => ingest c (renderFrame frame) E
      else refuse .badFrame

/-- ingest (R202). -/
def execIngest (ch : Nat) (frame : HostFrame) (s : State) : Outcome State Fault Refusal :=
  supplyFrame s ch frame

/-- host_supply (R201): the host's step, which is an ingest between two ticks. -/
def execHostSupply (ch : Nat) (frame : HostFrame) (s : State) : Outcome State Fault Refusal :=
  supplyFrame s ch frame

/-- differs (R203). -/
def execDiffers (a b : LineRender) (s : State) : Outcome State Fault Refusal :=
  answerWith s (.bit (differs a b))

/-- pending_count (R204). -/
def execPendingCount (ch : Nat) (s : State) : Outcome State Fault Refusal :=
  askEp s ch fun _ _ E => .count (pendingCount E.reg)

/-- get_planned_record_count (R205). -/
def execGetPlannedRecordCount (ch : Nat) (cap : Nat) (s : State) : Outcome State Fault Refusal :=
  askEp s ch fun _ _ E => .count (plannedCount E.reg cap)

/-- prepare_batch (R206). -/
def execPrepareBatch (ch : Nat) (n : Nat) (s : State) : Outcome State Fault Refusal :=
  onEp s ch fun _ _ E => (E.mapReg fun r => popBatch r n, .records (batchRecords E.reg n))

end Sys2Proof.Machine
end

