-- ==== Sys2Proof/Machine/ControlEncoder.lean ====
section
/-! DEFINITION. The Control Encoder (spec/41_control_encoder.md): the two CNTRL layouts, the choice
between them, the flip. Its one register is `preferred` (R154). -/

namespace Sys2Proof.Machine

open Host (Outcome)

/-- encode_A's value (R150): each operand masked to its field. -/
def encodeA (color line attr col : Nat) : BitVec 16 :=
  subA (BitVec.ofNat 3 color) (BitVec.ofNat 5 line) (BitVec.ofNat 3 attr) (BitVec.ofNat 5 col)

/-- encode_B's value (R151), 15 bits: each operand masked to its field. -/
def encodeB (color count function line : Nat) : BitVec 16 :=
  subB (BitVec.ofNat 3 color) (BitVec.ofNat 4 count) (BitVec.ofNat 3 function) (BitVec.ofNat 5 line)

/-- CNTRL_B_COUNT (R10, R151): k mod 16 unless the configuration says otherwise for this k (log 11). -/
def cntrlBCount (c : Config) (k : Nat) : Nat :=
  match c.cntrlBCount[k]? with
  | some n => n.toNat
  | none => k % 16

/-- The sub-word of a record's CNTRL word (R152). -/
def cntrlSub (c : Config) (tag : Tag) (rec : TextRecord) (col : OneBased) (k : Nat) : BitVec 16 :=
  match tag with
  | .A => encodeA rec.color.toNat rec.line rec.attr.toNat (oneBased col)
  | .B => encodeB rec.color.toNat (cntrlBCount c k) rec.attr.toNat rec.line

/-- The first tag to try (R155): the preferred one, else the initial order's first (log 10). -/
def firstTry (c : Config) (r : Regs) : Tag := r.preferred.getD c.firstTag

/-- select_order's value (R155). -/
def selectOrder (c : Config) (r : Regs) : List Tag := [firstTry c r, other (firstTry c r)]

/-- The flip (R156): `preferred` becomes the alternate of the last tag tried. -/
def flipPreferred (r : Regs) : Regs := { r with preferred := some (other (triedTag r)) }

/-- The lock-in by the state machine's ACK (R250, R260): `preferred` becomes the last tag tried. -/
def lockIn (r : Regs) : Regs := { r with preferred := some (triedTag r) }

/-- encode_A (R150). -/
def execEncodeA (color line attr col : Nat) (s : State) : Outcome State Fault Refusal :=
  answerWith s (.sub (encodeA color line attr col))

/-- encode_B (R151). -/
def execEncodeB (color count function line : Nat) (s : State) : Outcome State Fault Refusal :=
  answerWith s (.sub (encodeB color count function line))

/-- cntrlSub (R152). -/
def execCntrlSub (tag : Tag) (rec : TextRecord) (col : OneBased) (k : Nat) (s : State) : Outcome State Fault Refusal :=
  answerWith s (.sub (cntrlSub s.cfg tag rec col k))

/-- select_order (R155). -/
def execSelectOrder (ch : Nat) (s : State) : Outcome State Fault Refusal :=
  askEp s ch fun c _ E => .tags (selectOrder c E.reg)

end Sys2Proof.Machine
end

