-- ==== Sys2Proof/Machine/RecordSender.lean ====
section
/-! DEFINITION. The Record Sender (spec/42_record_sender.md). -/

namespace Sys2Proof.Machine

open Host (Outcome)

/-- The DATA words of a text, three characters each, the last padded with 0 (R173, R176). -/
def dataWords (c : Config) (label : Nat) (text : List Char7) (k : Nat) : List Word :=
  (List.range k).map fun j =>
    dataWord c.labelMask label (charAt text (3 * j)) (charAt text (3 * j + 1)) (charAt text (3 * j + 2))

/-- One record's words in order: STX, CNTRL, DATA, trailer (R173 to R177). -/
def frameWords (c : Config) (p : EpConfig) (label : Nat) (rec : TextRecord) (idx : OneBased) (isLast : Bool) (tag : Tag) :
    List Word :=
  [ctlWord c.labelMask label codeSTX
      (stxArg (BitVec.ofNat 5 (oneBased idx)) (BitVec.ofNat 5 (dataCount c p rec + 3))),
   cntrlWord c.labelMask label (cntrlSub c tag rec (padCol p rec) (dataCount c p rec))] ++
  dataWords c label (padText c p rec) (dataCount c p rec) ++
  [ctlWord c.labelMask label (if isLast then codeEOT else codeETX) 0#10]

/-- emitFrame (R173): the words are sent and `lastTag` is written (R182). -/
def emitFrame (c : Config) (p : EpConfig) (rec : TextRecord) (idx : OneBased) (isLast : Bool) (tag : Tag) (E : Ep) : Ep :=
  (E.sendAll (frameWords c p (outLabel p E.reg) rec idx isLast tag)).mapReg fun r => { r with lastTag := some tag }

/-- The lock-in of a same-tick ACK (R183). -/
def lockTag (tag : Tag) (E : Ep) : Ep :=
  E.mapReg fun r => { r with preferred := some tag }

/-- The second attempt of R180: the other layout, same record, index and trailer (R184). -/
def secondAttempt (c : Config) (p : EpConfig) (rec : TextRecord) (idx : OneBased) (isLast : Bool) (tag : Tag) (E : Ep) :
    Ep × SendResult :=
  let sent := emitFrame c p rec idx isLast tag E
  match verdict c p sent.peeked with
  | .negative => (sent.peek, .rejected)
  | .positive => (lockTag tag sent.peek, .acked)
  | .silent => (sent.peek, .provisional)

/-- send_record after its boundary check: the adaptive dispatch (R180). -/
def sendRecord (c : Config) (p : EpConfig) (rec : TextRecord) (idx : OneBased) (isLast : Bool) (E : Ep) :
    Ep × SendResult :=
  let first := firstTry c E.reg
  let sent := emitFrame c p rec idx isLast first E
  if c.sameTickInspect then
    match verdict c p sent.peeked with
    | .negative => secondAttempt c p rec idx isLast (other first) sent.peek
    | .positive => (lockTag first sent.peek, .acked)
    | .silent => (sent.peek, .provisional)
  else (sent, .provisional)

/-- The index of a record as send_record receives it; none where it is not positive (R170). -/
def recordIndex (idx : Int) : Option OneBased :=
  if 1 ≤ idx then some { before := idx.toNat - 1 } else none

/-- send_record (R170, R180). The index is checked at the boundary before anything is sent. DESIGN
CHOICE (log 26): with a channel out of range as well, the index is the reason given. -/
def execSendRecord (ch : Nat) (rec : TextRecord) (idx : Int) (isLast : Bool) (s : State) : Outcome State Fault Refusal :=
  match recordIndex idx with
  | none => refuse .nonPositiveRecordIndex
  | some i => onEp s ch fun c p E =>
      ((sendRecord c p rec i isLast E).1, .result (sendRecord c p rec i isLast E).2)

/-- emitFrame (R173). -/
def execEmitFrame (ch : Nat) (rec : TextRecord) (idx : OneBased) (isLast : Bool) (tag : Tag) (s : State) :
    Outcome State Fault Refusal :=
  doEp s ch fun c p E => emitFrame c p rec idx isLast tag E

/-- Peek (R181). -/
def execPeek (ch : Nat) (s : State) : Outcome State Fault Refusal :=
  onEp s ch fun _ _ E => (E.peek, .words E.peeked)

end Sys2Proof.Machine
end

