-- ==== Sys2Proof/Machine/Transport.lean ====
section
/-! DEFINITION. The transport state machine, Idle, RTS and SendData (spec/44_transport_fsm.md sections 2
to 5). Each operation is an endpoint's; its row's meaning, the exec… definition, checks the channel. -/

namespace Sys2Proof.Machine

open Host (Outcome)

/-- keypress (R225). -/
def keypress (c : Config) (p : EpConfig) (w : Word) (E : Ep) : Ep :=
  ((E.send (ctlWord c.labelMask (outLabel p E.reg) codeACK 0#10)).hostKey (dc1Key w)).mapReg
    fun r => { r with spDirty := true }

/-- Every DC1 of A in order (R220 step 3). -/
def keypresses (c : Config) (p : EpConfig) (A : List Rx) (E : Ep) : Ep :=
  (A.filter fun r => decide (r.kind = .dc1)).foldl (fun E r => keypress c p r.word E) E

/-- enterRTS (R232). -/
def enterRTS (E : Ep) : Ep :=
  E.mapReg fun r => { r with state := .rts, rtsSent := false, reqCount := 0 }

/-- acceptEnq (R231). -/
def acceptEnq (w : Word) (E : Ep) : Ep :=
  enterRTS (E.mapReg fun r => { r with
    lock := (match r.lock with
             | some l => some l
             | none => some (enqTarget w))
    mode := enqMode w })

/-- enterScratchpad (R255). -/
def enterScratchpad (c : Config) (E : Ep) : Ep :=
  E.mapReg fun r => { r with
    state       := .scratchpad
    spBuf       := scratchpadText c r
    spPos       := 0
    spSent      := false
    repeatCount := 0
    deadline    := none
    spDirty     := false }

/-- The Idle-to-Scratchpad transition (R233). -/
def idleToScratchpad (c : Config) (E : Ep) : Ep :=
  if E.reg.spDirty then enterScratchpad c E else E

/-- The Idle handler (R230): the first ENQ, else a pending scratchpad. -/
def idleHandler (c : Config) (A : List Rx) (E : Ep) : Ep :=
  match firstOf .enq A with
  | some r => acceptEnq r.word E
  | none => idleToScratchpad c E

/-- The count an RTS requests (R240). -/
def rtsCount (c : Config) (r : Regs) : Nat :=
  match r.mode with
  | .menu => 1
  | .data => plannedCount r c.recordCap

/-- The RTS handler's first part (R240, R241): one RTS word per entry, none while there is nothing
to send. -/
def rtsTransmit (c : Config) (p : EpConfig) (E : Ep) : Ep :=
  if E.reg.rtsSent then E
  else if rtsCount c E.reg = 0 then E
  else (E.send (ctlWord c.labelMask (outLabel p E.reg) codeRTS
          (rtsArg E.reg.mode (BitVec.ofNat 6 (rtsCount c E.reg))))).mapReg
        fun r => { r with reqCount := rtsCount c E.reg, rtsSent := true }

/-- The records numbered from 1 (R37, R242). -/
def numbered (rs : List TextRecord) : List (OneBased × TextRecord) :=
  rs.mapIdx fun j rec => ({ before := j }, rec)

/-- The effect of the first CTS (R242, R243): the clamp, the batch, SendData; Idle where it is empty. -/
def acceptCts (w : Word) (E : Ep) : Ep :=
  let n := min E.reg.reqCount (ctsMax w)
  if batchRecords E.reg n = [] then E.mapReg fun r => { popBatch r n with state := .idle }
  else E.mapReg fun r => { popBatch r n with
    batch       := numbered (batchRecords r n)
    state       := .sendData
    sdSent      := false
    repeatCount := 0
    deadline    := none }

/-- The RTS handler's second part (R242). -/
def ctsHandler (A : List Rx) (E : Ep) : Ep :=
  if E.reg.rtsSent then
    match firstOf .cts A with
    | some r => acceptCts r.word E
    | none => E
  else E

/-- The RTS handler: a CTS in the tick that sends the RTS is not acted on (R240, R242). -/
def rtsHandler (c : Config) (p : EpConfig) (A : List Rx) (E : Ep) : Ep :=
  if E.reg.rtsSent then ctsHandler A E else rtsTransmit c p E

/-- The records of a batch sent in order, the last one flagged (R249). -/
def transmitRecords (c : Config) (p : EpConfig) : List (OneBased × TextRecord) → Ep → Ep
  | [], E => E
  | [(idx, rec)], E => (sendRecord c p rec idx true E).1
  | (idx, rec) :: next :: rest, E =>
      transmitRecords c p (next :: rest) (sendRecord c p rec idx false E).1

/-- transmitBatch (R249). -/
def transmitBatch (c : Config) (p : EpConfig) (E : Ep) : Ep :=
  transmitRecords c p E.reg.batch E

/-- Arm the response deadline (R39, R247, R251, R256). -/
def armDeadline (c : Config) (now : Time) (E : Ep) : Ep :=
  E.mapReg fun r => { r with deadline := some (now + c.ackTimeoutMs) }

/-- The SendData handler's first part (R247). -/
def senddataTransmit (c : Config) (p : EpConfig) (now : Time) (E : Ep) : Ep :=
  if E.reg.sdSent then E
  else armDeadline c now ((transmitBatch c p E).mapReg fun r => { r with sdSent := true, repeatCount := 0 })

/-- ackData (R250). -/
def ackData (E : Ep) : Ep :=
  let E' := E.mapReg fun r => { lockIn r with batch := [], deadline := none }
  if E.reg.mode = .data ∧ 0 < pendingCount E.reg then enterRTS E'
  else E'.mapReg fun r => { r with state := .idle }

/-- exhaust (R252). -/
def exhaust (E : Ep) : Ep :=
  E.mapReg fun r => { r with lock := none, batch := [], deadline := none, state := .idle }

/-- retry (R251): the flip, then the same batch again, while the budget lasts. -/
def retry (c : Config) (p : EpConfig) (now : Time) (E : Ep) : Ep :=
  if E.reg.repeatCount < c.maxRetries then
    armDeadline c now (transmitBatch c p
      (E.mapReg fun r => { flipPreferred r with repeatCount := r.repeatCount + 1 }))
  else exhaust E

/-- The SendData handler's second part (R248): SYN or NACK, then ACK, then the deadline. -/
def senddataResponses (c : Config) (p : EpConfig) (now : Time) (A : List Rx) (E : Ep) : Ep :=
  if E.reg.sdSent then
    if negIn A then retry c p now E
    else if posIn A then ackData E
    else if expired E.reg now then retry c p now E
    else E
  else E

/-- The SendData handler (R247, R248): what arrives in the tick that transmits is not acted on. -/
def senddataHandler (c : Config) (p : EpConfig) (now : Time) (A : List Rx) (E : Ep) : Ep :=
  if E.reg.sdSent then senddataResponses c p now A E else senddataTransmit c p now E

/-- keypress (R225). The rule defines it for an accepted DC1; DESIGN CHOICE (log 13): called directly it
carries out the rule's text on any word, whose kind, parity and label are not looked at. -/
def execKeypress (ch : Nat) (w : Word) (s : State) : Outcome State Fault Refusal :=
  doEp s ch fun c p E => keypress c p w E

/-- idle_handler on a drained batch (R230, R221). -/
def execIdleHandler (ch : Nat) (batch : List Word) (s : State) : Outcome State Fault Refusal :=
  doEp s ch fun c p E => idleHandler c (acceptedOf c p batch) E

/-- acceptEnq (R231). The rule defines it for an accepted ENQ; DESIGN CHOICE (log 13): called directly it
carries out the rule's text on any word, whose kind, parity and label are not looked at. -/
def execAcceptEnq (ch : Nat) (w : Word) (s : State) : Outcome State Fault Refusal :=
  doEp s ch fun _ _ E => acceptEnq w E

/-- enterRTS (R232). -/
def execEnterRTS (ch : Nat) (s : State) : Outcome State Fault Refusal :=
  doEp s ch fun _ _ E => enterRTS E

/-- idle_to_scratchpad (R233). -/
def execIdleToScratchpad (ch : Nat) (s : State) : Outcome State Fault Refusal :=
  doEp s ch fun c _ E => idleToScratchpad c E

/-- rts_handler (R240). -/
def execRtsHandler (ch : Nat) (s : State) : Outcome State Fault Refusal :=
  doEp s ch fun c p E => rtsTransmit c p E

/-- cts_handler on a drained batch (R242). -/
def execCtsHandler (ch : Nat) (batch : List Word) (s : State) : Outcome State Fault Refusal :=
  doEp s ch fun c p E => ctsHandler (acceptedOf c p batch) E

/-- senddata_transmit (R247), with any `now` (DESIGN CHOICE, log 27). -/
def execSenddataTransmit (ch : Nat) (now : Time) (s : State) : Outcome State Fault Refusal :=
  doEp s ch fun c p E => senddataTransmit c p now E

/-- senddata_responses to a drained batch (R248), with any `now` (DESIGN CHOICE, log 27). -/
def execSenddataResponses (ch : Nat) (now : Time) (batch : List Word) (s : State) : Outcome State Fault Refusal :=
  doEp s ch fun c p E => senddataResponses c p now (acceptedOf c p batch) E

/-- transmitBatch (R249). -/
def execTransmitBatch (ch : Nat) (s : State) : Outcome State Fault Refusal :=
  doEp s ch fun c p E => transmitBatch c p E

/-- ackData (R250). -/
def execAckData (ch : Nat) (s : State) : Outcome State Fault Refusal :=
  doEp s ch fun _ _ E => ackData E

/-- retry (R251), with any `now` (DESIGN CHOICE, log 27). -/
def execRetry (ch : Nat) (now : Time) (s : State) : Outcome State Fault Refusal :=
  doEp s ch fun c p E => retry c p now E

/-- exhaust (R252). -/
def execExhaust (ch : Nat) (s : State) : Outcome State Fault Refusal :=
  doEp s ch fun _ _ E => exhaust E

/-- timeout (R253): whether the deadline has expired; what follows is R248's and R257's (log 17).
With any `now` (DESIGN CHOICE, log 27). -/
def execTimeout (ch : Nat) (now : Time) (s : State) : Outcome State Fault Refusal :=
  askEp s ch fun _ _ E => .bit (expired E.reg now)

end Sys2Proof.Machine
end

