-- ==== Sys2Proof/Machine/Scratchpad.lean ====
section
/-! DEFINITION. The transport state machine's Scratchpad state (spec/44_transport_fsm.md section 6). -/

namespace Sys2Proof.Machine

open Host (Outcome)

/-- sendChar (R256): one character as a record with index 1, last of its batch. -/
def sendChar (c : Config) (p : EpConfig) (now : Time) (E : Ep) : Ep :=
  armDeadline c now
    ((sendRecord c p (scratchpadRecord c E.reg) { before := 0 } true E).1.mapReg fun r => { r with spSent := true })

/-- restartScratchpad (R258). -/
def restartScratchpad (c : Config) (E : Ep) : Ep :=
  E.mapReg fun r => { r with
    spBuf       := scratchpadText c r
    spPos       := 0
    spSent      := false
    repeatCount := 0
    deadline    := none
    spDirty     := false }

/-- finishScratchpad (R259). -/
def finishScratchpad (E : Ep) : Ep :=
  E.mapReg fun r => { r with state := .idle, deadline := none }

/-- Send the character at `spPos`, or finish where the buffer is complete (R257, R260). -/
def sendOrFinish (c : Config) (p : EpConfig) (now : Time) (E : Ep) : Ep :=
  if E.reg.spBuf.length ≤ E.reg.spPos then finishScratchpad E else sendChar c p now E

/-- spAck (R260): the next character in the same tick. -/
def spAck (c : Config) (p : EpConfig) (now : Time) (E : Ep) : Ep :=
  sendOrFinish c p now
    (E.mapReg fun r => { lockIn r with spPos := r.spPos + 1, spSent := false, repeatCount := 0 })

/-- spExhaust (R262): the lock is released too. -/
def spExhaust (E : Ep) : Ep :=
  E.mapReg fun r => { r with lock := none, spSent := false, deadline := none, state := .idle }

/-- spRetry (R261): the flip, then the same character again, while the budget lasts. -/
def spRetry (c : Config) (p : EpConfig) (now : Time) (E : Ep) : Ep :=
  if E.reg.repeatCount < c.maxRetries then
    sendChar c p now (E.mapReg fun r => { flipPreferred r with repeatCount := r.repeatCount + 1 })
  else spExhaust E

/-- The Scratchpad handler after a possible restart (R257). -/
def scratchpadRun (c : Config) (p : EpConfig) (now : Time) (A : List Rx) (E : Ep) : Ep :=
  if E.reg.spSent then
    if negIn A then spRetry c p now E
    else if posIn A then spAck c p now E
    else if expired E.reg now then spRetry c p now E
    else E
  else sendOrFinish c p now E

/-- The Scratchpad handler (R257): a DC1 restarts the sequence first (R258). -/
def scratchpadHandler (c : Config) (p : EpConfig) (now : Time) (A : List Rx) (E : Ep) : Ep :=
  scratchpadRun c p now A (if dc1In A then restartScratchpad c E else E)

/-- enterScratchpad (R255). -/
def execEnterScratchpad (ch : Nat) (s : State) : Outcome State Fault Refusal :=
  doEp s ch fun c _ E => enterScratchpad c E

/-- sendChar (R256), with any `now` (DESIGN CHOICE, log 27). -/
def execSendChar (ch : Nat) (now : Time) (s : State) : Outcome State Fault Refusal :=
  doEp s ch fun c p E => sendChar c p now E

/-- scratchpad_handler on a drained batch (R257), with any `now` (DESIGN CHOICE, log 27). -/
def execScratchpadHandler (ch : Nat) (now : Time) (batch : List Word) (s : State) : Outcome State Fault Refusal :=
  doEp s ch fun c p E => scratchpadHandler c p now (acceptedOf c p batch) E

/-- restartScratchpad (R258). -/
def execRestartScratchpad (ch : Nat) (s : State) : Outcome State Fault Refusal :=
  doEp s ch fun c _ E => restartScratchpad c E

/-- finishScratchpad (R259). -/
def execFinishScratchpad (ch : Nat) (s : State) : Outcome State Fault Refusal :=
  doEp s ch fun _ _ E => finishScratchpad E

/-- spAck (R260), with any `now` (DESIGN CHOICE, log 27). -/
def execSpAck (ch : Nat) (now : Time) (s : State) : Outcome State Fault Refusal :=
  doEp s ch fun c p E => spAck c p now E

/-- spRetry (R261), with any `now` (DESIGN CHOICE, log 27). -/
def execSpRetry (ch : Nat) (now : Time) (s : State) : Outcome State Fault Refusal :=
  doEp s ch fun c p E => spRetry c p now E

/-- spExhaust (R262). -/
def execSpExhaust (ch : Nat) (s : State) : Outcome State Fault Refusal :=
  doEp s ch fun _ _ E => spExhaust E

end Sys2Proof.Machine
end

