-- ==== Sys2Proof/Machine/Manager.lean ====
section
/-! DEFINITION. The endpoint tick, the engine tick, the heartbeat (spec/45_heartbeat_manager.md, R220)
and reset (R320). -/

namespace Sys2Proof.Machine

open Host (Outcome)

/-- The heartbeat word of an endpoint (R276, R112). -/
def hbWord (c : Config) (p : EpConfig) : Word :=
  ctlWord c.labelMask c.hbLabel codeHB (hbArg (BitVec.ofNat 8 p.ownAddr))

/-- heartbeat (R275): not in SendData, and only when due. -/
def heartbeat (c : Config) (p : EpConfig) (now : Time) (E : Ep) : Ep :=
  if E.reg.state ≠ .sendData ∧ heartbeatDue c E.reg now = true then
    (E.send (hbWord c p)).mapReg fun r => { r with lastHb := some now }
  else E

/-- The handler of the state at the start of the tick (R220 step 5, R222). -/
def runHandler (c : Config) (p : EpConfig) (now : Time) (A : List Rx) (E : Ep) : Ep :=
  match E.reg.state with
  | .idle => idleHandler c A E
  | .rts => rtsHandler c p A E
  | .sendData => senddataHandler c p now A E
  | .scratchpad => scratchpadHandler c p now A E

/-- tickEndpoint (R220): drain, classify, keypresses, one handler, heartbeat. -/
def tickEndpoint (c : Config) (p : EpConfig) (now : Time) (E : Ep) : Ep :=
  let A := acceptedOf c p E.drained
  heartbeat c p now (runHandler c p now A (keypresses c p A E.drain))

/-- The manager loop (R271): every endpoint once, ascending. -/
def tickAll (now : Time) (s : State) : State :=
  (List.range s.cfg.endpoints.length).foldl (fun t e => t.updateEp e fun c p E => tickEndpoint c p now E) s

/-- The tick's time is not before the previous tick's (R270). -/
def timeOk (s : State) (now : Time) : Bool :=
  match s.lastNow with
  | none => true
  | some t => decide (t ≤ now)

/-- The channels after reset: the driver's queues are not touched; an endpoint that had no channel
gets an empty one (R321, log 14). -/
def channelsFor (n : Nat) (ks : List Channel) : List Channel :=
  ks ++ List.replicate (n - ks.length) Channel.empty

/-- The state after reset with a configuration (R320). -/
def resetState (cfg : Config) (s : State) : State :=
  { s with
    cfg     := cfg
    eps     := cfg.endpoints.map fun _ => Regs.reset
    chans   := channelsFor cfg.endpoints.length s.chans
    lastNow := none
    ret     := .nothing }

/-- tickEndpoint (R220). DESIGN CHOICE (log 27): called directly it runs with any `now`, one before the
last tick's too, and its time is not kept in lastNow; R270's refusal is engineTick's. -/
def execTickEndpoint (ch : Nat) (now : Time) (s : State) : Outcome State Fault Refusal :=
  doEp s ch fun c p E => tickEndpoint c p now E

/-- heartbeat (R275), with any `now` (DESIGN CHOICE, log 27). -/
def execHeartbeat (ch : Nat) (now : Time) (s : State) : Outcome State Fault Refusal :=
  doEp s ch fun c p E => heartbeat c p now E

/-- engineTick (R270, R271, R272). The time of a tick is kept whether the bus is ready or not (log 9). -/
def execEngineTick (now : Time) (ready : Bool) (s : State) : Outcome State Fault Refusal :=
  if timeOk s now then
    .next ({ (if ready then tickAll now s else s) with lastNow := some now, ret := .nothing })
  else refuse .timeWentBack

/-- reset (R320). -/
def execReset (cfg : Config) (s : State) : Outcome State Fault Refusal :=
  if configOk cfg then .next (resetState cfg s) else refuse .badConfig

end Sys2Proof.Machine
end

