-- ==== Sys2Proof/Machine/Words.lean ====
section
/-! DEFINITION. The meanings of the fifteen word rows. An inbound word arrives: it joins the FIFO of
its channel (R51) with every bit it has, and the next ready tick drains and classifies it (R220, R100).
An outbound word is sent: `Send(e, w)` of the word that the builder of R139 makes (R104 to R112, R116). -/

namespace Sys2Proof.Machine

open Host (Outcome)

/-- ENQ arrives (R101). -/
def execEnq (ch : Nat) (stamp : Time) (h : RxBits) (x : BitVec 1) (mode : Mode) (tgt : Label) (s : State) :
    Outcome State Fault Refusal :=
  deliver s ch { word := rxWord h codeENQ (x ++ modeBit mode ++ tgt), stamp := stamp }

/-- DC1 arrives (R102). -/
def execDc1 (ch : Nat) (stamp : Time) (h : RxBits) (x : BitVec 3) (key : Char7) (s : State) :
    Outcome State Fault Refusal :=
  deliver s ch { word := rxWord h codeDC1 (x ++ key), stamp := stamp }

/-- CTS arrives (R103). -/
def execCts (ch : Nat) (stamp : Time) (h : RxBits) (x : BitVec 4) (max : BitVec 6) (s : State) :
    Outcome State Fault Refusal :=
  deliver s ch { word := rxWord h codeCTS (x ++ max), stamp := stamp }

/-- ACK arrives (R108, R223). -/
def execAckIn (ch : Nat) (stamp : Time) (h : RxBits) (x : BitVec 10) (s : State) : Outcome State Fault Refusal :=
  deliver s ch { word := rxWord h codeACK x, stamp := stamp }

/-- NACK arrives (R108, R223). -/
def execNack (ch : Nat) (stamp : Time) (h : RxBits) (x : BitVec 10) (s : State) : Outcome State Fault Refusal :=
  deliver s ch { word := rxWord h codeNACK x, stamp := stamp }

/-- SYN arrives (R108, R223). -/
def execSyn (ch : Nat) (stamp : Time) (h : RxBits) (x : BitVec 10) (s : State) : Outcome State Fault Refusal :=
  deliver s ch { word := rxWord h codeSYN x, stamp := stamp }

/-- RTS is sent (R105). -/
def execRts (ch : Nat) (label : Label) (count : BitVec 6) (mode : Mode) (s : State) : Outcome State Fault Refusal :=
  sendWord s ch fun mask => ctlWord mask label.toNat codeRTS (rtsArg mode count)

/-- STX is sent (R106). -/
def execStx (ch : Nat) (label : Label) (idx wc : BitVec 5) (s : State) : Outcome State Fault Refusal :=
  sendWord s ch fun mask => ctlWord mask label.toNat codeSTX (stxArg idx wc)

/-- ETX is sent (R107). -/
def execEtx (ch : Nat) (label : Label) (s : State) : Outcome State Fault Refusal :=
  sendWord s ch fun mask => ctlWord mask label.toNat codeETX 0#10

/-- EOT is sent (R107). -/
def execEot (ch : Nat) (label : Label) (s : State) : Outcome State Fault Refusal :=
  sendWord s ch fun mask => ctlWord mask label.toNat codeEOT 0#10

/-- ACK is sent (R108). -/
def execAckOut (ch : Nat) (label : Label) (s : State) : Outcome State Fault Refusal :=
  sendWord s ch fun mask => ctlWord mask label.toNat codeACK 0#10

/-- A heartbeat word is sent (R112). -/
def execHb (ch : Nat) (label : Label) (addr : Label) (s : State) : Outcome State Fault Refusal :=
  sendWord s ch fun mask => ctlWord mask label.toNat codeHB (hbArg addr)

/-- A CNTRL word in layout A is sent (R109, R110). -/
def execCntrlA (ch : Nat) (label : Label) (color : BitVec 3) (line : BitVec 5) (attr : BitVec 3) (col : BitVec 5)
    (s : State) : Outcome State Fault Refusal :=
  sendWord s ch fun mask => cntrlWord mask label.toNat (subA color line attr col)

/-- A CNTRL word in layout B is sent (R109, R111). -/
def execCntrlB (ch : Nat) (label : Label) (color : BitVec 3) (count : BitVec 4) (function : BitVec 3)
    (line : BitVec 5) (s : State) : Outcome State Fault Refusal :=
  sendWord s ch fun mask => cntrlWord mask label.toNat (subB color count function line)

/-- A DATA word is sent (R104). -/
def execData (ch : Nat) (label : Label) (c0 c1 c2 : Char7) (s : State) : Outcome State Fault Refusal :=
  sendWord s ch fun mask => dataWord mask label.toNat c0 c1 c2

end Sys2Proof.Machine
end

