-- ==== Sys2Proof/Machine/Dispatch.lean ====
section
/-! DEFINITION. exec: one arm per instruction, each one direct call of its meaning. -/

namespace Sys2Proof.Machine

open Host (Outcome)

def exec (i : Instr) (s : State) : Host.Outcome State Fault Refusal :=
  match i with
  | .enq ch stamp h x mode tgt => Sys2Proof.Machine.execEnq ch stamp h x mode tgt s
  | .dc1 ch stamp h x key => Sys2Proof.Machine.execDc1 ch stamp h x key s
  | .cts ch stamp h x max => Sys2Proof.Machine.execCts ch stamp h x max s
  | .ackIn ch stamp h x => Sys2Proof.Machine.execAckIn ch stamp h x s
  | .nack ch stamp h x => Sys2Proof.Machine.execNack ch stamp h x s
  | .syn ch stamp h x => Sys2Proof.Machine.execSyn ch stamp h x s
  | .rts ch label count mode => Sys2Proof.Machine.execRts ch label count mode s
  | .stx ch label idx wc => Sys2Proof.Machine.execStx ch label idx wc s
  | .etx ch label => Sys2Proof.Machine.execEtx ch label s
  | .eot ch label => Sys2Proof.Machine.execEot ch label s
  | .ackOut ch label => Sys2Proof.Machine.execAckOut ch label s
  | .hb ch label addr => Sys2Proof.Machine.execHb ch label addr s
  | .cntrlA ch label color line attr col => Sys2Proof.Machine.execCntrlA ch label color line attr col s
  | .cntrlB ch label color count function line => Sys2Proof.Machine.execCntrlB ch label color count function line s
  | .data ch label c0 c1 c2 => Sys2Proof.Machine.execData ch label c0 c1 c2 s
  | .reverseBits x => Sys2Proof.Machine.execReverseBits x s
  | .parity v => Sys2Proof.Machine.execParity v s
  | .pack label sdi data => Sys2Proof.Machine.execPack label sdi data s
  | .unpack w => Sys2Proof.Machine.execUnpack w s
  | .parityCheck w => Sys2Proof.Machine.execParityCheck w s
  | .encodeA color line attr col => Sys2Proof.Machine.execEncodeA color line attr col s
  | .encodeB color count function line => Sys2Proof.Machine.execEncodeB color count function line s
  | .cntrlSub tag record col k => Sys2Proof.Machine.execCntrlSub tag record col k s
  | .selectOrder ch => Sys2Proof.Machine.execSelectOrder ch s
  | .sendRecord ch record idx isLast => Sys2Proof.Machine.execSendRecord ch record idx isLast s
  | .emitFrame ch record idx isLast tag => Sys2Proof.Machine.execEmitFrame ch record idx isLast tag s
  | .peek ch => Sys2Proof.Machine.execPeek ch s
  | .ingest ch frame => Sys2Proof.Machine.execIngest ch frame s
  | .hostSupply ch frame => Sys2Proof.Machine.execHostSupply ch frame s
  | .differs a b => Sys2Proof.Machine.execDiffers a b s
  | .pendingCount ch => Sys2Proof.Machine.execPendingCount ch s
  | .getPlannedRecordCount ch cap => Sys2Proof.Machine.execGetPlannedRecordCount ch cap s
  | .prepareBatch ch n => Sys2Proof.Machine.execPrepareBatch ch n s
  | .tickEndpoint ch now => Sys2Proof.Machine.execTickEndpoint ch now s
  | .keypress ch w => Sys2Proof.Machine.execKeypress ch w s
  | .idleHandler ch batch => Sys2Proof.Machine.execIdleHandler ch batch s
  | .acceptEnq ch w => Sys2Proof.Machine.execAcceptEnq ch w s
  | .enterRTS ch => Sys2Proof.Machine.execEnterRTS ch s
  | .idleToScratchpad ch => Sys2Proof.Machine.execIdleToScratchpad ch s
  | .rtsHandler ch => Sys2Proof.Machine.execRtsHandler ch s
  | .ctsHandler ch batch => Sys2Proof.Machine.execCtsHandler ch batch s
  | .senddataTransmit ch now => Sys2Proof.Machine.execSenddataTransmit ch now s
  | .senddataResponses ch now batch => Sys2Proof.Machine.execSenddataResponses ch now batch s
  | .transmitBatch ch => Sys2Proof.Machine.execTransmitBatch ch s
  | .ackData ch => Sys2Proof.Machine.execAckData ch s
  | .retry ch now => Sys2Proof.Machine.execRetry ch now s
  | .exhaust ch => Sys2Proof.Machine.execExhaust ch s
  | .timeout ch now => Sys2Proof.Machine.execTimeout ch now s
  | .enterScratchpad ch => Sys2Proof.Machine.execEnterScratchpad ch s
  | .sendChar ch now => Sys2Proof.Machine.execSendChar ch now s
  | .scratchpadHandler ch now batch => Sys2Proof.Machine.execScratchpadHandler ch now batch s
  | .restartScratchpad ch => Sys2Proof.Machine.execRestartScratchpad ch s
  | .finishScratchpad ch => Sys2Proof.Machine.execFinishScratchpad ch s
  | .spAck ch now => Sys2Proof.Machine.execSpAck ch now s
  | .spRetry ch now => Sys2Proof.Machine.execSpRetry ch now s
  | .spExhaust ch => Sys2Proof.Machine.execSpExhaust ch s
  | .engineTick now ready => Sys2Proof.Machine.execEngineTick now ready s
  | .heartbeat ch now => Sys2Proof.Machine.execHeartbeat ch now s
  | .reset cfg => Sys2Proof.Machine.execReset cfg s

end Sys2Proof.Machine
end

