-- ==== Sys2Proof/Machine/Step.lean ====
section
/-! DEFINITION. The step: the machine takes its first boundary event and carries it out. The engine has
no instruction fetch and does nothing between events (R30, R85, R279), so the list of events stands
where a processor has its instruction memory (log 1). -/

namespace Sys2Proof.Machine

open Host (Outcome)

/-- Carry out a boundary event. A word is decoded; an inbound word that is no instruction still
arrives, to be drained and ignored (R115, R118, R294). DESIGN CHOICE (log 26): an outbound word the
engine never builds is refused for that, whatever its channel. -/
def runInput (x : Input) (s : State) : Outcome State Fault Refusal :=
  match x with
  | .call i => exec i s
  | .arrivals ch batches =>
      doEp s ch fun _ _ E => { E with chan := { E.chan with arriving := E.chan.arriving ++ batches } }
  | .word ctx w =>
      match decode ctx w with
      | .ok i => exec i s
      | .error why =>
          match ctx with
          | .inbound ch stamp => deliver s ch { word := w, stamp := stamp }
          | .outbound _ _ => refuse (.notEngineWord why)

/-- One step. With no event waiting nothing happens (R279). -/
def step (s : State) : Outcome State Fault Refusal :=
  match s.inputs with
  | [] => .next s
  | x :: rest => runInput x { s with inputs := rest }

/-- The state whose next event is the word `w` on channel 0, read as a word that stands alone. -/
def State.withFetchWord (s : State) (_nbits w : Nat) : State :=
  { s with inputs := .word (loneCtx (BitVec.ofNat 32 w)) (BitVec.ofNat 32 w) :: s.inputs }

end Sys2Proof.Machine
end

