-- ==== Sys2Proof/Safety.lean ====
section
/-! DEFINITION. What counts as a legal state of the engine, in the terms the statements use: the
invariant of spec/10_state.md's register table and of the rules that write those registers, and which
boundary events an agent outside the engine can cause (R9, R311). -/

namespace Sys2Proof.Machine

open Host (Outcome)

/-- The channel a row's operation works on, where it works on one. -/
def channelOf : Instr → Option Nat
  | .enq ch _ _ _ _ _ | .dc1 ch _ _ _ _ | .cts ch _ _ _ _ => some ch
  | .ackIn ch _ _ _ | .nack ch _ _ _ | .syn ch _ _ _ => some ch
  | .rts ch _ _ _ | .stx ch _ _ _ | .etx ch _ | .eot ch _ | .ackOut ch _ | .hb ch _ _ => some ch
  | .cntrlA ch _ _ _ _ _ | .cntrlB ch _ _ _ _ _ | .data ch _ _ _ _ => some ch
  | .reverseBits _ | .parity _ | .pack _ _ _ | .unpack _ | .parityCheck _ => none
  | .encodeA _ _ _ _ | .encodeB _ _ _ _ | .cntrlSub _ _ _ _ => none
  | .selectOrder ch | .sendRecord ch _ _ _ | .emitFrame ch _ _ _ _ | .peek ch => some ch
  | .ingest ch _ | .hostSupply ch _ => some ch
  | .differs _ _ => none
  | .pendingCount ch | .getPlannedRecordCount ch _ | .prepareBatch ch _ => some ch
  | .tickEndpoint ch _ | .keypress ch _ | .idleHandler ch _ | .acceptEnq ch _ | .enterRTS ch => some ch
  | .idleToScratchpad ch | .rtsHandler ch | .ctsHandler ch _ | .senddataTransmit ch _ => some ch
  | .senddataResponses ch _ _ | .transmitBatch ch | .ackData ch | .retry ch _ | .exhaust ch => some ch
  | .timeout ch _ | .enterScratchpad ch | .sendChar ch _ | .scratchpadHandler ch _ _ => some ch
  | .restartScratchpad ch | .finishScratchpad ch | .spAck ch _ | .spRetry ch _ | .spExhaust ch => some ch
  | .engineTick _ _ => none
  | .heartbeat ch _ => some ch
  | .reset _ => none

/-- The rows an agent outside the engine can cause (R9, R201, R270, R311): words on the bus, the
combinational operations, questions, a Frame from the host, a tick, a reset. The others are run by the
engine inside a tick only ("invoked only by the state machine"). -/
def external : Instr → Bool
  | .enq _ _ _ _ _ _ | .dc1 _ _ _ _ _ | .cts _ _ _ _ _ => true
  | .ackIn _ _ _ _ | .nack _ _ _ _ | .syn _ _ _ _ => true
  | .rts _ _ _ _ | .stx _ _ _ _ | .etx _ _ | .eot _ _ | .ackOut _ _ | .hb _ _ _ => true
  | .cntrlA _ _ _ _ _ _ | .cntrlB _ _ _ _ _ _ | .data _ _ _ _ _ => true
  | .reverseBits _ | .parity _ | .pack _ _ _ | .unpack _ | .parityCheck _ => true
  | .encodeA _ _ _ _ | .encodeB _ _ _ _ | .cntrlSub _ _ _ _ | .selectOrder _ => true
  | .sendRecord _ _ _ _ | .emitFrame _ _ _ _ _ | .peek _ => false
  | .ingest _ _ | .hostSupply _ _ => true
  | .differs _ _ | .pendingCount _ | .getPlannedRecordCount _ _ => true
  | .prepareBatch _ _ => false
  | .tickEndpoint _ _ | .keypress _ _ | .idleHandler _ _ | .acceptEnq _ _ | .enterRTS _ => false
  | .idleToScratchpad _ | .rtsHandler _ | .ctsHandler _ _ | .senddataTransmit _ _ => false
  | .senddataResponses _ _ _ | .transmitBatch _ | .ackData _ | .retry _ _ | .exhaust _ => false
  | .timeout _ _ => true
  | .enterScratchpad _ | .sendChar _ _ | .scratchpadHandler _ _ _ => false
  | .restartScratchpad _ | .finishScratchpad _ | .spAck _ _ | .spRetry _ _ | .spExhaust _ => false
  | .engineTick _ _ => true
  | .heartbeat _ _ => false
  | .reset _ => true

/-- A boundary event that an agent outside the engine can cause. -/
def externalInput : Input → Bool
  | .word _ _ => true
  | .call i => external i
  | .arrivals _ _ => true

/-- A recorded time is not after the last tick. -/
def notAfter (t : Option Time) (last : Option Time) : Prop :=
  ∀ x, t = some x → ∃ n, last = some n ∧ x ≤ n

/-- The legal registers of an endpoint, under configuration `c` and after a tick at `last`. -/
structure RegsInv (c : Config) (last : Option Time) (r : Regs) : Prop where
  /-- No index is pending twice (R42, R72). -/
  queue_nodup : r.queue.Nodup
  /-- Every pending index is a line of the Frame (R72). -/
  queue_range : ∀ i ∈ r.queue, 1 ≤ i ∧ i ≤ c.frameLines
  /-- Nothing is pending before the first ingest (R202). -/
  queue_frame : r.prevFrame = none → r.queue = []
  /-- The stored Frame is within R200's bounds. -/
  frame_ok : ∀ F, r.prevFrame = some F → F.length = c.frameLines ∧ ∀ l ∈ F, lineOk c.lineChars l = true
  /-- The retry budget (R38). -/
  repeat_le : r.repeatCount ≤ c.maxRetries
  /-- The snapshot is a line's text (R53), where the scratchpad line is a line of the Frame. -/
  spBuf_le : 1 ≤ c.scratchpadLine → c.scratchpadLine ≤ c.frameLines → r.spBuf.length ≤ c.lineChars
  /-- R47 -/
  spPos_le : r.spPos ≤ r.spBuf.length
  /-- The records are numbered from 1 in order (R37, R242). -/
  batch_numbered : r.batch.map Prod.fst = (List.range r.batch.length).map OneBased.mk
  /-- A batch is no longer than the planned count can be (R37, R240). -/
  batch_le : r.batch.length ≤ max 1 c.recordCap
  /-- R36, R240 -/
  reqCount_le : r.reqCount ≤ max 1 c.recordCap
  /-- Only SendData holds a batch (R250, R252). -/
  batch_held : r.state ≠ .sendData → r.batch = []
  /-- SendData has something to send (R242, R243). -/
  batch_some : r.state = .sendData → r.batch ≠ []
  /-- Idle and RTS have no deadline (R39, R244). -/
  deadline_off : r.state = .idle ∨ r.state = .rts → r.deadline = none
  /-- SendData has a deadline exactly after its transmission (R247). -/
  deadline_send : r.state = .sendData → (r.deadline ≠ none ↔ r.sdSent = true)
  /-- Scratchpad has a deadline exactly while a character awaits its ACK (R256). -/
  deadline_char : r.state = .scratchpad → (r.deadline ≠ none ↔ r.spSent = true)
  /-- A character that awaits its ACK is one of the buffer (R257). -/
  char_sent : r.state = .scratchpad → r.spSent = true → r.spPos < r.spBuf.length
  /-- The last heartbeat was sent by some tick up to the last one (R48). -/
  lastHb_past : notAfter r.lastHb last
  /-- A deadline was armed by some tick up to the last one (R39). -/
  deadline_armed : ∀ d, r.deadline = some d → ∃ n, last = some n ∧ d ≤ n + c.ackTimeoutMs

/-- Every word sent has odd parity and SSM 0 (R92, R93, R134). -/
def sentOk (k : Channel) : Prop :=
  ∀ w ∈ k.outbound, popcount w % 2 = 1 ∧ wSsm w = 0#2

/-- The legal states. -/
structure Inv (s : State) : Prop where
  /-- The configuration is one reset accepts (R303, R320). -/
  cfg_ok : configOk s.cfg = true
  /-- One endpoint per configured endpoint (R32). -/
  eps_len : s.eps.length = s.cfg.endpoints.length
  /-- Each endpoint has its channel (R74). -/
  chans_len : s.cfg.endpoints.length ≤ s.chans.length
  /-- Every endpoint's registers are legal. -/
  regs : ∀ r ∈ s.eps, RegsInv s.cfg s.lastNow r
  /-- Every word on an outbound channel is one that `pack` can make. -/
  sent : ∀ k ∈ s.chans, sentOk k
  /-- The events still to happen are ones an outside agent can cause. -/
  events : ∀ x ∈ s.inputs, externalInput x = true

/-- Instructions carried out one after another, stopping at the first refusal. -/
def execAll : List Instr → State → Outcome State Fault Refusal
  | [], s => .next s
  | i :: rest, s =>
      match exec i s with
      | .next t => execAll rest t
      | .fault f => .fault f
      | .refused r => .refused r

end Sys2Proof.Machine
end

