-- ==== Sys2Proof/Certificates/Slice0/Obligations.lean ====
section
/-! DEFINITION. The statements for the provers. Each docstring names the rule of spec/ it formalises.
"s.ep? ch = some (p, E)" says that channel ch is one of the engine's endpoints, with parameters p,
registers E.reg and channel E.chan. The statements about a timed row but engineTick hold for every
`now`, as the rows' rules are written; that such a row runs even with a `now` before the last tick's is
the model's choice (log 27). -/

open Sys2Proof Sys2Proof.Machine
open Host (Outcome)

/-! ### Encoding -/

/-- Words of spec/95_test_vectors.md section 2.1 and of R187, one of every word row, decode to the
instructions they are written for (R101 to R112). -/
def Obligations.DecodeReadsTheWordsOfTheSpec : Prop :=
  decode (.inbound 0 7) 0x00A84020#32 = .ok (.enq 0 7 ⟨false, 0, false, 0, 0o004⟩ 0 .data 0o010) ∧
  decode (.inbound 0 7) 0x02220820#32 = .ok (.dc1 0 7 ⟨false, 0, false, 0, 0o004⟩ 0 0x41) ∧
  decode (.inbound 0 7) 0x82601820#32 = .ok (.cts 0 7 ⟨true, 0, false, 0, 0o004⟩ 0 3) ∧
  decode (.inbound 0 7) 0x00C00020#32 = .ok (.ackIn 0 7 ⟨false, 0, false, 0, 0o004⟩ 0) ∧
  decode (.inbound 0 7) 0x82A00020#32 = .ok (.nack 0 7 ⟨true, 0, false, 0, 0o004⟩ 0) ∧
  decode (.inbound 0 7) 0x82C00020#32 = .ok (.syn 0 7 ⟨true, 0, false, 0, 0o004⟩ 0) ∧
  decode (.outbound 0 .control) 0x82481810#32 = .ok (.rts 0 0o010 3 .data) ∧
  decode (.outbound 0 .control) 0x00412810#32 = .ok (.stx 0 0o010 1 5) ∧
  decode (.outbound 0 .control) 0x00600010#32 = .ok (.etx 0 0o010) ∧
  decode (.outbound 0 .control) 0x80800010#32 = .ok (.eot 0 0o010) ∧
  decode (.outbound 0 .control) 0x00C00010#32 = .ok (.ackOut 0 0o010) ∧
  decode (.outbound 0 .control) 0x800020FE#32 = .ok (.hb 0 0o177 0o004) ∧
  decode (.outbound 0 (.cntrl .A)) 0x02192810#32 = .ok (.cntrlA 0 0o010 2 3 1 5) ∧
  decode (.outbound 0 (.cntrl .B)) 0x81111810#32 = .ok (.cntrlB 0 0o010 2 2 1 3) ∧
  decode (.outbound 0 .data) 0x90E14110#32 = .ok (.data 0 0o010 0x41 0x42 0x43)

/-- For every instruction that is a word, with every operand at every value its field holds: the word
the encoder writes, read where that word stands, is the instruction (R90 to R112). -/
def Obligations.DecodeOfEncodedInstructionIsTheInstruction : Prop :=
  ∀ (i : Instr) (ctx : WordCtx) (w : Word), ctxOf i = some ctx → encode i = some w → decode ctx w = .ok i

/-- The other direction: a word that decodes, of odd parity where it is outbound (R134), is the word
its instruction encodes to, so no bit of it is lost. -/
def Obligations.EncodeOfDecodedWordIsTheWord : Prop :=
  ∀ (ctx : WordCtx) (w : Word) (i : Instr), decode ctx w = .ok i →
    (∀ ch pos, ctx = .outbound ch pos → popcount w % 2 = 1) →
    encode i = some w ∧ ctxOf i = some ctx

/-- The inbound classification (R100), with the codes of R97, and the decoder total on every word (R118).
That the label is the mirror of bits 7..0 is presumed (G1, log 22). -/
def Obligations.EveryInboundWordIsClassified : Prop :=
  (∀ (c : Config) (p : EpConfig) (w : Word),
    classify c p w =
      if (c.dropBadParity = false ∨ popcount w % 2 = 1) ∧ (reverse8 (w.extractLsb' 0 8)).toNat = p.ownAddr then
        (if w.extractLsb' 21 8 = 0x05#8 then some ⟨.enq, w⟩
         else if w.extractLsb' 21 8 = 0x11#8 then some ⟨.dc1, w⟩
         else if w.extractLsb' 21 8 = 0x13#8 then some ⟨.cts, w⟩
         else if w.extractLsb' 21 8 = 0x06#8 then some ⟨.ack, w⟩
         else if w.extractLsb' 21 8 = 0x15#8 then some ⟨.nack, w⟩
         else if w.extractLsb' 21 8 = 0x16#8 then some ⟨.syn, w⟩
         else none)
      else none) ∧
  (∀ (ch : Nat) (stamp : Time) (w : Word),
    (∃ i, decode (.inbound ch stamp) w = .ok i) ∨ decode (.inbound ch stamp) w = .error .irrelevant)

/-! ### The step -/

/-- Where the next event is a word that decodes, the step is exec of what it decodes to, with the
event taken off the list; and the word `withFetchWord` places is what the next step runs. The list of
events is the model's own (log 1). -/
def Obligations.StepRunsTheDecodedWord : Prop :=
  (∀ (s : State) (ctx : WordCtx) (w : Word) (rest : List Input) (i : Instr),
    s.inputs = .word ctx w :: rest → decode ctx w = .ok i →
    step s = exec i { s with inputs := rest }) ∧
  (∀ (s : State) (nbits w : Nat) (i : Instr),
    decodeTableWord nbits w = some i → step (s.withFetchWord nbits w) = exec i s)

/-- The step on every other event (log 1, log 6, log 26): no event, nothing happens (R279); a call is exec; an
inbound word that is no instruction joins the queue all the same (R115, R118); arrivals for coming
Peeks are kept; both are refused on a channel that is not one of the configuration's (R301, log 16);
an outbound word the engine never builds is refused by name, on a channel out of range too (log 26). -/
def Obligations.StepCarriesOutEveryOtherEvent : Prop :=
  (∀ s : State, s.inputs = [] → step s = .next s) ∧
  (∀ (s : State) (i : Instr) (rest : List Input), s.inputs = .call i :: rest →
    step s = exec i { s with inputs := rest }) ∧
  (∀ (s : State) (ch : Nat) (stamp : Time) (w : Word) (rest : List Input) (p : EpConfig) (E : Ep) (why : DecodeError),
    s.inputs = .word (.inbound ch stamp) w :: rest → decode (.inbound ch stamp) w = .error why →
    s.ep? ch = some (p, E) →
    step s = .next ((({ s with inputs := rest } : State).setEp ch
      { E with chan := { E.chan with inbound := E.chan.inbound ++ [⟨w, stamp⟩] } }).answer .nothing)) ∧
  (∀ (s : State) (ch : Nat) (bs : List (List Arrival)) (rest : List Input) (p : EpConfig) (E : Ep),
    s.inputs = .arrivals ch bs :: rest → s.ep? ch = some (p, E) →
    step s = .next ((({ s with inputs := rest } : State).setEp ch
      { E with chan := { E.chan with arriving := E.chan.arriving ++ bs } }).answer .nothing)) ∧
  (∀ (s : State) (ch : Nat) (stamp : Time) (w : Word) (rest : List Input) (why : DecodeError),
    s.inputs = .word (.inbound ch stamp) w :: rest → decode (.inbound ch stamp) w = .error why →
    s.cfg.endpoints.length ≤ ch → step s = .refused .badChannel) ∧
  (∀ (s : State) (ch : Nat) (bs : List (List Arrival)) (rest : List Input),
    s.inputs = .arrivals ch bs :: rest → s.cfg.endpoints.length ≤ ch → step s = .refused .badChannel) ∧
  (∀ (s : State) (ch : Nat) (pos : OutPos) (w : Word) (rest : List Input) (why : DecodeError),
    s.inputs = .word (.outbound ch pos) w :: rest → decode (.outbound ch pos) w = .error why →
    step s = .refused (.notEngineWord why))

/-! ### Reset and the invariant -/

/-- Reset (R320, R303): a configuration outside R303 is refused; otherwise every endpoint's nineteen
registers have their reset values and the configuration is the one given. That the channels that exist
are as before in every part is the model's choice (log 14; of the inbound queues R321 says so), and so
is that no time of a tick is kept (log 9). -/
def Obligations.ResetSetsEveryRegister : Prop :=
  ∀ (cfg : Config) (s : State),
    let ok := 500 ≤ cfg.hbPeriodMs ∧ cfg.hbPeriodMs ≤ 900 ∧ cfg.endpoints ≠ [] ∧ cfg.hbLabel ≤ 0xFF ∧
      ∀ p ∈ cfg.endpoints, p.ownAddr ≤ 0xFF ∧ p.defaultPeer ≤ 0xFF
    (ok → ∃ t, exec (.reset cfg) s = .next t ∧ t.cfg = cfg ∧ t.inputs = s.inputs ∧ t.lastNow = none ∧
      (∀ (n : Nat) (k : Channel), s.chans[n]? = some k → t.chans[n]? = some k) ∧
      t.eps.length = cfg.endpoints.length ∧
      ∀ r ∈ t.eps, r.state = .idle ∧ r.lock = none ∧ r.mode = .menu ∧ r.reqCount = 0 ∧ r.rtsSent = false ∧
        r.batch = [] ∧ r.sdSent = false ∧ r.repeatCount = 0 ∧ r.deadline = none ∧ r.preferred = none ∧
        r.lastTag = none ∧ r.spDirty = false ∧ r.spBuf = [] ∧ r.spPos = 0 ∧ r.spSent = false ∧
        r.prevFrame = none ∧ r.queue = [] ∧ r.everDrained = false ∧ r.lastHb = none) ∧
    (¬ ok → exec (.reset cfg) s = .refused .badConfig)

/-- The state after reset is legal. It rests on the model's reference configuration (log 2). -/
def Obligations.ResetStateIsLegal : Prop :=
  Inv State.reset

/-- Every step from a legal state leads to a legal state (R33, R37 to R39, R42, R72, R92, R134, R200). -/
def Obligations.EveryStepKeepsTheStateLegal : Prop :=
  ∀ s t : State, Inv s → step s = .next t → Inv t

/-- An operation of one endpoint leaves every other endpoint and its channel, the configuration, the
last tick's time and the waiting events as they were (R32, R83): the frame of every row that names a
channel. -/
def Obligations.OperationsLeaveOtherEndpointsAlone : Prop :=
  ∀ (i : Instr) (ch : Nat) (s t : State), channelOf i = some ch → exec i s = .next t →
    t.cfg = s.cfg ∧ t.lastNow = s.lastNow ∧ t.inputs = s.inputs ∧
    t.eps.length = s.eps.length ∧ t.chans.length = s.chans.length ∧
    ∀ e, e ≠ ch → t.eps[e]? = s.eps[e]? ∧ t.chans[e]? = s.chans[e]? ∧ t.ep? e = s.ep? e

/-- A channel index outside 0..NUM_ENDPOINTS-1 is refused by every row that names a channel (R301);
send_record checks its index first (R170), which is the model's choice (log 26). -/
def Obligations.ChannelOutOfRangeIsRefused : Prop :=
  ∀ (i : Instr) (ch : Nat) (s : State), channelOf i = some ch → s.cfg.endpoints.length ≤ ch →
    exec i s = .refused .badChannel ∨
    ∃ rec idx isLast, i = .sendRecord ch rec idx isLast ∧ idx ≤ 0 ∧ exec i s = .refused .nonPositiveRecordIndex

/-! ### Words -/

/-- ENQ, DC1, CTS, ACK, NACK and SYN arrive (R51, R82, R115): the whole word, with its timestamp, joins
the tail of its channel's inbound queue, and nothing else changes. -/
def Obligations.InboundWordJoinsTheQueue : Prop :=
  ∀ (i : Instr) (ch : Nat) (stamp : Time) (w : Word) (s : State) (p : EpConfig) (E : Ep),
    ctxOf i = some (.inbound ch stamp) → encode i = some w → s.ep? ch = some (p, E) →
    exec i s = .next ((s.setEp ch { E with chan := { E.chan with
      inbound := E.chan.inbound ++ [⟨w, stamp⟩] } }).answer .nothing)

/-- RTS, STX, ETX, EOT, ACK, HB, CNTRL in both layouts and DATA are sent (R104 to R112, R116): one word
is appended to the outbound channel, with the fields of the instruction, SSM 0, odd parity, and the
label masked by LABEL_MASK (R92, R93, R133), and nothing else changes. That the row is the Send of the
word is the model's choice (log 5); the label is the mirror of bits 7..0 (G1, log 22). -/
def Obligations.OutboundWordIsSent : Prop :=
  ∀ (i : Instr) (ch : Nat) (pos : OutPos) (w : Word) (s : State) (p : EpConfig) (E : Ep),
    ctxOf i = some (.outbound ch pos) → encode i = some w → s.ep? ch = some (p, E) →
    ∃ v : Word, exec i s = .next ((s.setEp ch { E with chan := { E.chan with
        outbound := E.chan.outbound ++ [v] } }).answer .nothing) ∧
      popcount v % 2 = 1 ∧ v.extractLsb' 29 2 = 0#2 ∧ v.extractLsb' 8 21 = w.extractLsb' 8 21 ∧
      wLabel v = wLabel w &&& s.cfg.labelMask

/-! ### Codec -/

/-- reverse_bits (R130) mirrors the byte, and twice is the identity (R131). -/
def Obligations.ReverseBitsMirrorsTheByte : Prop :=
  ∀ (s : State) (x : BitVec 8), ∃ r : BitVec 8,
    exec (.reverseBits x) s = .next { s with ret := .byte r } ∧
    (∀ i < 8, r.getLsbD i = x.getLsbD (7 - i)) ∧
    exec (.reverseBits r) s = .next { s with ret := .byte x }

/-- Every word pack returns has an odd number of set bits (R134), and holds its operands, masked, in
the fields of R90. That the label's bits are mirrored is presumed (G1, log 22). -/
def Obligations.PackedWordHasOddParity : Prop :=
  ∀ (s : State) (label sdi data : Nat), ∃ w : Word,
    exec (.pack label sdi data) s = .next { s with ret := .word w } ∧
    popcount w % 2 = 1 ∧ w.extractLsb' 29 2 = 0#2 ∧
    w.extractLsb' 10 19 = BitVec.ofNat 19 data ∧ w.extractLsb' 8 2 = BitVec.ofNat 2 sdi ∧
    ∀ i < 8, w.getLsbD i = (BitVec.ofNat 8 label &&& s.cfg.labelMask).getLsbD (7 - i)

/-- The round trip of pack and unpack (R137), under LABEL_MASK = 0x7F. -/
def Obligations.UnpackOfPackReturnsTheOperands : Prop :=
  ∀ (s : State) (label sdi data : Nat), s.cfg.labelMask = 0x7F#8 → sdi ≤ 3 → data ≤ 0x7FFFF →
    ∃ (w : Word) (u : Unpacked),
      exec (.pack label sdi data) s = .next { s with ret := .word w } ∧
      exec (.unpack w) s = .next { s with ret := .fields u } ∧
      u.label.toNat = label &&& 0x7F ∧ (label ≤ 0x7F → u.label.toNat = label) ∧
      u.sdi.toNat = sdi ∧ u.data.toNat = data ∧ u.ssm = 0#2 ∧ u.parityOk = true

/-- unpack (R135), parity (R132) and parity_check (R136) read the word's bits and write nothing. That
the label is the mirror of bits 7..0 is presumed (G1, log 22). -/
def Obligations.UnpackAndParityReadTheBits : Prop :=
  (∀ (s : State) (w : Word), ∃ u : Unpacked,
    exec (.unpack w) s = .next { s with ret := .fields u } ∧
    u.parity = w.getLsbD 31 ∧ u.ssm = w.extractLsb' 29 2 ∧ u.data = w.extractLsb' 10 19 ∧
    u.sdi = w.extractLsb' 8 2 ∧ (∀ i < 8, u.label.getLsbD i = w.getLsbD (7 - i)) ∧
    (u.parityOk = true ↔ popcount w % 2 = 1)) ∧
  (∀ (s : State) (w : Word), ∃ b : Bool,
    exec (.parityCheck w) s = .next { s with ret := .bit b } ∧ (b = true ↔ popcount w % 2 = 1)) ∧
  (∀ (s : State) (v : BitVec 31), ∃ b : Bool,
    exec (.parity v) s = .next { s with ret := .bit b } ∧
    b.toNat = 1 - popcount v % 2 ∧ popcount (BitVec.ofBool b ++ v) % 2 = 1)

/-! ### Control encoder -/

/-- encode_A (R150): the shift expression of the source, each operand masked to its field. -/
def Obligations.EncodeAPacksItsFields : Prop :=
  ∀ (s : State) (color line attr col : Nat), ∃ v : BitVec 16,
    exec (.encodeA color line attr col) s = .next { s with ret := .sub v } ∧
    v.toNat = ((color &&& 7) <<< 13) ||| ((line &&& 31) <<< 8) ||| ((attr &&& 7) <<< 5) ||| (col &&& 31)

/-- encode_B (R151): the shift expression of the source, each operand masked to its field; bit 15 is 0. -/
def Obligations.EncodeBPacksItsFields : Prop :=
  ∀ (s : State) (color count function line : Nat), ∃ v : BitVec 16,
    exec (.encodeB color count function line) s = .next { s with ret := .sub v } ∧
    v.toNat = ((color &&& 7) <<< 12) ||| ((count &&& 15) <<< 8) ||| ((function &&& 7) <<< 5) ||| (line &&& 31) ∧
    v.getLsbD 15 = false

/-- cntrlSub (R152): layout A of colour, line, attribute and the given column; layout B of colour, the
data-word count (the entry for k of the table CNTRL_B_COUNT, k mod 16 past its end, log 11; the
reference table is empty), attribute and line. -/
def Obligations.CntrlSubFollowsTheTag : Prop :=
  ∀ (s : State) (rec : TextRecord) (col : OneBased) (k : Nat),
    (∃ t, exec (.cntrlSub .A rec col k) s = .next t ∧
      exec (.encodeA rec.color.toNat rec.line rec.attr.toNat (col.before + 1)) s = .next t) ∧
    (s.cfg.cntrlBCount.length ≤ k → ∃ t, exec (.cntrlSub .B rec col k) s = .next t ∧
      exec (.encodeB rec.color.toNat (k % 16) rec.attr.toNat rec.line) s = .next t) ∧
    (∀ n, s.cfg.cntrlBCount[k]? = some n → ∃ t, exec (.cntrlSub .B rec col k) s = .next t ∧
      exec (.encodeB rec.color.toNat n.toNat rec.attr.toNat rec.line) s = .next t)

/-- select_order (R155): the preferred layout first; with none preferred the initial order. That it is
a parameter, [A, B] in the reference and [B, A] where it begins with B, is the model's (log 10). -/
def Obligations.SelectOrderPutsThePreferredFirst : Prop :=
  ∀ (s : State) (ch : Nat) (p : EpConfig) (E : Ep), s.ep? ch = some (p, E) →
    exec (.selectOrder ch) s = .next (s.answer (.tags
      (match E.reg.preferred, s.cfg.firstTag with
       | none, .A => [.A, .B]
       | none, .B => [.B, .A]
       | some .A, _ => [.A, .B]
       | some .B, _ => [.B, .A])))

/-! ### Record sender -/

/-- emitFrame (R173 to R177): STX with index and k + 3, CNTRL, k DATA words of three characters each
padded with 0, then EOT or ETX, in this order on the channel; `lastTag` is the tag; nothing else
changes. Padding, truncation and k are R171's and R172's. -/
def Obligations.EmitFrameSendsTheRecord : Prop :=
  ∀ (s : State) (ch : Nat) (p : EpConfig) (E : Ep) (rec : TextRecord) (idx : OneBased) (isLast : Bool) (tag : Tag),
    s.ep? ch = some (p, E) →
    let text := ((if p.padColumns then List.replicate rec.col.before 0x20#7 else []) ++ rec.text).take s.cfg.textMax
    let col : OneBased := if p.padColumns then ⟨0⟩ else rec.col
    let L := match E.reg.lock with
      | some l => l.toNat
      | none => p.defaultPeer
    ∃ (k : Nat) (ds : List Word), text.length ≤ 3 * k ∧ 3 * k < text.length + 3 ∧ ds.length = k ∧
      (∀ j < k, ds[j]? = some (dataWord s.cfg.labelMask L
        (text.getD (3 * j) 0) (text.getD (3 * j + 1) 0) (text.getD (3 * j + 2) 0))) ∧
      exec (.emitFrame ch rec idx isLast tag) s = .next ((s.setEp ch
        { reg := { E.reg with lastTag := some tag },
          chan := { E.chan with outbound := E.chan.outbound ++
            ([ctlWord s.cfg.labelMask L (0x02#8) (BitVec.ofNat 5 (idx.before + 1) ++ BitVec.ofNat 5 (k + 3)),
              cntrlWord s.cfg.labelMask L (cntrlSub s.cfg tag rec col k)] ++ ds ++
             [ctlWord s.cfg.labelMask L (if isLast then (0x04#8) else (0x03#8)) 0#10]) } }).answer .nothing)

/-- A non-positive record index is refused before anything is sent (R170, R300). That this is the reason
given on a channel out of range too is the model's choice (log 26). -/
def Obligations.NonPositiveRecordIndexIsRefused : Prop :=
  ∀ (s : State) (ch : Nat) (rec : TextRecord) (idx : Int) (isLast : Bool), idx ≤ 0 →
    exec (.sendRecord ch rec idx isLast) s = .refused .nonPositiveRecordIndex

/-- send_record (R180, R182 to R185): the first layout's frame; where the same-tick inspection is on,
the words the first Peek sees decide: nothing, provisional; ACK without SYN or NACK, that layout is
locked in; SYN or NACK, the other layout's frame once, and the second Peek decides likewise, a second
negative giving Rejected. The peeked words stay queued (R181). Every other register is unchanged, the
retry count among them (R184). The list the Peeks read and what they leave of it are the model's choice
(log 6), and so is the parameter that names the first layout where none is preferred (log 10). -/
def Obligations.SendRecordTriesBothLayouts : Prop :=
  ∀ (s : State) (ch : Nat) (p : EpConfig) (E : Ep) (rec : TextRecord) (idx : Int) (isLast : Bool),
    s.ep? ch = some (p, E) → 1 ≤ idx →
    let t1 := match E.reg.preferred with
      | some t => t
      | none => s.cfg.firstTag
    let t2 := match t1 with
      | .A => Tag.B
      | .B => Tag.A
    let F := fun tag => frameWords s.cfg p (outLabel p E.reg) rec ⟨idx.toNat - 1⟩ isLast tag
    let P1 := E.chan.arriving.headD []
    let P2 := E.chan.arriving.tail.headD []
    let neg := fun P : List Arrival => negIn (acceptedOf s.cfg p (P.map Arrival.word)) = true
    let pos := fun P : List Arrival => posIn (acceptedOf s.cfg p (P.map Arrival.word)) = true
    let after := fun (pref : Option Tag) (last : Tag) (sent : List Word) (inb : List Arrival)
        (arr : List (List Arrival)) (r : SendResult) =>
      exec (.sendRecord ch rec idx isLast) s = .next ((s.setEp ch
        { reg := { E.reg with preferred := pref, lastTag := some last },
          chan := { E.chan with outbound := E.chan.outbound ++ sent, inbound := inb, arriving := arr } }).answer
        (.result r))
    let inb1 := E.chan.inbound ++ P1
    let arr1 := E.chan.arriving.tail
    (s.cfg.sameTickInspect = false →
      after E.reg.preferred t1 (F t1) E.chan.inbound E.chan.arriving .provisional) ∧
    (s.cfg.sameTickInspect = true → ¬ neg P1 → ¬ pos P1 →
      after E.reg.preferred t1 (F t1) inb1 arr1 .provisional) ∧
    (s.cfg.sameTickInspect = true → ¬ neg P1 → pos P1 →
      after (some t1) t1 (F t1) inb1 arr1 .acked) ∧
    (s.cfg.sameTickInspect = true → neg P1 → ¬ neg P2 → ¬ pos P2 →
      after E.reg.preferred t2 (F t1 ++ F t2) (inb1 ++ P2) arr1.tail .provisional) ∧
    (s.cfg.sameTickInspect = true → neg P1 → ¬ neg P2 → pos P2 →
      after (some t2) t2 (F t1 ++ F t2) (inb1 ++ P2) arr1.tail .acked) ∧
    (s.cfg.sameTickInspect = true → neg P1 → neg P2 →
      after E.reg.preferred t2 (F t1 ++ F t2) (inb1 ++ P2) arr1.tail .rejected)

/-- Peek (R181): the words that have arrived are returned and stay in the inbound queue for the next
Drain. That they are given by the list `arriving` is the model's form of the free input (log 6). -/
def Obligations.PeekReturnsTheArrivedWords : Prop :=
  ∀ (s : State) (ch : Nat) (p : EpConfig) (E : Ep), s.ep? ch = some (p, E) →
    exec (.peek ch) s = .next ((s.setEp ch { E with chan := { E.chan with
      inbound := E.chan.inbound ++ E.chan.arriving.headD [],
      arriving := E.chan.arriving.tail } }).answer (.words (E.chan.arriving.headD [])))

/-! ### Diff queue -/

/-- ingest and host_supply (R202, R201): the changed lines that are not pending already join the queue
in ascending order, the pending ones keep their places, and the Frame is stored whole; a Frame outside
the bounds (R200) is refused. The bounds are read from FRAME_LINES and LINE_CHARS, the column's bound
included (log 23). -/
def Obligations.IngestQueuesTheChangedLines : Prop :=
  ∀ (s : State) (ch : Nat) (p : EpConfig) (E : Ep) (frame : HostFrame) (i : Instr),
    s.ep? ch = some (p, E) → (i = .ingest ch frame ∨ i = .hostSupply ch frame) →
    let new := renderFrame frame
    let changed := fun n : Nat => match E.reg.prevFrame with
      | none => True
      | some F => (frameLine new n).text ≠ (frameLine F n).text ∨ (frameLine new n).color ≠ (frameLine F n).color ∨
          (frameLine new n).attr ≠ (frameLine F n).attr
    (hostFrameOk s.cfg.frameLines s.cfg.lineChars frame = false → exec i s = .refused .badFrame) ∧
    (hostFrameOk s.cfg.frameLines s.cfg.lineChars frame = true → ∃ more : List Nat,
      exec i s = .next ((s.setEp ch { E with reg := { E.reg with
        queue := E.reg.queue ++ more, prevFrame := some new } }).answer .nothing) ∧
      more.Pairwise (· < ·) ∧
      ∀ n, n ∈ more ↔ 1 ≤ n ∧ n ≤ s.cfg.frameLines ∧ changed n ∧ n ∉ E.reg.queue)

/-- A Frame outside R200's bounds is refused and so is a channel out of range (R301), by both rows. That
the channel is the reason given where both are at fault is the model's choice (log 26); the bounds are
read from FRAME_LINES and LINE_CHARS, the column's included (log 23). -/
def Obligations.BadFrameIsRefused : Prop :=
  ∀ (s : State) (ch : Nat) (frame : HostFrame) (i : Instr), (i = .ingest ch frame ∨ i = .hostSupply ch frame) →
    (s.ep? ch = none → exec i s = .refused .badChannel) ∧
    (∀ p E, s.ep? ch = some (p, E) →
      (frame.length ≠ s.cfg.frameLines ∨ ∃ l ∈ frame, s.cfg.lineChars < l.text.length ∨ (∃ x ∈ l.text, 0x7F < x) ∨
        7 < l.color ∨ l.col = 0 ∨ s.cfg.lineChars < l.col ∨ 7 < l.attr) →
      exec i s = .refused .badFrame)

/-- Diff idempotence (R207): the second of two ingests of one Frame queues nothing. -/
def Obligations.SecondIngestOfAFrameQueuesNothing : Prop :=
  ∀ (s : State) (ch : Nat) (p : EpConfig) (E : Ep) (frame : HostFrame),
    s.ep? ch = some (p, E) → hostFrameOk s.cfg.frameLines s.cfg.lineChars frame = true →
    ∃ t E1, exec (.ingest ch frame) s = .next t ∧ t.ep? ch = some (p, E1) ∧
      exec (.ingest ch frame) t = .next t

/-- Diff completeness (R208): the first-ever ingest queues exactly the 14 lines in ascending order. -/
def Obligations.FirstIngestQueuesEveryLine : Prop :=
  ∀ (s : State) (ch : Nat) (p : EpConfig) (E : Ep) (frame : HostFrame),
    s.ep? ch = some (p, E) → s.cfg.frameLines = 14 → hostFrameOk 14 s.cfg.lineChars frame = true →
    E.reg.prevFrame = none → E.reg.queue = [] →
    ∃ t E1, exec (.ingest ch frame) s = .next t ∧ t.ep? ch = some (p, E1) ∧
      E1.reg.queue = [1, 2, 3, 4, 5, 6, 7, 8, 9, 10, 11, 12, 13, 14]

/-- differs (R203), pending_count (R204) and get_planned_record_count (R205) answer and write nothing. -/
def Obligations.QueueQuestionsAnswer : Prop :=
  (∀ (s : State) (a b : LineRender), ∃ v : Bool,
    exec (.differs a b) s = .next { s with ret := .bit v } ∧
    (v = true ↔ a.text ≠ b.text ∨ a.color ≠ b.color ∨ a.attr ≠ b.attr)) ∧
  (∀ (s : State) (ch : Nat) (p : EpConfig) (E : Ep), s.ep? ch = some (p, E) →
    exec (.pendingCount ch) s = .next { s with ret := .count E.reg.queue.length } ∧
    ∀ cap : Nat, exec (.getPlannedRecordCount ch cap) s = .next (s.answer (.count
      (if E.reg.queue.length = 0 then 0
       else if E.reg.everDrained = false then min E.reg.queue.length cap
       else 1))))

/-- prepare_batch (R206): up to n lines are popped from the head, each made a record from the stored
Frame; `everDrained` is set where the pop empties the queue; with nothing popped nothing changes. -/
def Obligations.PrepareBatchPopsTheFirstLines : Prop :=
  ∀ (s : State) (ch : Nat) (p : EpConfig) (E : Ep) (n : Nat), s.ep? ch = some (p, E) →
    ∃ rs : List TextRecord,
      exec (.prepareBatch ch n) s = .next ((s.setEp ch { E with reg := { E.reg with
        queue := E.reg.queue.drop n,
        everDrained := if 0 < n ∧ E.reg.queue ≠ [] ∧ E.reg.queue.length ≤ n then true else E.reg.everDrained }
        }).answer (.records rs)) ∧
      rs.length = min n E.reg.queue.length ∧
      ∀ (j i : Nat) (F : Frame) (l : LineRender), j < n → E.reg.queue[j]? = some i →
        E.reg.prevFrame = some F → 1 ≤ i → F[i - 1]? = some l →
        rs[j]? = some { text := l.text, color := l.color, line := i, col := l.col, attr := l.attr }

/-! ### Transport: Idle -/

/-- keypress (R225): one ACK on the outbound label, the key code ARG[6:0] to the host, `spDirty`. That it
does so on a word that is no accepted DC1 too is the model's choice (log 13). -/
def Obligations.KeypressIsAcknowledged : Prop :=
  ∀ (s : State) (ch : Nat) (p : EpConfig) (E : Ep) (w : Word), s.ep? ch = some (p, E) →
    exec (.keypress ch w) s = .next ((s.setEp ch
      { reg := { E.reg with spDirty := true },
        chan := { E.chan with
          outbound := E.chan.outbound ++ [ctlWord s.cfg.labelMask (outLabel p E.reg) (0x06#8) 0#10],
          keys := E.chan.keys ++ [w.extractLsb' 11 7] } }).answer .nothing)

/-- acceptEnq (R231) and enterRTS (R232): the target is locked where none is held, the mode is the
ENQ's, and RTS is entered with nothing sent yet. That acceptEnq does so on a word that is no accepted
ENQ too is the model's choice (log 13). -/
def Obligations.AcceptedEnqLocksAndEntersRts : Prop :=
  ∀ (s : State) (ch : Nat) (p : EpConfig) (E : Ep) (w : Word), s.ep? ch = some (p, E) →
    exec (.enterRTS ch) s = .next ((s.setEp ch { E with reg := { E.reg with
      state := .rts, rtsSent := false, reqCount := 0 } }).answer .nothing) ∧
    exec (.acceptEnq ch w) s = .next ((s.setEp ch { E with reg := { E.reg with
      state := .rts, rtsSent := false, reqCount := 0,
      lock := (match E.reg.lock with
        | some l => some l
        | none => some (w.extractLsb' 11 8)),
      mode := if w.getLsbD 19 then .data else .menu } }).answer .nothing)

/-- idle_handler (R230): the first accepted ENQ is accepted and no other; without one, a dirty scratchpad
enters Scratchpad, and otherwise nothing happens. -/
def Obligations.IdleHandlerTakesTheFirstEnq : Prop :=
  ∀ (s : State) (ch : Nat) (p : EpConfig) (E : Ep) (batch : List Word), s.ep? ch = some (p, E) →
    let noEnq := fun ws : List Word => ∀ x ∈ ws, classify s.cfg p x ≠ some ⟨.enq, x⟩
    (∀ pre w post, batch = pre ++ w :: post → classify s.cfg p w = some ⟨.enq, w⟩ → noEnq pre →
      ∃ t, exec (.idleHandler ch batch) s = .next t ∧ exec (.acceptEnq ch w) s = .next t) ∧
    (noEnq batch → E.reg.spDirty = true →
      ∃ t, exec (.idleHandler ch batch) s = .next t ∧ exec (.enterScratchpad ch) s = .next t) ∧
    (noEnq batch → E.reg.spDirty = false → exec (.idleHandler ch batch) s = .next (s.answer .nothing))

/-- enterScratchpad (R255), restartScratchpad (R258) and idle_to_scratchpad (R233): a snapshot is taken
(R53: the scratchpad line's text without its trailing spaces, empty where no Frame is stored), and the
sequence starts at character 0 with nothing sent; only a dirty scratchpad leaves Idle. -/
def Obligations.ScratchpadSnapshotIsTaken : Prop :=
  ∀ (s : State) (ch : Nat) (p : EpConfig) (E : Ep), s.ep? ch = some (p, E) →
    ∃ buf : List Char7,
      (E.reg.prevFrame = none → buf = []) ∧
      (∀ F l, E.reg.prevFrame = some F → 1 ≤ s.cfg.scratchpadLine → F[s.cfg.scratchpadLine - 1]? = some l →
        (∃ n, l.text = buf ++ List.replicate n 0x20#7) ∧ buf.getLast? ≠ some 0x20#7) ∧
      exec (.enterScratchpad ch) s = .next ((s.setEp ch { E with reg := { E.reg with
        state := .scratchpad, spBuf := buf, spPos := 0, spSent := false, repeatCount := 0, deadline := none,
        spDirty := false } }).answer .nothing) ∧
      exec (.restartScratchpad ch) s = .next ((s.setEp ch { E with reg := { E.reg with
        spBuf := buf, spPos := 0, spSent := false, repeatCount := 0, deadline := none,
        spDirty := false } }).answer .nothing) ∧
      exec (.idleToScratchpad ch) s =
        (if E.reg.spDirty then .next ((s.setEp ch { E with reg := { E.reg with
            state := .scratchpad, spBuf := buf, spPos := 0, spSent := false, repeatCount := 0, deadline := none,
            spDirty := false } }).answer .nothing)
         else .next (s.answer .nothing))

/-! ### Transport: RTS -/

/-- rts_handler (R240, R241): one RTS word an entry, with the count (1 in Menu mode, the planned count
in Data mode) and the mode bit; none while the count is 0. -/
def Obligations.RtsRequestsThePlannedCount : Prop :=
  ∀ (s : State) (ch : Nat) (p : EpConfig) (E : Ep), s.ep? ch = some (p, E) →
    let count := match E.reg.mode with
      | .menu => 1
      | .data => if E.reg.queue.length = 0 then 0
                 else if E.reg.everDrained = false then min E.reg.queue.length s.cfg.recordCap
                 else 1
    let m : BitVec 1 := match E.reg.mode with
      | .menu => 0
      | .data => 1
    (E.reg.rtsSent = true ∨ count = 0 → exec (.rtsHandler ch) s = .next (s.answer .nothing)) ∧
    (E.reg.rtsSent = false → count ≠ 0 →
      exec (.rtsHandler ch) s = .next ((s.setEp ch
        { reg := { E.reg with reqCount := count, rtsSent := true },
          chan := { E.chan with outbound := E.chan.outbound ++
            [ctlWord s.cfg.labelMask (outLabel p E.reg) (0x12#8) (0#1 ++ m ++ 0#2 ++ BitVec.ofNat 6 count)] }
        }).answer .nothing))

/-- cts_handler (R242, R243): after an RTS was sent, the first accepted CTS clamps the count and
prepares the batch, numbered from 1, for SendData; an empty batch returns to Idle. Without an RTS sent
or without a CTS nothing changes. -/
def Obligations.CtsClampsAndPreparesTheBatch : Prop :=
  ∀ (s : State) (ch : Nat) (p : EpConfig) (E : Ep) (batch : List Word), s.ep? ch = some (p, E) →
    (E.reg.rtsSent = false ∨ (∀ x ∈ batch, classify s.cfg p x ≠ some ⟨.cts, x⟩) →
      exec (.ctsHandler ch batch) s = .next (s.answer .nothing)) ∧
    (∀ pre w post, E.reg.rtsSent = true → batch = pre ++ w :: post → classify s.cfg p w = some ⟨.cts, w⟩ →
      (∀ x ∈ pre, classify s.cfg p x ≠ some ⟨.cts, x⟩) →
      ∃ (u : State) (E1 : Ep) (recs : List TextRecord),
        exec (.prepareBatch ch (min E.reg.reqCount (w.extractLsb' 11 6).toNat)) s = .next u ∧
        u.ep? ch = some (p, E1) ∧ u.ret = .records recs ∧
        (recs = [] → exec (.ctsHandler ch batch) s =
          .next ((s.setEp ch { E1 with reg := { E1.reg with state := .idle } }).answer .nothing)) ∧
        (recs ≠ [] → exec (.ctsHandler ch batch) s =
          .next ((s.setEp ch { E1 with reg := { E1.reg with
            batch := recs.mapIdx (fun j r => (⟨j⟩, r)), state := .sendData, sdSent := false, repeatCount := 0,
            deadline := none } }).answer .nothing)))

/-! ### Transport: SendData -/

/-- transmitBatch (R249): the records of the batch go through send_record in batch order, each with its
index, the last one and only it flagged. -/
def Obligations.TransmitBatchSendsTheRecordsInOrder : Prop :=
  ∀ (s : State) (ch : Nat) (p : EpConfig) (E : Ep), s.ep? ch = some (p, E) →
    ∃ t : State,
      execAll (E.reg.batch.mapIdx fun j x =>
        .sendRecord ch x.2 (x.1.before + 1) (decide (j + 1 = E.reg.batch.length))) s = .next t ∧
      exec (.transmitBatch ch) s = .next (t.answer .nothing)

/-- senddata_transmit (R247): once per entry the batch is transmitted, the count of retries is 0, and
the deadline is armed ACK_TIMEOUT_MS after now. -/
def Obligations.SendDataTransmitsOnceAndArmsTheDeadline : Prop :=
  ∀ (s : State) (ch : Nat) (p : EpConfig) (E : Ep) (now : Time), s.ep? ch = some (p, E) →
    (E.reg.sdSent = true → exec (.senddataTransmit ch now) s = .next (s.answer .nothing)) ∧
    (E.reg.sdSent = false → ∃ (u : State) (E1 : Ep),
      exec (.transmitBatch ch) s = .next u ∧ u.ep? ch = some (p, E1) ∧
      exec (.senddataTransmit ch now) s = .next ((s.setEp ch { E1 with reg := { E1.reg with
        sdSent := true, repeatCount := 0, deadline := some (now + s.cfg.ackTimeoutMs) } }).answer .nothing))

/-- ackData (R250): the last tag sent is preferred (A where none was), the batch and the deadline are
cleared, and a Data session with lines pending goes on in RTS, any other to Idle. -/
def Obligations.AckDataContinuesOrEndsTheSession : Prop :=
  ∀ (s : State) (ch : Nat) (p : EpConfig) (E : Ep), s.ep? ch = some (p, E) →
    let tag := match E.reg.lastTag with
      | some t => t
      | none => Tag.A
    (E.reg.mode = .data → E.reg.queue ≠ [] →
      exec (.ackData ch) s = .next ((s.setEp ch { E with reg := { E.reg with
        preferred := some tag, batch := [], deadline := none,
        state := .rts, rtsSent := false, reqCount := 0 } }).answer .nothing)) ∧
    (E.reg.mode = .menu ∨ E.reg.queue = [] →
      exec (.ackData ch) s = .next ((s.setEp ch { E with reg := { E.reg with
        preferred := some tag, batch := [], deadline := none, state := .idle } }).answer .nothing))

/-- retry (R251, R156) and exhaust (R252): within the budget the count rises by one, the preferred
layout flips, the same batch is transmitted and the deadline armed; past it the lock is released, the
batch dropped, and the endpoint is Idle. -/
def Obligations.RetryFlipsAndResendsWithinTheBudget : Prop :=
  ∀ (s : State) (ch : Nat) (p : EpConfig) (E : Ep) (now : Time), s.ep? ch = some (p, E) →
    let alternate := match E.reg.lastTag with
      | some .B => Tag.A
      | some .A => Tag.B
      | none => Tag.B
    (E.reg.repeatCount < s.cfg.maxRetries → ∃ (u : State) (E1 : Ep),
      exec (.transmitBatch ch) (s.setEp ch { E with reg := { E.reg with
        preferred := some alternate, repeatCount := E.reg.repeatCount + 1 } }) = .next u ∧
      u.ep? ch = some (p, E1) ∧
      exec (.retry ch now) s = .next ((s.setEp ch { E1 with reg := { E1.reg with
        deadline := some (now + s.cfg.ackTimeoutMs) } }).answer .nothing)) ∧
    (s.cfg.maxRetries ≤ E.reg.repeatCount → exec (.retry ch now) s = exec (.exhaust ch) s) ∧
    exec (.exhaust ch) s = .next ((s.setEp ch { E with reg := { E.reg with
      lock := none, batch := [], deadline := none, state := .idle } }).answer .nothing)

/-- timeout (R253): the deadline has expired iff it is set and now has reached it; the answer is all
that is written (log 17). -/
def Obligations.TimeoutIsTheDeadlineReached : Prop :=
  ∀ (s : State) (ch : Nat) (p : EpConfig) (E : Ep) (now : Time), s.ep? ch = some (p, E) →
    ∃ b : Bool, exec (.timeout ch now) s = .next { s with ret := .bit b } ∧
      (b = true ↔ ∃ d, E.reg.deadline = some d ∧ d ≤ now)

/-- senddata_responses (R248, R223): after the transmission, SYN or NACK before ACK before the
deadline; otherwise nothing. -/
def Obligations.SendDataResponsesInPriorityOrder : Prop :=
  ∀ (s : State) (ch : Nat) (p : EpConfig) (E : Ep) (now : Time) (batch : List Word), s.ep? ch = some (p, E) →
    let has := fun k : RxKind => ∃ w ∈ batch, classify s.cfg p w = some ⟨k, w⟩
    let neg := has .syn ∨ has .nack
    let late := ∃ d, E.reg.deadline = some d ∧ d ≤ now
    (E.reg.sdSent = true → neg → ∃ t,
      exec (.senddataResponses ch now batch) s = .next t ∧ exec (.retry ch now) s = .next t) ∧
    (E.reg.sdSent = true → ¬ neg → has .ack → ∃ t,
      exec (.senddataResponses ch now batch) s = .next t ∧ exec (.ackData ch) s = .next t) ∧
    (E.reg.sdSent = true → ¬ neg → ¬ has .ack → late → ∃ t,
      exec (.senddataResponses ch now batch) s = .next t ∧ exec (.retry ch now) s = .next t) ∧
    (E.reg.sdSent = false ∨ (¬ neg ∧ ¬ has .ack ∧ ¬ late) →
      exec (.senddataResponses ch now batch) s = .next (s.answer .nothing))

/-! ### Transport: Scratchpad -/

/-- sendChar (R256): the character at `spPos` (a free value past the buffer's end, log 12) as a record
on the scratchpad line, column spPos + 1, with that line's colour and attribute (0 where no Frame is
stored), index 1, last; then the character awaits its ACK and the deadline is armed. -/
def Obligations.SendCharSendsOneCharacter : Prop :=
  ∀ (s : State) (ch : Nat) (p : EpConfig) (E : Ep) (now : Time), s.ep? ch = some (p, E) →
    ∃ (x : Char7) (color attr : BitVec 3) (u : State) (E1 : Ep),
      (∀ y, E.reg.spBuf[E.reg.spPos]? = some y → x = y) ∧
      (E.reg.prevFrame = none → color = 0 ∧ attr = 0) ∧
      (∀ F l, E.reg.prevFrame = some F → 1 ≤ s.cfg.scratchpadLine → F[s.cfg.scratchpadLine - 1]? = some l →
        color = l.color ∧ attr = l.attr) ∧
      exec (.sendRecord ch ⟨[x], color, s.cfg.scratchpadLine, ⟨E.reg.spPos⟩, attr⟩ 1 true) s = .next u ∧
      u.ep? ch = some (p, E1) ∧
      exec (.sendChar ch now) s = .next ((s.setEp ch { E1 with reg := { E1.reg with
        spSent := true, deadline := some (now + s.cfg.ackTimeoutMs) } }).answer .nothing)

/-- finishScratchpad (R259), spExhaust (R262), spAck (R260) and spRetry (R261). -/
def Obligations.ScratchpadCharactersAreGatedByAck : Prop :=
  ∀ (s : State) (ch : Nat) (p : EpConfig) (E : Ep) (now : Time), s.ep? ch = some (p, E) →
    let tag := match E.reg.lastTag with
      | some t => t
      | none => Tag.A
    let alternate := match tag with
      | .A => Tag.B
      | .B => Tag.A
    let acked : Regs := { E.reg with preferred := some tag, spPos := E.reg.spPos + 1, spSent := false, repeatCount := 0 }
    exec (.finishScratchpad ch) s = .next ((s.setEp ch { E with reg := { E.reg with
      state := .idle, deadline := none } }).answer .nothing) ∧
    exec (.spExhaust ch) s = .next ((s.setEp ch { E with reg := { E.reg with
      lock := none, spSent := false, deadline := none, state := .idle } }).answer .nothing) ∧
    (E.reg.spBuf.length ≤ E.reg.spPos + 1 → ∃ t, exec (.spAck ch now) s = .next t ∧
      exec (.finishScratchpad ch) (s.setEp ch { E with reg := acked }) = .next t) ∧
    (E.reg.spPos + 1 < E.reg.spBuf.length → ∃ t, exec (.spAck ch now) s = .next t ∧
      exec (.sendChar ch now) (s.setEp ch { E with reg := acked }) = .next t) ∧
    (E.reg.repeatCount < s.cfg.maxRetries → ∃ t, exec (.spRetry ch now) s = .next t ∧
      exec (.sendChar ch now) (s.setEp ch { E with reg := { E.reg with
        preferred := some alternate, repeatCount := E.reg.repeatCount + 1 } }) = .next t) ∧
    (s.cfg.maxRetries ≤ E.reg.repeatCount → ∃ t, exec (.spRetry ch now) s = .next t ∧
      exec (.spExhaust ch) s = .next t)

/-- scratchpad_handler (R257): a DC1 restarts the sequence first and its responses do not count for the
new one; a character not sent yet is sent, or the sequence finishes; SYN or NACK before ACK before the
deadline. -/
def Obligations.ScratchpadHandlerInOrder : Prop :=
  ∀ (s : State) (ch : Nat) (p : EpConfig) (E : Ep) (now : Time) (batch : List Word), s.ep? ch = some (p, E) →
    let has := fun k : RxKind => ∃ w ∈ batch, classify s.cfg p w = some ⟨k, w⟩
    let neg := has .syn ∨ has .nack
    let late := ∃ d, E.reg.deadline = some d ∧ d ≤ now
    let same := fun (i : Instr) (u : State) => ∃ t, exec (.scratchpadHandler ch now batch) s = .next t ∧ exec i u = .next t
    (has .dc1 → ∃ (u : State) (E1 : Ep), exec (.restartScratchpad ch) s = .next u ∧ u.ep? ch = some (p, E1) ∧
      (E1.reg.spBuf = [] → same (.finishScratchpad ch) u) ∧ (E1.reg.spBuf ≠ [] → same (.sendChar ch now) u)) ∧
    (¬ has .dc1 → E.reg.spSent = false → E.reg.spBuf.length ≤ E.reg.spPos → same (.finishScratchpad ch) s) ∧
    (¬ has .dc1 → E.reg.spSent = false → E.reg.spPos < E.reg.spBuf.length → same (.sendChar ch now) s) ∧
    (¬ has .dc1 → E.reg.spSent = true → neg → same (.spRetry ch now) s) ∧
    (¬ has .dc1 → E.reg.spSent = true → ¬ neg → has .ack → same (.spAck ch now) s) ∧
    (¬ has .dc1 → E.reg.spSent = true → ¬ neg → ¬ has .ack → late → same (.spRetry ch now) s) ∧
    (¬ has .dc1 → E.reg.spSent = true → ¬ neg → ¬ has .ack → ¬ late →
      exec (.scratchpadHandler ch now batch) s = .next (s.answer .nothing))

/-! ### Manager -/

/-- heartbeat (R275, R276): outside SendData, where none was sent or HB_PERIOD_MS have passed, the
heartbeat word with the endpoint's address goes out and the time is kept; otherwise nothing. The period
is compared as lastHb + HB_PERIOD_MS ≤ now (log 19). -/
def Obligations.HeartbeatIsSentWhenDue : Prop :=
  ∀ (s : State) (ch : Nat) (p : EpConfig) (E : Ep) (now : Time), s.ep? ch = some (p, E) →
    let due := E.reg.state ≠ .sendData ∧
      (E.reg.lastHb = none ∨ ∃ t, E.reg.lastHb = some t ∧ t + s.cfg.hbPeriodMs ≤ now)
    (due → exec (.heartbeat ch now) s = .next ((s.setEp ch
      { reg := { E.reg with lastHb := some now },
        chan := { E.chan with outbound := E.chan.outbound ++
          [ctlWord s.cfg.labelMask s.cfg.hbLabel (0x00#8) (0#2 ++ BitVec.ofNat 8 p.ownAddr)] } }).answer .nothing)) ∧
    (¬ due → exec (.heartbeat ch now) s = .next (s.answer .nothing))

/-- tickEndpoint (R220, R222): the inbound queue is drained; every accepted DC1, in order, is a
keypress; exactly one handler runs, of the state at the start of the tick; the heartbeat is last. -/
def Obligations.TickRunsThePipelineInOrder : Prop :=
  ∀ (s : State) (ch : Nat) (p : EpConfig) (E : Ep) (now : Time), s.ep? ch = some (p, E) →
    let B := E.chan.inbound.map Arrival.word
    let keys := (B.filter fun w => decide (classify s.cfg p w = some ⟨.dc1, w⟩)).map fun w => Instr.keypress ch w
    let handler := match E.reg.state with
      | .idle => Instr.idleHandler ch B
      | .rts => if E.reg.rtsSent then .ctsHandler ch B else .rtsHandler ch
      | .sendData => if E.reg.sdSent then .senddataResponses ch now B else .senddataTransmit ch now
      | .scratchpad => .scratchpadHandler ch now B
    ∃ t : State,
      execAll (keys ++ [handler, .heartbeat ch now])
        (s.setEp ch { E with chan := { E.chan with inbound := [] } }) = .next t ∧
      exec (.tickEndpoint ch now) s = .next (t.answer .nothing)

/-- engineTick of a ready bus (R270, R271, R32): every endpoint makes its own tick from its own state
before the tick, whatever the others do; the configuration and the waiting events are unchanged, and
the time of the tick is kept (log 9). -/
def Obligations.EngineTickTicksEveryEndpoint : Prop :=
  ∀ (s : State) (now : Time), (∀ x, s.lastNow = some x → x ≤ now) →
    ∃ t : State, exec (.engineTick now true) s = .next t ∧ t.cfg = s.cfg ∧ t.inputs = s.inputs ∧
      t.lastNow = some now ∧
      ∀ e p E, s.ep? e = some (p, E) →
        ∃ u : State, exec (.tickEndpoint e now) s = .next u ∧ t.ep? e = u.ep? e

/-- A tick of a bus that is not ready changes no register and no channel (R272), and a tick whose time
goes back is refused (R270). The model keeps the time of every tick (log 9). -/
def Obligations.UnreadyOrBackwardTickDoesNothing : Prop :=
  (∀ (s : State) (now : Time), (∀ x, s.lastNow = some x → x ≤ now) →
    exec (.engineTick now false) s = .next { s with lastNow := some now, ret := .nothing }) ∧
  (∀ (s : State) (now x : Time) (ready : Bool), s.lastNow = some x → now < x →
    exec (.engineTick now ready) s = .refused .timeWentBack)

/-! ### Rules of the whole machine -/

/-- The transition table (R263): the state after an endpoint's tick, from every state. -/
def Obligations.TransitionsFollowTheTable : Prop :=
  ∀ (s : State) (ch : Nat) (p : EpConfig) (E : Ep) (now : Time), s.ep? ch = some (p, E) →
    let A := acceptedOf s.cfg p (E.chan.inbound.map Arrival.word)
    let has := fun k : RxKind => ∃ r ∈ A, r.kind = k
    let neg := has .syn ∨ has .nack
    let failed := neg ∨ (¬ has .ack ∧ ∃ d, E.reg.deadline = some d ∧ d ≤ now)
    let spent := s.cfg.maxRetries ≤ E.reg.repeatCount
    ∃ (t : State) (E1 : Ep), exec (.tickEndpoint ch now) s = .next t ∧ t.ep? ch = some (p, E1) ∧
      match E.reg.state with
      | .idle =>
          (has .enq → E1.reg.state = .rts) ∧
          (¬ has .enq → E.reg.spDirty = true ∨ has .dc1 → E1.reg.state = .scratchpad) ∧
          (¬ has .enq → E.reg.spDirty = false → ¬ has .dc1 → E1.reg.state = .idle)
      | .rts =>
          (E.reg.rtsSent = true → ∀ r, A.find? (fun r => r.kind = .cts) = some r →
            (E1.reg.state = .idle ∧ (E.reg.reqCount = 0 ∨ ctsMax r.word = 0 ∨ E.reg.queue = []) ∨
             E1.reg.state = .sendData ∧ 0 < E.reg.reqCount ∧ 0 < ctsMax r.word ∧ E.reg.queue ≠ [] ∧ E1.reg.batch ≠ [])) ∧
          (E.reg.rtsSent = false ∨ ¬ has .cts → E1.reg.state = .rts)
      | .sendData =>
          (E.reg.sdSent = true → failed → spent → E1.reg.state = .idle ∧ E1.reg.lock = none) ∧
          (E.reg.sdSent = true → ¬ neg → has .ack → E.reg.mode = .data → E.reg.queue ≠ [] → E1.reg.state = .rts) ∧
          (E.reg.sdSent = true → ¬ neg → has .ack → (E.reg.mode = .menu ∨ E.reg.queue = []) → E1.reg.state = .idle) ∧
          (E.reg.sdSent = false ∨ (failed ∧ ¬ spent) ∨ (¬ failed ∧ ¬ has .ack) → E1.reg.state = .sendData)
      | .scratchpad =>
          (has .dc1 → (E1.reg.state = .idle ∧ E1.reg.spBuf = [] ∨ E1.reg.state = .scratchpad ∧ E1.reg.spBuf ≠ [])) ∧
          (¬ has .dc1 → E.reg.spSent = false →
            (E.reg.spBuf.length ≤ E.reg.spPos → E1.reg.state = .idle) ∧
            (E.reg.spPos < E.reg.spBuf.length → E1.reg.state = .scratchpad)) ∧
          (¬ has .dc1 → E.reg.spSent = true → failed → spent → E1.reg.state = .idle ∧ E1.reg.lock = none) ∧
          (¬ has .dc1 → E.reg.spSent = true → ¬ neg → has .ack →
            (E.reg.spBuf.length ≤ E.reg.spPos + 1 → E1.reg.state = .idle) ∧
            (E.reg.spPos + 1 < E.reg.spBuf.length → E1.reg.state = .scratchpad)) ∧
          (¬ has .dc1 → E.reg.spSent = true → (failed ∧ ¬ spent) ∨ (¬ failed ∧ ¬ has .ack) →
            E1.reg.state = .scratchpad)

/-- The lock (R34, R336): a held lock outlives every tick but one that exhausts the retries (R252, R262,
R290), which takes a SYN or NACK, or a reached deadline without an ACK, against a payload that was sent
and whose budget is spent; a lock is learned only in Idle, from the first accepted ENQ. -/
def Obligations.LockIsReleasedOnlyByExhaustion : Prop :=
  ∀ (s t : State) (ch : Nat) (p : EpConfig) (E E1 : Ep) (now : Time), s.ep? ch = some (p, E) →
    exec (.tickEndpoint ch now) s = .next t → t.ep? ch = some (p, E1) →
    let A := acceptedOf s.cfg p (E.chan.inbound.map Arrival.word)
    let has := fun k : RxKind => ∃ r ∈ A, r.kind = k
    let failed := has .syn ∨ has .nack ∨ (¬ has .ack ∧ ∃ d, E.reg.deadline = some d ∧ d ≤ now)
    (∀ l, E.reg.lock = some l → E1.reg.lock = some l ∨
      (E1.reg.lock = none ∧ E1.reg.state = .idle ∧ failed ∧ s.cfg.maxRetries ≤ E.reg.repeatCount ∧
        (E.reg.state = .sendData ∧ E.reg.sdSent = true ∨
         E.reg.state = .scratchpad ∧ E.reg.spSent = true ∧ ¬ has .dc1))) ∧
    (E.reg.lock = none → E1.reg.lock = none ∨
      (E.reg.state = .idle ∧ E1.reg.state = .rts ∧
        ∃ r, A.find? (fun r => r.kind = .enq) = some r ∧ E1.reg.lock = some (r.word.extractLsb' 11 8)))

/-- Keypresses in every state (R225): an endpoint's tick sends one ACK per accepted DC1 before any
other word, and hands the key codes to the host in arrival order. -/
def Obligations.KeypressesAreAcknowledgedInEveryState : Prop :=
  ∀ (s : State) (ch : Nat) (p : EpConfig) (E : Ep) (now : Time), s.ep? ch = some (p, E) →
    let D := (E.chan.inbound.map Arrival.word).filter fun w => decide (classify s.cfg p w = some ⟨.dc1, w⟩)
    ∃ (t : State) (E1 : Ep) (more : List Word), exec (.tickEndpoint ch now) s = .next t ∧ t.ep? ch = some (p, E1) ∧
      E1.chan.keys = E.chan.keys ++ D.map (fun w => w.extractLsb' 11 7) ∧
      E1.chan.outbound = E.chan.outbound ++
        List.replicate D.length (ctlWord s.cfg.labelMask (outLabel p E.reg) (0x06#8) 0#10) ++ more

/-- Heartbeats (R275, R277): an endpoint's tick is its keypresses and its one handler, and after them
the heartbeat word exactly where the state is then not SendData and one is due; otherwise the words on
the channel are those the keypresses and the handler left, and the heartbeat time is as before. The
period is compared as lastHb + HB_PERIOD_MS ≤ now (log 19). -/
def Obligations.HeartbeatOnlyOutsideSendData : Prop :=
  ∀ (s : State) (ch : Nat) (p : EpConfig) (E : Ep) (now : Time), s.ep? ch = some (p, E) →
    let B := E.chan.inbound.map Arrival.word
    let keys := (B.filter fun w => decide (classify s.cfg p w = some ⟨.dc1, w⟩)).map fun w => Instr.keypress ch w
    let handler := match E.reg.state with
      | .idle => Instr.idleHandler ch B
      | .rts => if E.reg.rtsSent then .ctsHandler ch B else .rtsHandler ch
      | .sendData => if E.reg.sdSent then .senddataResponses ch now B else .senddataTransmit ch now
      | .scratchpad => .scratchpadHandler ch now B
    let due := E.reg.lastHb = none ∨ ∃ x, E.reg.lastHb = some x ∧ x + s.cfg.hbPeriodMs ≤ now
    ∃ (u t : State) (Eu E1 : Ep),
      execAll (keys ++ [handler]) (s.setEp ch { E with chan := { E.chan with inbound := [] } }) = .next u ∧
      u.ep? ch = some (p, Eu) ∧
      exec (.tickEndpoint ch now) s = .next t ∧ t.ep? ch = some (p, E1) ∧ E1.reg.state = Eu.reg.state ∧
      (Eu.reg.state ≠ .sendData → due → E1.reg.lastHb = some now ∧
        E1.chan.outbound = Eu.chan.outbound ++
          [ctlWord s.cfg.labelMask s.cfg.hbLabel (0x00#8) (0#2 ++ BitVec.ofNat 8 p.ownAddr)]) ∧
      (Eu.reg.state = .sendData ∨ ¬ due → E1.reg.lastHb = E.reg.lastHb ∧ E1.chan.outbound = Eu.chan.outbound)

/-- Ignored words and timestamps (R221, R294, R310): two states that differ only in words an endpoint
does not accept and in timestamps are the same for that endpoint after its tick. -/
def Obligations.IgnoredWordsAndTimestampsChangeNothing : Prop :=
  ∀ (s1 s2 : State) (ch : Nat) (p : EpConfig) (E1 E2 : Ep) (now : Time),
    s1.ep? ch = some (p, E1) → s2.ep? ch = some (p, E2) → s1.cfg = s2.cfg → E1.reg = E2.reg →
    E1.chan.arriving = E2.chan.arriving → E1.chan.outbound = E2.chan.outbound → E1.chan.keys = E2.chan.keys →
    E1.chan.inbound.filterMap (fun a => classify s1.cfg p a.word) =
      E2.chan.inbound.filterMap (fun a => classify s1.cfg p a.word) →
    ∃ t1 t2 E', exec (.tickEndpoint ch now) s1 = .next t1 ∧ exec (.tickEndpoint ch now) s2 = .next t2 ∧
      t1.ep? ch = some (p, E') ∧ t2.ep? ch = some (p, E')

/-- Encoder convergence (R157): once layout T is preferred and was the last one sent, a tick in which
no SYN or NACK is drained or peeked and no deadline expires leaves T preferred and the last one sent. -/
def Obligations.PreferredLayoutStaysWithoutANegative : Prop :=
  ∀ (s : State) (ch : Nat) (p : EpConfig) (E : Ep) (now : Time) (T : Tag), s.ep? ch = some (p, E) →
    E.reg.preferred = some T → E.reg.lastTag = some T →
    negIn (acceptedOf s.cfg p (E.chan.inbound.map Arrival.word)) = false →
    (∀ P ∈ E.chan.arriving, negIn (acceptedOf s.cfg p (P.map Arrival.word)) = false) →
    (∀ d, E.reg.deadline = some d → now < d) →
    ∃ (t : State) (E1 : Ep), exec (.tickEndpoint ch now) s = .next t ∧ t.ep? ch = some (p, E1) ∧
      E1.reg.preferred = some T ∧ E1.reg.lastTag = some T

/-- The retry bound (R265): an endpoint in SendData whose batch has been sent, met by a SYN or NACK
before each of `ks.length` ticks, is still in SendData with that many retries counted while the budget
lasts, and in Idle with its lock released after one more. -/
def Obligations.RetriesAreBounded : Prop :=
  ∀ (ks : List (Word × Time)) (s : State) (ch : Nat) (p : EpConfig) (E : Ep),
    s.ep? ch = some (p, E) → E.reg.state = .sendData → E.reg.sdSent = true → E.reg.repeatCount = 0 →
    ks.length ≤ s.cfg.maxRetries + 1 →
    (∀ x ∈ ks, classify s.cfg p x.1 = some ⟨.nack, x.1⟩ ∨ classify s.cfg p x.1 = some ⟨.syn, x.1⟩) →
    ∃ (t : State) (E1 : Ep),
      execAll (ks.flatMap fun x => [(decode (.inbound ch x.2) x.1).toOption.getD (.enterRTS ch), .tickEndpoint ch x.2]) s
        = .next t ∧ t.ep? ch = some (p, E1) ∧
      (ks.length ≤ s.cfg.maxRetries → E1.reg.state = .sendData ∧ E1.reg.repeatCount = ks.length ∧
        E1.reg.lock = E.reg.lock ∧ E1.reg.batch = E.reg.batch) ∧
      (ks.length = s.cfg.maxRetries + 1 → E1.reg.state = .idle ∧ E1.reg.lock = none ∧ E1.reg.batch = [])

/-- Handshake liveness (R264), with lines pending and nothing else arriving: from Idle, an ENQ, the tick
that accepts it, the tick that sends RTS, a CTS for at least the requested number of records (1 in Menu
mode, the planned count in Data mode, R240), its tick, the transmitting tick, an ACK and its tick lead
through SendData with a batch of that many records to Idle, or back to RTS in Data mode where lines
remain. -/
def Obligations.HandshakeIsLive : Prop :=
  ∀ (s : State) (ch : Nat) (p : EpConfig) (E : Ep) (enq cts ack : Word) (e1 e2 e3 t1 t2 t3 t4 t5 : Time),
    s.ep? ch = some (p, E) → E.reg.state = .idle → E.chan.inbound = [] → E.reg.queue ≠ [] →
    (∀ P ∈ E.chan.arriving, P = []) →
    let requested := if enq.getLsbD 19 ∧ E.reg.everDrained = false then min E.reg.queue.length s.cfg.recordCap else 1
    1 ≤ requested →
    classify s.cfg p enq = some ⟨.enq, enq⟩ → classify s.cfg p cts = some ⟨.cts, cts⟩ →
    requested ≤ (cts.extractLsb' 11 6).toNat → classify s.cfg p ack = some ⟨.ack, ack⟩ →
    let arrive := fun (w : Word) (stamp : Time) => (decode (.inbound ch stamp) w).toOption.getD (.exhaust ch)
    ∃ (u v : State) (Eu Ev : Ep),
      execAll [arrive enq e1, .tickEndpoint ch t1, .tickEndpoint ch t2, arrive cts e2, .tickEndpoint ch t3] s = .next u ∧
      u.ep? ch = some (p, Eu) ∧ Eu.reg.state = .sendData ∧ Eu.reg.batch.length = requested ∧
      execAll [.tickEndpoint ch t4, arrive ack e3, .tickEndpoint ch t5] u = .next v ∧ v.ep? ch = some (p, Ev) ∧
      (enq.getLsbD 19 = false ∨ Eu.reg.queue = [] → Ev.reg.state = .idle) ∧
      (enq.getLsbD 19 = true → Eu.reg.queue ≠ [] → Ev.reg.state = .rts)
end

