-- ==== Sys2Proof/Laws/State.lean ====
section
/-! SUPPORT. One lemma per field per update of the state, and what the shared operations over one
endpoint can do. -/

namespace Sys2Proof.Machine

open Host (Outcome)

section Endpoint
variable (E : Ep) (w : Word) (ws : List Word) (code : Char7) (f : Regs → Regs)

@[simp] theorem Ep.send_reg : (E.send w).reg = E.reg := rfl
@[simp] theorem Ep.send_inbound : (E.send w).chan.inbound = E.chan.inbound := rfl
@[simp] theorem Ep.send_arriving : (E.send w).chan.arriving = E.chan.arriving := rfl
@[simp] theorem Ep.send_outbound : (E.send w).chan.outbound = E.chan.outbound ++ [w] := rfl
@[simp] theorem Ep.send_keys : (E.send w).chan.keys = E.chan.keys := rfl

@[simp] theorem Ep.sendAll_reg : (E.sendAll ws).reg = E.reg := rfl
@[simp] theorem Ep.sendAll_inbound : (E.sendAll ws).chan.inbound = E.chan.inbound := rfl
@[simp] theorem Ep.sendAll_arriving : (E.sendAll ws).chan.arriving = E.chan.arriving := rfl
@[simp] theorem Ep.sendAll_outbound : (E.sendAll ws).chan.outbound = E.chan.outbound ++ ws := rfl
@[simp] theorem Ep.sendAll_keys : (E.sendAll ws).chan.keys = E.chan.keys := rfl

@[simp] theorem Ep.hostKey_reg : (E.hostKey code).reg = E.reg := rfl
@[simp] theorem Ep.hostKey_inbound : (E.hostKey code).chan.inbound = E.chan.inbound := rfl
@[simp] theorem Ep.hostKey_arriving : (E.hostKey code).chan.arriving = E.chan.arriving := rfl
@[simp] theorem Ep.hostKey_outbound : (E.hostKey code).chan.outbound = E.chan.outbound := rfl
@[simp] theorem Ep.hostKey_keys : (E.hostKey code).chan.keys = E.chan.keys ++ [code] := rfl

@[simp] theorem Ep.drain_reg : E.drain.reg = E.reg := rfl
@[simp] theorem Ep.drain_inbound : E.drain.chan.inbound = [] := rfl
@[simp] theorem Ep.drain_arriving : E.drain.chan.arriving = E.chan.arriving := rfl
@[simp] theorem Ep.drain_outbound : E.drain.chan.outbound = E.chan.outbound := rfl
@[simp] theorem Ep.drain_keys : E.drain.chan.keys = E.chan.keys := rfl

@[simp] theorem Ep.peek_reg : E.peek.reg = E.reg := rfl
@[simp] theorem Ep.peek_inbound : E.peek.chan.inbound = E.chan.inbound ++ E.peeked := rfl
@[simp] theorem Ep.peek_arriving : E.peek.chan.arriving = E.chan.arriving.tail := rfl
@[simp] theorem Ep.peek_outbound : E.peek.chan.outbound = E.chan.outbound := rfl
@[simp] theorem Ep.peek_keys : E.peek.chan.keys = E.chan.keys := rfl

@[simp] theorem Ep.mapReg_reg : (E.mapReg f).reg = f E.reg := rfl
@[simp] theorem Ep.mapReg_chan : (E.mapReg f).chan = E.chan := rfl

end Endpoint

section Whole
variable (s : State) (ch : Nat) (E : Ep) (r : Ret)

@[simp] theorem State.answer_cfg : (s.answer r).cfg = s.cfg := rfl
@[simp] theorem State.answer_eps : (s.answer r).eps = s.eps := rfl
@[simp] theorem State.answer_chans : (s.answer r).chans = s.chans := rfl
@[simp] theorem State.answer_lastNow : (s.answer r).lastNow = s.lastNow := rfl
@[simp] theorem State.answer_inputs : (s.answer r).inputs = s.inputs := rfl
@[simp] theorem State.answer_ret : (s.answer r).ret = r := rfl
@[simp] theorem State.answer_ep (e : Nat) : (s.answer r).ep? e = s.ep? e := rfl

@[simp] theorem State.setEp_cfg : (s.setEp ch E).cfg = s.cfg := rfl
@[simp] theorem State.setEp_eps : (s.setEp ch E).eps = s.eps.set ch E.reg := rfl
@[simp] theorem State.setEp_chans : (s.setEp ch E).chans = s.chans.set ch E.chan := rfl
@[simp] theorem State.setEp_lastNow : (s.setEp ch E).lastNow = s.lastNow := rfl
@[simp] theorem State.setEp_inputs : (s.setEp ch E).inputs = s.inputs := rfl
@[simp] theorem State.setEp_ret : (s.setEp ch E).ret = s.ret := rfl

end Whole

/-- Endpoint `ch` exists iff the index is in range everywhere. -/
theorem ep_eq_some {s : State} {ch : Nat} {p : EpConfig} {E : Ep} :
    s.ep? ch = some (p, E) ↔
      s.cfg.endpoints[ch]? = some p ∧ s.eps[ch]? = some E.reg ∧ s.chans[ch]? = some E.chan := by
  unfold State.ep?
  constructor
  · intro h
    split at h
    · cases h; exact ⟨‹_›, ‹_›, ‹_›⟩
    · cases h
  · rintro ⟨h1, h2, h3⟩
    rw [h1, h2, h3]

/-- An index out of range has no endpoint (R74). -/
theorem ep_none_of_le {s : State} {ch : Nat} (h : s.cfg.endpoints.length ≤ ch) : s.ep? ch = none := by
  unfold State.ep?
  rw [List.getElem?_eq_none h]

/-- Writing an endpoint and reading it back. -/
theorem ep_setEp_self {s : State} {ch : Nat} {p : EpConfig} {E : Ep} (h : s.ep? ch = some (p, E)) (E' : Ep) :
    (s.setEp ch E').ep? ch = some (p, E') := by
  obtain ⟨h1, h2, h3⟩ := ep_eq_some.1 h
  refine ep_eq_some.2 ⟨h1, ?_, ?_⟩
  · obtain ⟨hl, -⟩ := List.getElem?_eq_some_iff.1 h2
    simp [hl]
  · obtain ⟨hl, -⟩ := List.getElem?_eq_some_iff.1 h3
    simp [hl]

/-- Writing one endpoint leaves the others alone (R32). -/
@[simp] theorem ep_setEp_ne {s : State} {ch e : Nat} (h : e ≠ ch) (E' : Ep) :
    (s.setEp ch E').ep? e = s.ep? e := by
  simp [State.ep?, List.getElem?_set_ne (Ne.symm h)]

/-- Writing an endpoint twice keeps the second value. -/
@[simp] theorem setEp_setEp (s : State) (ch : Nat) (E E' : Ep) :
    (s.setEp ch E).setEp ch E' = s.setEp ch E' := by
  simp [State.setEp]

/-- Writing back what is there changes nothing. -/
theorem setEp_same {s : State} {ch : Nat} {p : EpConfig} {E : Ep} (h : s.ep? ch = some (p, E)) :
    s.setEp ch E = s := by
  obtain ⟨-, h2, h3⟩ := ep_eq_some.1 h
  obtain ⟨h2l, h2e⟩ := List.getElem?_eq_some_iff.1 h2
  obtain ⟨h3l, h3e⟩ := List.getElem?_eq_some_iff.1 h3
  simp only [State.setEp, ← h2e, ← h3e, List.set_getElem_self]

/-! ### The shared shape of an endpoint's operation -/

variable {s t : State} {ch : Nat}

theorem onEp_eq {p : EpConfig} {E : Ep} (h : s.ep? ch = some (p, E)) (f : Config → EpConfig → Ep → Ep × Ret) :
    onEp s ch f = .next ((s.setEp ch (f s.cfg p E).1).answer (f s.cfg p E).2) := by
  simp [onEp, h]

theorem doEp_eq {p : EpConfig} {E : Ep} (h : s.ep? ch = some (p, E)) (f : Config → EpConfig → Ep → Ep) :
    doEp s ch f = .next ((s.setEp ch (f s.cfg p E)).answer .nothing) :=
  onEp_eq h _

theorem askEp_eq {p : EpConfig} {E : Ep} (h : s.ep? ch = some (p, E)) (f : Config → EpConfig → Ep → Ret) :
    askEp s ch f = .next (s.answer (f s.cfg p E)) := by
  simp [askEp, h]

theorem onEp_none (h : s.ep? ch = none) (f : Config → EpConfig → Ep → Ep × Ret) :
    onEp s ch f = .refused .badChannel := by
  simp [onEp, h, refuse]

theorem doEp_none (h : s.ep? ch = none) (f : Config → EpConfig → Ep → Ep) :
    doEp s ch f = .refused .badChannel :=
  onEp_none h _

theorem askEp_none (h : s.ep? ch = none) (f : Config → EpConfig → Ep → Ret) :
    askEp s ch f = .refused .badChannel := by
  simp [askEp, h, refuse]

/-- Everything an endpoint's operation can do when it goes on. -/
theorem onEp_cases {f : Config → EpConfig → Ep → Ep × Ret} (h : onEp s ch f = .next t) :
    ∃ p E, s.ep? ch = some (p, E) ∧ t = (s.setEp ch (f s.cfg p E).1).answer (f s.cfg p E).2 := by
  unfold onEp at h
  split at h
  · simp [refuse] at h
  · next p E he =>
    simp only [Outcome.next.injEq] at h
    exact ⟨p, E, he, h.symm⟩

/-- Everything a question can do when it goes on. -/
theorem askEp_cases {f : Config → EpConfig → Ep → Ret} (h : askEp s ch f = .next t) :
    ∃ p E, s.ep? ch = some (p, E) ∧ t = s.answer (f s.cfg p E) := by
  unfold askEp at h
  split at h
  · simp [refuse] at h
  · next p E he =>
    simp only [Outcome.next.injEq] at h
    exact ⟨p, E, he, h.symm⟩

/-- An operation in place, where the endpoint exists. -/
theorem updateEp_eq {p : EpConfig} {E : Ep} (h : s.ep? ch = some (p, E)) (f : Config → EpConfig → Ep → Ep) :
    s.updateEp ch f = s.setEp ch (f s.cfg p E) := by
  simp [State.updateEp, h]

@[simp] theorem updateEp_cfg (f : Config → EpConfig → Ep → Ep) : (s.updateEp ch f).cfg = s.cfg := by
  unfold State.updateEp; split <;> rfl

@[simp] theorem updateEp_lastNow (f : Config → EpConfig → Ep → Ep) : (s.updateEp ch f).lastNow = s.lastNow := by
  unfold State.updateEp; split <;> rfl

@[simp] theorem updateEp_inputs (f : Config → EpConfig → Ep → Ep) : (s.updateEp ch f).inputs = s.inputs := by
  unfold State.updateEp; split <;> rfl

theorem updateEp_self (f : Config → EpConfig → Ep → Ep) :
    (s.updateEp ch f).ep? ch = (s.ep? ch).map fun x => (x.1, f s.cfg x.1 x.2) := by
  unfold State.updateEp
  split
  · next h => simp [h]
  · next p E h => simp [ep_setEp_self h, h]

theorem updateEp_ne {e : Nat} (h : e ≠ ch) (f : Config → EpConfig → Ep → Ep) :
    (s.updateEp ch f).ep? e = s.ep? e := by
  unfold State.updateEp
  split
  · rfl
  · exact ep_setEp_ne h _

end Sys2Proof.Machine
end

