-- ==== Sys2Proof/Laws/Batch.lean ====
section
/-! SUPPORT. The drained batch: what the classification and the summaries over it mean in terms of the
words (R100, R221, R223), and the arguments of the inbound words as bits (R101 to R103). -/

namespace Sys2Proof.Machine

variable {c : Config} {p : EpConfig} {B pre post : List Word} {w : Word} {k : RxKind} {r : Rx}

/-- Bits of a field of a word are bits of the word. -/
theorem extract_extract {n : Nat} (x : BitVec n) (a l b m : Nat) (h : b + m ≤ l) :
    (x.extractLsb' a l).extractLsb' b m = x.extractLsb' (a + b) m := by
  apply BitVec.eq_of_getLsbD_eq
  intro i hi
  have : b + i < l := by omega
  simp [this, hi, Nat.add_assoc]

theorem enqTarget_eq (w : Word) : enqTarget w = w.extractLsb' 11 8 := extract_extract w 11 10 0 8 (by decide)
theorem dc1Key_eq (w : Word) : dc1Key w = w.extractLsb' 11 7 := extract_extract w 11 10 0 7 (by decide)
theorem ctsMax_eq (w : Word) : ctsMax w = (w.extractLsb' 11 6).toNat :=
  congrArg BitVec.toNat (extract_extract w 11 10 0 6 (by decide))
theorem enqMode_eq (w : Word) : enqMode w = if w.getLsbD 19 then .data else .menu := by
  simp [enqMode, modeOf, wArg]

/-- A classified word keeps its bits. -/
theorem classify_word (h : classify c p w = some r) : r = ⟨r.kind, w⟩ := by
  unfold classify at h
  split at h
  · simp only [Option.map_eq_some_iff] at h
    obtain ⟨k, -, rfl⟩ := h
    rfl
  · cases h

/-- A kind is in A iff some drained word is classified so. -/
theorem mem_acceptedOf : (∃ r ∈ acceptedOf c p B, r.kind = k) ↔ ∃ w ∈ B, classify c p w = some ⟨k, w⟩ := by
  simp only [acceptedOf, List.mem_filterMap]
  constructor
  · rintro ⟨r, ⟨w, hw, hc⟩, rfl⟩
    exact ⟨w, hw, by rw [hc, ← classify_word hc]⟩
  · rintro ⟨w, hw, hc⟩
    exact ⟨_, ⟨w, hw, hc⟩, rfl⟩

theorem firstOf_none (h : ∀ x ∈ B, classify c p x ≠ some ⟨k, x⟩) : firstOf k (acceptedOf c p B) = none := by
  simp only [firstOf, List.find?_eq_none, decide_eq_true_eq]
  intro r hr he
  obtain ⟨w, hw, hc⟩ := mem_acceptedOf.1 ⟨r, hr, he⟩
  exact h w hw hc

theorem firstOf_some (hw : classify c p w = some ⟨k, w⟩) (h : ∀ x ∈ pre, classify c p x ≠ some ⟨k, x⟩) :
    firstOf k (acceptedOf c p (pre ++ w :: post)) = some ⟨k, w⟩ := by
  have hn : firstOf k (acceptedOf c p pre) = none := firstOf_none h
  simp only [firstOf, acceptedOf, List.filterMap_append, List.find?_append] at *
  rw [hn]
  simp [hw]

theorem firstOf_eq_none {A : List Rx} : firstOf k A = none ↔ ¬ ∃ r ∈ A, r.kind = k := by
  simp [firstOf]

theorem negIn_iff {A : List Rx} : negIn A = true ↔ (∃ r ∈ A, r.kind = .syn) ∨ ∃ r ∈ A, r.kind = .nack := by
  simp only [negIn, List.any_eq_true, decide_eq_true_eq]
  constructor
  · rintro ⟨r, hr, h | h⟩
    · exact .inl ⟨r, hr, h⟩
    · exact .inr ⟨r, hr, h⟩
  · rintro (⟨r, hr, h⟩ | ⟨r, hr, h⟩)
    · exact ⟨r, hr, .inl h⟩
    · exact ⟨r, hr, .inr h⟩

theorem posIn_iff {A : List Rx} : posIn A = true ↔ ∃ r ∈ A, r.kind = .ack := by simp [posIn]

theorem dc1In_iff {A : List Rx} : dc1In A = true ↔ ∃ r ∈ A, r.kind = .dc1 := by simp [dc1In]

theorem expired_iff {r : Regs} {now : Time} : expired r now = true ↔ ∃ d, r.deadline = some d ∧ d ≤ now := by
  unfold expired; cases r.deadline <;> simp

theorem heartbeatDue_iff {r : Regs} {now : Time} :
    heartbeatDue c r now = true ↔ r.lastHb = none ∨ ∃ t, r.lastHb = some t ∧ t + c.hbPeriodMs ≤ now := by
  unfold heartbeatDue; cases r.lastHb <;> simp

end Sys2Proof.Machine
end

