-- ==== Sys2Proof/Laws/Codec.lean ====
section
/-! SUPPORT. The bit layout of R90: each field of a word laid out reads back, generated parity is odd,
the label reversal is its own inverse. -/

namespace Sys2Proof.Machine

/-- Bit i of the reversed byte is bit 7 - i (R130). -/
theorem getLsbD_reverse8 (x : BitVec 8) : ∀ i < 8, (reverse8 x).getLsbD i = x.getLsbD (7 - i) := by
  revert x
  decide

/-- R131 as a rewriting rule. -/
@[simp] theorem reverse8_twice (x : BitVec 8) : reverse8 (reverse8 x) = x := by
  apply BitVec.eq_of_getLsbD_eq
  intro i hi
  rw [getLsbD_reverse8 _ _ hi, getLsbD_reverse8 _ _ (by omega)]
  congr 1
  omega

/-- A new top bit adds itself to the count of set bits. -/
theorem popcount_ofBool_append {n : Nat} (b : Bool) (v : BitVec n) :
    popcount (BitVec.ofBool b ++ v) = popcount v + b.toNat := by
  have hr : List.range (1 + n) = List.range n ++ [n] := by rw [Nat.add_comm, List.range_succ]
  unfold popcount
  rw [hr, List.countP_append]
  congr 1
  · apply List.countP_congr
    intro i hi
    simp only [List.mem_range] at hi
    simp [BitVec.getLsbD_append, hi]
  · cases b <;> simp [BitVec.getLsbD_append]

/-- The parity bit adds itself to the count of the low bits. -/
theorem popcount_layWord (p : Bool) (ssm : BitVec 2) (data : BitVec 19) (sdi : BitVec 2) (label : Label) :
    popcount (layWord p ssm data sdi label) = popcount (lowBits ssm data sdi label) + p.toNat :=
  popcount_ofBool_append p (lowBits ssm data sdi label)

/-- A word with generated parity has an odd number of set bits (R132). -/
theorem popcount_parityWord (label : Label) (sdi : BitVec 2) (data : BitVec 19) :
    popcount (parityWord label sdi data) % 2 = 1 := by
  unfold parityWord
  rw [popcount_layWord]
  unfold parityBit
  rcases Nat.mod_two_eq_zero_or_one (popcount (lowBits 0#2 data sdi label)) with h | h <;>
    simp [h, Nat.add_mod]

section Fields
variable (p : Bool) (ssm : BitVec 2) (data : BitVec 19) (sdi : BitVec 2) (label : Label)

/-- Bit i of the 31 low bits (R90). -/
theorem getLsbD_lowBits (i : Nat) : (lowBits ssm data sdi label).getLsbD i =
    if i < 8 then (reverse8 label).getLsbD i
    else if i < 10 then sdi.getLsbD (i - 8)
    else if i < 29 then data.getLsbD (i - 10)
    else ssm.getLsbD (i - 29) := by
  change (ssm ++ data ++ sdi ++ reverse8 label).getLsbD i = _
  rw [BitVec.getLsbD_append, BitVec.getLsbD_append, BitVec.getLsbD_append]
  by_cases h8 : i < 8
  · simp [h8]
  · by_cases h10 : i < 10
    · have : i - 8 < 2 := by omega
      simp [h8, h10, this]
    · have h2 : ¬ i - 8 < 2 := by omega
      have h3 : i - 8 - 2 = i - 10 := by omega
      have h4 : i - 8 - 2 - 19 = i - 29 := by omega
      by_cases h29 : i < 29
      · have : i - 10 < 19 := by omega
        simp [h8, h10, h29, h2, h3, this]
      · have : ¬ i - 10 < 19 := by omega
        simp only [h8, h10, h29, h2, h3, if_false, this]
        congr 1

/-- Bit i of a word (R90). -/
theorem getLsbD_layWord (i : Nat) : (layWord p ssm data sdi label).getLsbD i =
    if i < 31 then (lowBits ssm data sdi label).getLsbD i else (BitVec.ofBool p).getLsbD (i - 31) := by
  change (BitVec.ofBool p ++ lowBits ssm data sdi label).getLsbD i = _
  rw [BitVec.getLsbD_append]

@[simp] theorem wP_layWord : wP (layWord p ssm data sdi label) = p := by
  unfold wP
  rw [getLsbD_layWord]
  cases p <;> rfl

@[simp] theorem wSsm_layWord : wSsm (layWord p ssm data sdi label) = ssm := by
  apply BitVec.eq_of_getLsbD_eq
  intro i hi
  have h1 : 29 + i < 31 := by omega
  have h2 : ¬ 29 + i < 29 := by omega
  have h3 : ¬ 29 + i < 10 := by omega
  have h4 : ¬ 29 + i < 8 := by omega
  have h5 : 29 + i - 29 = i := by omega
  unfold wSsm
  rw [BitVec.getLsbD_extractLsb', getLsbD_layWord, getLsbD_lowBits]
  simp [hi, h1, h2, h3, h4, h5]

@[simp] theorem wData_layWord : wData (layWord p ssm data sdi label) = data := by
  apply BitVec.eq_of_getLsbD_eq
  intro i hi
  have h1 : 10 + i < 31 := by omega
  have h2 : 10 + i < 29 := by omega
  have h3 : ¬ 10 + i < 10 := by omega
  have h4 : ¬ 10 + i < 8 := by omega
  have h5 : 10 + i - 10 = i := by omega
  unfold wData
  rw [BitVec.getLsbD_extractLsb', getLsbD_layWord, getLsbD_lowBits]
  simp [hi, h1, h2, h3, h4, h5]

@[simp] theorem wSdi_layWord : wSdi (layWord p ssm data sdi label) = sdi := by
  apply BitVec.eq_of_getLsbD_eq
  intro i hi
  have h1 : 8 + i < 31 := by omega
  have h3 : 8 + i < 10 := by omega
  have h4 : ¬ 8 + i < 8 := by omega
  have h5 : 8 + i - 8 = i := by omega
  unfold wSdi
  rw [BitVec.getLsbD_extractLsb', getLsbD_layWord, getLsbD_lowBits]
  simp [hi, h1, h3, h4, h5]

/-- The label field holds the reversed label (R95). -/
theorem labelField_layWord : (layWord p ssm data sdi label).extractLsb' 0 8 = reverse8 label := by
  apply BitVec.eq_of_getLsbD_eq
  intro i hi
  have h1 : i < 31 := by omega
  rw [BitVec.getLsbD_extractLsb', getLsbD_layWord, getLsbD_lowBits]
  simp [hi, h1]

@[simp] theorem wLabel_layWord : wLabel (layWord p ssm data sdi label) = label := by
  unfold wLabel
  rw [labelField_layWord, reverse8_twice]

/-- A word is its five fields (R91). -/
theorem layWord_fields (w : Word) : layWord (wP w) (wSsm w) (wData w) (wSdi w) (wLabel w) = w := by
  apply BitVec.eq_of_getLsbD_eq
  intro i hi
  rw [getLsbD_layWord, getLsbD_lowBits]
  unfold wLabel
  rw [reverse8_twice]
  simp only [wSsm, wData, wSdi, BitVec.getLsbD_extractLsb']
  split
  · split
    · simp [*]
    · split
      · have : i - 8 < 2 := by omega
        have h : 8 + (i - 8) = i := by omega
        simp [this, h]
      · split
        · have : i - 10 < 19 := by omega
          have h : 10 + (i - 10) = i := by omega
          simp [this, h]
        · have : i - 29 < 2 := by omega
          have h : 29 + (i - 29) = i := by omega
          simp [this, h]
  · have : i = 31 := by omega
    subst this
    change (BitVec.ofBool (wP w)).getLsbD 0 = _
    unfold wP
    cases w.getLsbD 31 <;> rfl

end Fields

/-- The code byte is the top eight data bits (R98). -/
theorem wCode_eq (w : Word) : wCode w = (wData w).extractLsb' 11 8 := by
  apply BitVec.eq_of_getLsbD_eq
  intro i hi
  have h1 : 11 + i < 19 := by omega
  simp [wCode, wData, hi, h1, ← Nat.add_assoc]

/-- The argument is the ten data bits below the code (R99). -/
theorem wArg_eq (w : Word) : wArg w = (wData w).extractLsb' 1 10 := by
  apply BitVec.eq_of_getLsbD_eq
  intro i hi
  have h1 : 1 + i < 19 := by omega
  simp [wArg, wData, hi, h1, ← Nat.add_assoc]

/-- Bit 10 is the lowest data bit (R96). -/
theorem wB10_eq (w : Word) : wB10 w = (wData w).getLsbD 0 := by
  simp [wB10, wData]

/-- The payload is the data field without its lowest bit (R96). -/
theorem wPayload_eq (w : Word) : wPayload w = (wData w).extractLsb' 1 18 := by
  apply BitVec.eq_of_getLsbD_eq
  intro i hi
  have h1 : 1 + i < 19 := by omega
  simp [wPayload, wData, hi, h1, ← Nat.add_assoc]

/-- The high part of an append reads back. -/
theorem extract_append_hi {m n : Nat} (a : BitVec m) (b : BitVec n) : (a ++ b).extractLsb' n m = a := by
  apply BitVec.eq_of_getLsbD_eq
  intro i hi
  simp [BitVec.getLsbD_append, hi]

/-- A slice of an append that lies in the low part. -/
theorem extract_append_lo {m n : Nat} (a : BitVec m) (b : BitVec n) (k l : Nat) (h : k + l ≤ n) :
    (a ++ b).extractLsb' k l = b.extractLsb' k l := by
  apply BitVec.eq_of_getLsbD_eq
  intro i hi
  have : k + i < n := by omega
  simp [BitVec.getLsbD_append, hi, this]

/-- A slice of an append that lies in the high part. -/
theorem extract_append_up {m n : Nat} (a : BitVec m) (b : BitVec n) (k l : Nat) :
    (a ++ b).extractLsb' (n + k) l = a.extractLsb' k l := by
  apply BitVec.eq_of_getLsbD_eq
  intro i hi
  have h1 : ¬ n + k + i < n := by omega
  have h2 : n + k + i - n = k + i := by omega
  simp [BitVec.getLsbD_append, hi, h1, h2]

/-- A whole vector is its own full slice. -/
@[simp] theorem extract_full {n : Nat} (a : BitVec n) : a.extractLsb' 0 n = a := by
  apply BitVec.eq_of_getLsbD_eq
  intro i hi
  simp [hi]

/-! ### Data fields made of parts -/

section Parts
variable (code : BitVec 8) (arg : BitVec 10) (b : BitVec 1)

theorem code_of_parts : (code ++ arg ++ b : BitVec 19).extractLsb' 11 8 = code :=
  (extract_append_up (code ++ arg) b 10 8).trans (extract_append_hi code arg)

theorem arg_of_parts : (code ++ arg ++ b : BitVec 19).extractLsb' 1 10 = arg :=
  (extract_append_up (code ++ arg) b 0 10).trans ((extract_append_lo code arg 0 10 (by omega)).trans (extract_full arg))

theorem low_of_parts : (code ++ arg ++ b : BitVec 19).getLsbD 0 = b.getLsbD 0 := by
  rw [BitVec.getLsbD_append]
  simp

theorem payload_of_parts (hi : BitVec 2) (sub : BitVec 16) :
    (hi ++ sub ++ b : BitVec 19).extractLsb' 1 18 = hi ++ sub :=
  (extract_append_up (hi ++ sub) b 0 18).trans (extract_full (hi ++ sub))

end Parts

section Words
variable (h : RxBits) (label : Label) (sdi : BitVec 2) (code : BitVec 8) (arg : BitVec 10) (sub : BitVec 16)

@[simp] theorem wSsm_parityWord (data : BitVec 19) : wSsm (parityWord label sdi data) = 0#2 := wSsm_layWord ..
@[simp] theorem wSdi_parityWord (data : BitVec 19) : wSdi (parityWord label sdi data) = sdi := wSdi_layWord ..
@[simp] theorem wData_parityWord (data : BitVec 19) : wData (parityWord label sdi data) = data := wData_layWord ..
@[simp] theorem wLabel_parityWord (data : BitVec 19) : wLabel (parityWord label sdi data) = label := wLabel_layWord ..

@[simp] theorem wCode_ctl : wCode (parityWord label sdi (ctlData code arg)) = code := by
  rw [wCode_eq, wData_parityWord]; exact code_of_parts code arg 0#1

@[simp] theorem wArg_ctl : wArg (parityWord label sdi (ctlData code arg)) = arg := by
  rw [wArg_eq, wData_parityWord]; exact arg_of_parts code arg 0#1

@[simp] theorem wB10_ctl : wB10 (parityWord label sdi (ctlData code arg)) = false := by
  rw [wB10_eq, wData_parityWord]; exact low_of_parts code arg 0#1

@[simp] theorem wPayload_cntrl : wPayload (parityWord label sdi (cntrlData sub)) = 0#2 ++ sub := by
  rw [wPayload_eq, wData_parityWord]; exact payload_of_parts 0#1 0#2 sub

@[simp] theorem wB10_cntrl : wB10 (parityWord label sdi (cntrlData sub)) = false := by
  rw [wB10_eq, wData_parityWord]
  change (0#2 ++ sub ++ 0#1).getLsbD 0 = _
  rw [BitVec.getLsbD_append]
  simp

@[simp] theorem wCode_rxWord : wCode (rxWord h code arg) = code := by
  rw [wCode_eq, rxWord, wData_layWord]; exact code_of_parts code arg _

@[simp] theorem wArg_rxWord : wArg (rxWord h code arg) = arg := by
  rw [wArg_eq, rxWord, wData_layWord]; exact arg_of_parts code arg _

@[simp] theorem rxBits_rxWord : rxBits (rxWord h code arg) = h := by
  have hb : wB10 (rxWord h code arg) = h.b10 := by
    rw [wB10_eq, rxWord, wData_layWord]
    exact (low_of_parts code arg _).trans (by cases h.b10 <;> rfl)
  unfold rxBits
  rw [hb]
  simp [rxWord]

/-- `pack` in terms of its masked operands (R133). -/
theorem packWord_eq (mask : Label) (l s d : Nat) :
    packWord mask l s d = parityWord (BitVec.ofNat 8 l &&& mask) (BitVec.ofNat 2 s) (BitVec.ofNat 19 d) := rfl

/-- A control word is the word of its parts (R139). -/
theorem ctlWord_eq (mask : Label) (l : Nat) :
    ctlWord mask l code arg = parityWord (BitVec.ofNat 8 l &&& mask) 0#2 (ctlData code arg) := by
  simp [ctlWord, packWord]

/-- A CNTRL word is the word of its parts (R139). -/
theorem cntrlWord_eq (mask : Label) (l : Nat) :
    cntrlWord mask l sub = parityWord (BitVec.ofNat 8 l &&& mask) 0#2 (cntrlData sub) := by
  simp [cntrlWord, packWord]

/-- A DATA word is the word of its parts (R139). -/
theorem dataWord_eq (mask : Label) (l : Nat) (c0 c1 c2 : Char7) :
    dataWord mask l c0 c1 c2 = parityWord (BitVec.ofNat 8 l &&& mask)
      ((charBits c0 c1 c2).extractLsb' 0 2) ((charBits c0 c1 c2).extractLsb' 2 19) := by
  simp only [dataWord, packWord, BitVec.ofNat_toNat, BitVec.setWidth_eq]

end Words

/-- A slice of a DATA word's characters: bit i of the payload is bit i + 8 of the word (R104). -/
theorem getLsbD_dataWord (label : Label) (v : BitVec 21) (i : Nat) (hi : i < 21) :
    (parityWord label (v.extractLsb' 0 2) (v.extractLsb' 2 19)).getLsbD (8 + i) = v.getLsbD i := by
  have h1 : 8 + i < 31 := by omega
  have h2 : ¬ 8 + i < 8 := by omega
  have h3 : 8 + i < 29 := by omega
  unfold parityWord
  rw [getLsbD_layWord, getLsbD_lowBits]
  simp only [h1, h2, h3, if_true, if_false]
  split
  · have h4 : i < 2 := by omega
    simp [h4]
  · have h5 : 8 + i - 10 < 19 := by omega
    have h6 : 2 + (8 + i - 10) = i := by omega
    simp [h5, h6]

/-- The three characters read back (R104). -/
theorem chars_dataWord (label : Label) (v : BitVec 21) (k : Nat) (hk : k + 7 ≤ 21) :
    (parityWord label (v.extractLsb' 0 2) (v.extractLsb' 2 19)).extractLsb' (8 + k) 7 = v.extractLsb' k 7 := by
  apply BitVec.eq_of_getLsbD_eq
  intro i hi
  rw [BitVec.getLsbD_extractLsb', BitVec.getLsbD_extractLsb', Nat.add_assoc, getLsbD_dataWord _ _ _ (by omega)]

/-! ### A word is what its fields make -/

/-- Two neighbouring slices joined. -/
theorem extract_join {v : Nat} (x : BitVec v) (k m n : Nat) :
    x.extractLsb' (k + n) m ++ x.extractLsb' k n = x.extractLsb' k (m + n) := by
  apply BitVec.eq_of_getLsbD_eq
  intro i hi
  rw [BitVec.getLsbD_append]
  by_cases h : i < n
  · simp [h, hi]
  · have h1 : i - n < m := by omega
    have h2 : k + n + (i - n) = k + i := by omega
    simp [h, h1, h2, hi]

/-- The data field is code, argument and bit 10 (R98, R99). -/
theorem wData_parts (w : Word) : wData w = wCode w ++ wArg w ++ BitVec.ofBool (wB10 w) := by
  have h0 : BitVec.ofBool (wB10 w) = (wData w).extractLsb' 0 1 := by
    apply BitVec.eq_of_getLsbD_eq
    intro i hi
    have : i = 0 := by omega
    subst this
    simp [wB10_eq]
  rw [h0, wCode_eq, wArg_eq]
  rw [show (wData w).extractLsb' 11 8 ++ (wData w).extractLsb' 1 10 = (wData w).extractLsb' 1 18 from
    extract_join _ 1 8 10]
  exact ((extract_join (wData w) 0 18 1).trans (extract_full _)).symm

/-- An inbound word is the word of its bits, code and argument. -/
theorem rxWord_fields (w : Word) : rxWord (rxBits w) (wCode w) (wArg w) = w := by
  unfold rxWord rxBits
  simp only
  rw [← wData_parts]
  exact layWord_fields w

/-- A word of odd parity with SSM 0 is what `pack` makes of its fields (R132, R133). -/
theorem parityWord_fields {w : Word} (hp : popcount w % 2 = 1) (hs : wSsm w = 0#2) :
    parityWord (wLabel w) (wSdi w) (wData w) = w := by
  have h := layWord_fields w
  rw [hs] at h
  have hc : popcount w = popcount (lowBits 0#2 (wData w) (wSdi w) (wLabel w)) + (wP w).toNat := by
    conv_lhs => rw [← h]
    exact popcount_layWord _ _ _ _ _
  have hb : parityBit (lowBits 0#2 (wData w) (wSdi w) (wLabel w)) = wP w := by
    unfold parityBit
    cases hw : wP w <;> simp only [hw, Bool.toNat_false, Bool.toNat_true] at hc
    · simp; omega
    · simp; omega
  unfold parityWord
  rw [hb]
  exact h

end Sys2Proof.Machine
end

