-- ==== Sys2Proof/Laws/Sender.lean ====
section
/-! SUPPORT. Everything the record sender can do to an endpoint, said once: `Sent`. -/

namespace Sys2Proof.Machine

/-- A word that `pack` can make: odd parity, SSM 0 (R93, R134). -/
def Packed (w : Word) : Prop := popcount w % 2 = 1 ∧ wSsm w = 0#2

theorem packed_packWord (mask : Label) (label sdi data : Nat) : Packed (packWord mask label sdi data) :=
  ⟨popcount_parityWord _ _ _, by simp [packWord, parityWord]⟩

theorem packed_ctlWord (mask : Label) (label : Nat) (code : BitVec 8) (arg : BitVec 10) :
    Packed (ctlWord mask label code arg) := packed_packWord _ _ _ _

theorem packed_cntrlWord (mask : Label) (label : Nat) (sub : BitVec 16) :
    Packed (cntrlWord mask label sub) := packed_packWord _ _ _ _

theorem packed_dataWord (mask : Label) (label : Nat) (c0 c1 c2 : Char7) :
    Packed (dataWord mask label c0 c1 c2) := packed_packWord _ _ _ _

/-- Every word of a frame is packed. -/
theorem packed_frameWords {c : Config} {p : EpConfig} {label : Nat} {rec : TextRecord} {idx : OneBased} {isLast : Bool}
    {tag : Tag} {w : Word} (h : w ∈ frameWords c p label rec idx isLast tag) : Packed w := by
  simp only [frameWords, dataWords, List.mem_append, List.mem_cons, List.mem_map, List.not_mem_nil, or_false] at h
  rcases h with ((h | h) | ⟨j, -, h⟩) | h <;> subst h
  · exact packed_ctlWord _ _ _ _
  · exact packed_cntrlWord _ _ _
  · exact packed_dataWord _ _ _ _ _
  · exact packed_ctlWord _ _ _ _

/-- What sending records can do to an endpoint: packed words are appended to the outbound channel; each
of some Peeks moves its arrivals to the inbound queue; `lastTag` and `preferred` may change; nothing else. -/
structure Sent (E E' : Ep) : Prop where
  reg  : E'.reg = { E.reg with lastTag := E'.reg.lastTag, preferred := E'.reg.preferred }
  keys : E'.chan.keys = E.chan.keys
  out  : ∃ ws, E'.chan.outbound = E.chan.outbound ++ ws ∧ ∀ w ∈ ws, Packed w
  peeks : ∃ n, E'.chan.inbound = E.chan.inbound ++ (E.chan.arriving.take n).flatten ∧
    E'.chan.arriving = E.chan.arriving.drop n

theorem Sent.refl (E : Ep) : Sent E E :=
  ⟨rfl, rfl, ⟨[], by simp⟩, ⟨0, by simp⟩⟩

theorem Sent.trans {E1 E2 E3 : Ep} (h : Sent E1 E2) (h' : Sent E2 E3) : Sent E1 E3 := by
  obtain ⟨ws, hw, hp⟩ := h.out
  obtain ⟨ws', hw', hp'⟩ := h'.out
  obtain ⟨n, hn, ha⟩ := h.peeks
  obtain ⟨m, hm, hb⟩ := h'.peeks
  refine ⟨by rw [h'.reg, h.reg], h'.keys.trans h.keys, ⟨ws ++ ws', by simp [hw', hw], ?_⟩, ⟨n + m, ?_, ?_⟩⟩
  · intro w hmem
    rcases List.mem_append.1 hmem with hmem | hmem
    · exact hp w hmem
    · exact hp' w hmem
  · rw [hm, hn, ha, List.take_add]; simp
  · rw [hb, ha, List.drop_drop]

variable {c : Config} {p : EpConfig}

theorem emitFrame_sent (rec : TextRecord) (idx : OneBased) (isLast : Bool) (tag : Tag) (E : Ep) :
    Sent E (emitFrame c p rec idx isLast tag E) :=
  ⟨rfl, rfl, ⟨_, rfl, fun _ => packed_frameWords⟩, ⟨0, by simp [emitFrame]⟩⟩

theorem peek_sent (E : Ep) : Sent E E.peek := by
  refine ⟨rfl, rfl, ⟨[], by simp⟩, ⟨1, ?_, ?_⟩⟩
  · cases h : E.chan.arriving <;> simp [Ep.peeked, h]
  · simp

theorem lockTag_sent (tag : Tag) (E : Ep) : Sent E (lockTag tag E) :=
  ⟨rfl, rfl, ⟨[], by simp [lockTag]⟩, ⟨0, by simp [lockTag]⟩⟩

theorem secondAttempt_sent (rec : TextRecord) (idx : OneBased) (isLast : Bool) (tag : Tag) (E : Ep) :
    Sent E (secondAttempt c p rec idx isLast tag E).1 := by
  have h := (emitFrame_sent (c := c) (p := p) rec idx isLast tag E).trans (peek_sent _)
  simp only [secondAttempt]
  split
  · exact h
  · exact h.trans (lockTag_sent _ _)
  · exact h

/-- Everything send_record can do (R180, R186). -/
theorem sendRecord_sent (rec : TextRecord) (idx : OneBased) (isLast : Bool) (E : Ep) :
    Sent E (sendRecord c p rec idx isLast E).1 := by
  have h0 := emitFrame_sent (c := c) (p := p) rec idx isLast (firstTry c E.reg) E
  have h := h0.trans (peek_sent _)
  simp only [sendRecord]
  split
  · split
    · exact h.trans (secondAttempt_sent _ _ _ _ _)
    · exact h.trans (lockTag_sent _ _)
    · exact h
  · exact h0

/-- Everything transmitBatch can do (R249). -/
theorem transmitRecords_sent (rs : List (OneBased × TextRecord)) (E : Ep) :
    Sent E (transmitRecords c p rs E) := by
  induction rs generalizing E with
  | nil => exact .refl E
  | cons x rs ih =>
    obtain ⟨idx, rec⟩ := x
    cases rs with
    | nil => exact sendRecord_sent _ _ _ _
    | cons y rs => exact (sendRecord_sent _ _ _ _).trans (ih _)

theorem transmitBatch_sent (E : Ep) : Sent E (transmitBatch c p E) := transmitRecords_sent _ _

/-- Sending a record always writes the tag it sent (R182). -/
theorem sendRecord_lastTag (rec : TextRecord) (idx : OneBased) (isLast : Bool) (E : Ep) :
    (sendRecord c p rec idx isLast E).1.reg.lastTag ≠ none := by
  simp only [sendRecord, secondAttempt]
  split <;> (try split) <;> (try split) <;> simp [lockTag, emitFrame]

section Fields
variable {E E' : Ep} (h : Sent E E')
include h

theorem Sent.state : E'.reg.state = E.reg.state := by rw [h.reg]
theorem Sent.lock : E'.reg.lock = E.reg.lock := by rw [h.reg]
theorem Sent.mode : E'.reg.mode = E.reg.mode := by rw [h.reg]
theorem Sent.batch : E'.reg.batch = E.reg.batch := by rw [h.reg]
theorem Sent.queue : E'.reg.queue = E.reg.queue := by rw [h.reg]
theorem Sent.repeatCount : E'.reg.repeatCount = E.reg.repeatCount := by rw [h.reg]
theorem Sent.deadline : E'.reg.deadline = E.reg.deadline := by rw [h.reg]
theorem Sent.sdSent : E'.reg.sdSent = E.reg.sdSent := by rw [h.reg]
theorem Sent.spSent : E'.reg.spSent = E.reg.spSent := by rw [h.reg]
theorem Sent.spBuf : E'.reg.spBuf = E.reg.spBuf := by rw [h.reg]
theorem Sent.spPos : E'.reg.spPos = E.reg.spPos := by rw [h.reg]
theorem Sent.spDirty : E'.reg.spDirty = E.reg.spDirty := by rw [h.reg]
theorem Sent.lastHb : E'.reg.lastHb = E.reg.lastHb := by rw [h.reg]
theorem Sent.prevFrame : E'.reg.prevFrame = E.reg.prevFrame := by rw [h.reg]

/-- The outbound label does not change while records are sent (R49). -/
theorem Sent.outLabel (p : EpConfig) : outLabel p E'.reg = outLabel p E.reg := by
  unfold Machine.outLabel; rw [h.lock]

end Fields

end Sys2Proof.Machine
end

