-- ==== Sys2Proof/Laws/Tick.lean ====
section
/-! SUPPORT. The parts of an endpoint's tick (R220): what the keypresses, the heartbeat and the tick as a
whole do to the endpoint. -/

namespace Sys2Proof.Machine

open Host (Outcome)

variable {s : State} {ch : Nat} {c : Config} {p : EpConfig} {E : Ep} {now : Time} {A : List Rx}

/-- The DC1 words of A. -/
def keysOf (A : List Rx) : List Rx := A.filter fun r => decide (r.kind = .dc1)

/-- Everything the keypresses of a tick do (R225): the registers but `spDirty`, the queues, the words and
the keys in order. -/
theorem keypresses_eq (c : Config) (p : EpConfig) (A : List Rx) (E : Ep) :
    keypresses c p A E =
      { reg  := { E.reg with spDirty := E.reg.spDirty || dc1In A }
        chan := { E.chan with
          outbound := E.chan.outbound ++
            List.replicate (keysOf A).length (ctlWord c.labelMask (outLabel p E.reg) codeACK 0#10)
          keys     := E.chan.keys ++ (keysOf A).map fun r => dc1Key r.word } } := by
  have hdc : dc1In A = decide (keysOf A ≠ []) := by
    rw [Bool.eq_iff_iff, dc1In_iff]
    simp [keysOf, List.filter_eq_nil_iff]
  rw [hdc]
  unfold keypresses
  rw [← keysOf]
  generalize keysOf A = ks
  induction ks generalizing E with
  | nil => simp
  | cons k ks ih =>
    rw [List.foldl_cons, ih]
    simp [keypress, outLabel, List.replicate_succ, Ep.mapReg, Ep.hostKey, Ep.send]

/-- The heartbeat writes one register (R275). -/
theorem heartbeat_reg (c : Config) (p : EpConfig) (now : Time) (E : Ep) :
    (heartbeat c p now E).reg = { E.reg with lastHb := (heartbeat c p now E).reg.lastHb } := by
  unfold heartbeat; split <;> rfl

/-- The tick row: its outcome, and the endpoint afterwards. -/
theorem exec_tickEndpoint (he : s.ep? ch = some (p, E)) (now : Time) :
    exec (.tickEndpoint ch now) s = .next ((s.setEp ch (tickEndpoint s.cfg p now E)).answer .nothing) ∧
    ((s.setEp ch (tickEndpoint s.cfg p now E)).answer .nothing).ep? ch = some (p, tickEndpoint s.cfg p now E) :=
  ⟨by simp only [exec, execTickEndpoint, doEp_eq he], (State.answer_ep _ _ _).trans (ep_setEp_self he _)⟩

/-- Instructions in sequence. -/
theorem execAll_append (xs ys : List Instr) (s : State) :
    execAll (xs ++ ys) s =
      match execAll xs s with
      | .next t => execAll ys t
      | .fault f => .fault f
      | .refused r => .refused r := by
  induction xs generalizing s with
  | nil => rfl
  | cons x xs ih =>
    simp only [List.cons_append, execAll]
    cases exec x s <;> simp [ih]

/-- The DC1 words of A come from the drained batch in order (R82). -/
theorem keysOf_acceptedOf (c : Config) (p : EpConfig) (B : List Word) :
    keysOf (acceptedOf c p B) =
      (B.filter fun w => decide (classify c p w = some ⟨.dc1, w⟩)).map fun w => ⟨.dc1, w⟩ := by
  unfold keysOf
  induction B with
  | nil => rfl
  | cons w B ih =>
    unfold acceptedOf at *
    cases h : classify c p w with
    | none => simp [h, ih]
    | some r =>
      have hr := classify_word h
      rw [hr] at h
      by_cases hk : r.kind = .dc1 <;> simp [h, hk, ih]

/-- The keypress rows of a tick, one after another: the endpoint becomes what the keypresses make of it. -/
theorem execAll_keypresses (ch : Nat) (ws : List Word) (s : State) (E : Ep) (he : s.ep? ch = some (p, E)) :
    ∃ t, execAll (ws.map fun w => Instr.keypress ch w) s = .next t ∧
      t.answer .nothing = (s.setEp ch (ws.foldl (fun E w => keypress s.cfg p w E) E)).answer .nothing := by
  induction ws generalizing s E with
  | nil => exact ⟨s, rfl, by simp [setEp_same he]⟩
  | cons w ws ih =>
    obtain ⟨t, h1, h2⟩ := ih ((s.setEp ch (keypress s.cfg p w E)).answer .nothing) (keypress s.cfg p w E)
      ((State.answer_ep _ _ _).trans (ep_setEp_self he _))
    refine ⟨t, ?_, h2.trans (by simp [State.setEp, State.answer])⟩
    simp only [List.map_cons, execAll, exec, execKeypress, doEp_eq he]
    exact h1

/-- The row of the handler of an endpoint's state (R220 step 5): the endpoint becomes what the handler
makes of it. -/
theorem exec_handlerRow (he : s.ep? ch = some (p, E)) (now : Time) (B : List Word) :
    exec (match E.reg.state with
      | .idle => Instr.idleHandler ch B
      | .rts => if E.reg.rtsSent then .ctsHandler ch B else .rtsHandler ch
      | .sendData => if E.reg.sdSent then .senddataResponses ch now B else .senddataTransmit ch now
      | .scratchpad => .scratchpadHandler ch now B) s =
      .next ((s.setEp ch (runHandler s.cfg p now (acceptedOf s.cfg p B) E)).answer .nothing) := by
  unfold runHandler
  cases E.reg.state with
  | idle => simp only [exec, execIdleHandler, doEp_eq he]
  | rts => cases h : E.reg.rtsSent <;> simp [exec, execRtsHandler, execCtsHandler, doEp_eq he, rtsHandler, h]
  | sendData =>
    cases h : E.reg.sdSent <;>
      simp [exec, execSenddataTransmit, execSenddataResponses, doEp_eq he, senddataHandler, h]
  | scratchpad => simp only [exec, execScratchpadHandler, doEp_eq he]

end Sys2Proof.Machine
end

