-- ==== Sys2Proof/Laws/Handlers.lean ====
section
/-! SUPPORT. Everything any handler of a tick can do outside its own registers, said once: `Handled`. -/

namespace Sys2Proof.Machine

/-- What a handler leaves alone or only adds to: the heartbeat time and the stored Frame are unchanged,
no key is handed over, packed words are appended to the outbound channel, and each of some Peeks moves
its arrivals to the inbound queue. -/
structure Handled (E E' : Ep) : Prop where
  lastHb    : E'.reg.lastHb = E.reg.lastHb
  prevFrame : E'.reg.prevFrame = E.reg.prevFrame
  keys      : E'.chan.keys = E.chan.keys
  out       : ∃ ws, E'.chan.outbound = E.chan.outbound ++ ws ∧ ∀ w ∈ ws, Packed w
  peeks     : ∃ n, E'.chan.inbound = E.chan.inbound ++ (E.chan.arriving.take n).flatten ∧
    E'.chan.arriving = E.chan.arriving.drop n

variable {c : Config} {p : EpConfig} {now : Time} {A : List Rx} {E E' E'' : Ep}

theorem Sent.handled (h : Sent E E') : Handled E E' := ⟨h.lastHb, h.prevFrame, h.keys, h.out, h.peeks⟩

/-- A change of the registers alone, but for the two that no handler writes. -/
theorem Handled.regs {E' : Ep} (hc : E'.chan = E.chan) (hl : E'.reg.lastHb = E.reg.lastHb)
    (hp : E'.reg.prevFrame = E.reg.prevFrame) : Handled E E' :=
  ⟨hl, hp, by rw [hc], ⟨[], by simp [hc]⟩, ⟨0, by simp [hc]⟩⟩

theorem Handled.refl (E : Ep) : Handled E E := .regs rfl rfl rfl

theorem Handled.trans (h : Handled E E') (h' : Handled E' E'') : Handled E E'' := by
  obtain ⟨ws, hw, hp⟩ := h.out
  obtain ⟨ws', hw', hp'⟩ := h'.out
  obtain ⟨n, hn, ha⟩ := h.peeks
  obtain ⟨m, hm, hb⟩ := h'.peeks
  refine ⟨h'.lastHb.trans h.lastHb, h'.prevFrame.trans h.prevFrame, h'.keys.trans h.keys,
    ⟨ws ++ ws', by simp [hw', hw], ?_⟩, ⟨n + m, ?_, ?_⟩⟩
  · intro w hmem
    rcases List.mem_append.1 hmem with hmem | hmem
    · exact hp w hmem
    · exact hp' w hmem
  · rw [hm, hn, ha, List.take_add]; simp
  · rw [hb, ha, List.drop_drop]

theorem idleHandler_handled : Handled E (idleHandler c A E) := by
  unfold idleHandler
  split
  · exact .regs rfl rfl rfl
  · unfold idleToScratchpad
    split
    · exact .regs rfl rfl rfl
    · exact .refl E

theorem rtsHandler_handled : Handled E (rtsHandler c p A E) := by
  unfold rtsHandler
  split
  · next h =>
    rw [ctsHandler, if_pos h]
    cases firstOf .cts A with
    | none => exact .refl E
    | some r =>
      simp only [acceptCts]
      split <;> exact .regs rfl rfl rfl
  · unfold rtsTransmit
    split
    · exact .refl E
    · split
      · exact .refl E
      · exact ⟨rfl, rfl, rfl, ⟨_, rfl, by simpa using packed_ctlWord _ _ _ _⟩, ⟨0, by simp⟩⟩

theorem exhaust_handled : Handled E (exhaust E) := .regs rfl rfl rfl

theorem retry_handled : Handled E (retry c p now E) := by
  unfold retry
  split
  · have h1 : Handled E (E.mapReg fun r => { flipPreferred r with repeatCount := r.repeatCount + 1 }) :=
      .regs rfl rfl rfl
    exact (h1.trans (transmitBatch_sent (c := c) (p := p) _).handled).trans (.regs rfl rfl rfl)
  · exact exhaust_handled

theorem ackData_handled : Handled E (ackData E) := by
  unfold ackData
  simp only
  split <;> exact .regs rfl rfl rfl

theorem senddataHandler_handled : Handled E (senddataHandler c p now A E) := by
  unfold senddataHandler
  split
  · next h =>
    rw [senddataResponses, if_pos h]
    split
    · exact retry_handled
    · split
      · exact ackData_handled
      · split
        · exact retry_handled
        · exact .refl E
  · unfold senddataTransmit
    split
    · exact .refl E
    · exact (transmitBatch_sent (c := c) (p := p) E).handled.trans (.regs rfl rfl rfl)

theorem sendChar_handled : Handled E (sendChar c p now E) :=
  (sendRecord_sent (c := c) (p := p) (scratchpadRecord c E.reg) { before := 0 } true E).handled.trans
    (.regs rfl rfl rfl)

theorem sendOrFinish_handled : Handled E (sendOrFinish c p now E) := by
  unfold sendOrFinish
  split
  · exact .regs rfl rfl rfl
  · exact sendChar_handled

theorem spRetry_handled : Handled E (spRetry c p now E) := by
  unfold spRetry
  split
  · refine Handled.trans (E' := E.mapReg fun r => { flipPreferred r with repeatCount := r.repeatCount + 1 }) ?_
      sendChar_handled
    exact .regs rfl rfl rfl
  · exact .regs rfl rfl rfl

theorem scratchpadRun_handled : Handled E (scratchpadRun c p now A E) := by
  unfold scratchpadRun
  split
  · split
    · exact spRetry_handled
    · split
      · refine Handled.trans (E' := E.mapReg fun r =>
          { lockIn r with spPos := r.spPos + 1, spSent := false, repeatCount := 0 }) ?_ sendOrFinish_handled
        exact .regs rfl rfl rfl
      · split
        · exact spRetry_handled
        · exact .refl E
  · exact sendOrFinish_handled

theorem scratchpadHandler_handled : Handled E (scratchpadHandler c p now A E) := by
  unfold scratchpadHandler
  refine .trans ?_ scratchpadRun_handled
  split
  · exact .regs rfl rfl rfl
  · exact .refl E

/-- Everything the handler of a tick can do outside its own registers (R222). -/
theorem runHandler_handled : Handled E (runHandler c p now A E) := by
  unfold runHandler
  split
  · exact idleHandler_handled
  · exact rtsHandler_handled
  · exact senddataHandler_handled
  · exact scratchpadHandler_handled

end Sys2Proof.Machine
end

