-- ==== Sys2Proof/Laws/Queue.lean ====
section
/-! SUPPORT. The pending-line FIFO: what an ingest adds and what prepare_batch takes. -/

namespace Sys2Proof.Machine

/-- Pushing lines that do not repeat appends those that are not pending already, in order (R202, D63). -/
theorem foldl_pushLine {xs : List Nat} (hx : xs.Nodup) (q : List Nat) :
    xs.foldl pushLine q = q ++ xs.filter (fun i => decide (i ∉ q)) := by
  induction xs generalizing q with
  | nil => simp
  | cons x xs ih =>
    obtain ⟨hx1, hx2⟩ := List.nodup_cons.1 hx
    rw [List.foldl_cons, ih hx2, pushLine]
    split
    · next h => simp [h]
    · next h =>
      rw [List.filter_cons_of_pos (by simpa using h), List.append_assoc, List.singleton_append]
      congr 2
      refine List.filter_congr fun y hy => ?_
      have : y ≠ x := fun e => hx1 (e ▸ hy)
      simp [this]

/-- The lines an ingest adds to the queue. -/
def addedLines (lines : Nat) (old : Option Frame) (new : Frame) (q : List Nat) : List Nat :=
  ((List.range' 1 lines).filter (lineChanged old new)).filter fun i => decide (i ∉ q)

theorem queueChanges_eq (lines : Nat) (old : Option Frame) (new : Frame) (q : List Nat) :
    queueChanges lines old new q = q ++ addedLines lines old new q :=
  foldl_pushLine (List.Nodup.filter _ List.nodup_range') _

theorem mem_addedLines {lines : Nat} {old : Option Frame} {new : Frame} {q : List Nat} {n : Nat} :
    n ∈ addedLines lines old new q ↔ 1 ≤ n ∧ n ≤ lines ∧ lineChanged old new n = true ∧ n ∉ q := by
  simp only [addedLines, List.mem_filter, List.mem_range'_1, decide_eq_true_eq]
  constructor
  · rintro ⟨⟨h1, h2⟩, h3⟩
    exact ⟨h1.1, by omega, h2, h3⟩
  · rintro ⟨h1, h2, h3, h4⟩
    exact ⟨⟨⟨h1, by omega⟩, h3⟩, h4⟩

theorem addedLines_pairwise (lines : Nat) (old : Option Frame) (new : Frame) (q : List Nat) :
    (addedLines lines old new q).Pairwise (· < ·) :=
  ((List.pairwise_lt_range' (s := 1) (n := lines)).filter _).filter _

theorem addedLines_nodup (lines : Nat) (old : Option Frame) (new : Frame) (q : List Nat) :
    (addedLines lines old new q).Nodup :=
  (List.Nodup.filter _ List.nodup_range').filter _

/-- A line does not differ from itself (R203). -/
theorem differs_self (a : LineRender) : differs a a = false := by simp [differs]

theorem differs_iff (a b : LineRender) :
    differs a b = true ↔ a.text ≠ b.text ∨ a.color ≠ b.color ∨ a.attr ≠ b.attr := by
  simp [differs, or_assoc]

/-- A checked host line gives a line within the bounds (R200). -/
theorem lineOk_renderLine {chars : Nat} {l : HostLine} (h : hostLineOk chars l = true) :
    lineOk chars (renderLine l) = true := by
  simp only [hostLineOk, Bool.and_eq_true, decide_eq_true_eq] at h
  obtain ⟨⟨⟨⟨⟨h1, -⟩, -⟩, h4⟩, h5⟩, -⟩ := h
  simp only [lineOk, renderLine, oneBased, colOf, List.length_map, Bool.and_eq_true, decide_eq_true_eq]
  exact ⟨h1, decide_eq_true (show l.col - 1 + 1 ≤ chars by omega)⟩

/-- A checked host Frame gives a Frame within the bounds (R200). -/
theorem frameOk_renderFrame {lines chars : Nat} {f : HostFrame} (h : hostFrameOk lines chars f = true) :
    (renderFrame f).length = lines ∧ ∀ l ∈ renderFrame f, lineOk chars l = true := by
  simp only [hostFrameOk, Bool.and_eq_true, decide_eq_true_eq, List.all_eq_true] at h
  refine ⟨by simpa [renderFrame] using h.1, ?_⟩
  simp only [renderFrame, List.mem_map]
  rintro l ⟨x, hx, rfl⟩
  exact lineOk_renderLine (h.2 x hx)

/-- Line i of a Frame that has it (R200). -/
theorem frameLine_eq {F : Frame} {i : Nat} {l : LineRender} (h1 : 1 ≤ i) (h : F[i - 1]? = some l) :
    frameLine F i = l := by
  simp [frameLine, h]; omega

/-- Stripping spaces leaves a prefix, and what is dropped are spaces (R53). -/
theorem stripSpaces_spec (text : List Char7) :
    (∃ n, text = stripSpaces text ++ List.replicate n 0x20#7) ∧ (stripSpaces text).getLast? ≠ some 0x20#7 := by
  constructor
  · refine ⟨(text.reverse.takeWhile fun x => x = 0x20#7).length, ?_⟩
    have h := List.takeWhile_append_dropWhile (p := fun x => decide (x = 0x20#7)) (l := text.reverse)
    have hrep : text.reverse.takeWhile (fun x => decide (x = 0x20#7)) =
        List.replicate (text.reverse.takeWhile fun x => decide (x = 0x20#7)).length 0x20#7 :=
      List.eq_replicate_iff.2 ⟨rfl, fun x hx => by simpa using List.mem_takeWhile_imp hx⟩
    have h' := congrArg List.reverse h
    rw [List.reverse_append, List.reverse_reverse] at h'
    conv_lhs => rw [← h', hrep]
    simp [stripSpaces]
  · rw [stripSpaces, List.getLast?_reverse]
    intro h
    have := List.head?_dropWhile_not (fun x => decide (x = 0x20#7)) text.reverse
    rw [h] at this
    simp at this

theorem stripSpaces_length (text : List Char7) : (stripSpaces text).length ≤ text.length := by
  obtain ⟨⟨n, h⟩, -⟩ := stripSpaces_spec text
  have := congrArg List.length h
  simp at this
  omega

end Sys2Proof.Machine
end

