-- ==== Sys2Proof/Laws/Legal.lean ====
section
/-! SUPPORT. The operations of an endpoint keep its registers legal (`RegsInv`) and the words on its
outbound channel well packed. -/

namespace Sys2Proof.Machine

/-- A legal endpoint with a legal channel. -/
structure EpOk (c : Config) (last : Option Time) (E : Ep) : Prop where
  reg  : RegsInv c last E.reg
  sent : sentOk E.chan

variable {c : Config} {p : EpConfig} {now : Time} {last : Option Time} {E E' : Ep} {A : List Rx}

/-- A later tick is later for every recorded time. -/
theorem notAfter_mono {t l l' : Option Time} (h : ∀ x, l = some x → ∃ y, l' = some y ∧ x ≤ y) (ht : notAfter t l) :
    notAfter t l' := by
  intro x hx
  obtain ⟨n, hn, hle⟩ := ht x hx
  obtain ⟨m, hm, hle'⟩ := h n hn
  exact ⟨m, hm, hle.trans hle'⟩

theorem RegsInv.mono {r : Regs} {l l' : Option Time} (h : ∀ x, l = some x → ∃ y, l' = some y ∧ x ≤ y)
    (hr : RegsInv c l r) : RegsInv c l' r :=
  { hr with
    lastHb_past := notAfter_mono h hr.lastHb_past
    deadline_armed := fun d hd => by
      obtain ⟨n, hn, hle⟩ := hr.deadline_armed d hd
      obtain ⟨m, hm, hle'⟩ := h n hn
      exact ⟨m, hm, hle.trans (Nat.add_le_add_right hle' _)⟩ }

theorem RegsInv.reset (c : Config) (l : Option Time) : RegsInv c l Regs.reset := by
  constructor <;> simp [Regs.reset, notAfter]

theorem sentOk_append {k : Channel} {ws : List Word} (hk : sentOk k) (hw : ∀ w ∈ ws, Packed w) :
    ∀ w ∈ k.outbound ++ ws, popcount w % 2 = 1 ∧ wSsm w = 0#2 := by
  intro w h
  rcases List.mem_append.1 h with h | h
  · exact hk w h
  · exact hw w h

/-- Sending records keeps an endpoint legal. -/
theorem Sent.ok (h : Sent E E') (hE : EpOk c last E) : EpOk c last E' := by
  obtain ⟨ws, hw, hp⟩ := h.out
  refine ⟨?_, by intro w hmem; rw [hw] at hmem; exact sentOk_append hE.sent hp w hmem⟩
  rw [h.reg]
  exact ⟨hE.reg.1, hE.reg.2, hE.reg.3, hE.reg.4, hE.reg.5, hE.reg.6, hE.reg.7, hE.reg.8, hE.reg.9, hE.reg.10,
    hE.reg.11, hE.reg.12, hE.reg.13, hE.reg.14, hE.reg.15, hE.reg.16, hE.reg.17, hE.reg.18⟩

theorem send_ok {w : Word} (hw : Packed w) (hE : EpOk c last E) : EpOk c last (E.send w) :=
  ⟨hE.reg, sentOk_append hE.sent (by simpa using hw)⟩

/-- A change of the registers alone. -/
theorem mapReg_ok {f : Regs → Regs} (hE : EpOk c last E) (hf : RegsInv c last (f E.reg)) : EpOk c last (E.mapReg f) :=
  ⟨hf, hE.sent⟩

theorem keypress_ok {w : Word} (hE : EpOk c last E) : EpOk c last (keypress c p w E) := by
  refine ⟨?_, sentOk_append hE.sent (by simpa using packed_ctlWord _ _ _ _)⟩
  have h := hE.reg
  exact ⟨h.1, h.2, h.3, h.4, h.5, h.6, h.7, h.8, h.9, h.10, h.11, h.12, h.13, h.14, h.15, h.16, h.17, h.18⟩

theorem keypresses_ok (A : List Rx) (hE : EpOk c last E) : EpOk c last (keypresses c p A E) := by
  unfold keypresses
  generalize A.filter _ = ks
  induction ks generalizing E with
  | nil => exact hE
  | cons k ks ih => exact ih (keypress_ok hE)

theorem heartbeat_ok (hE : EpOk c (some now) E) : EpOk c (some now) (heartbeat c p now E) := by
  unfold heartbeat
  split
  · refine mapReg_ok (send_ok (packed_ctlWord _ _ _ _) hE) ?_
    have h := hE.reg
    exact { h with lastHb_past := fun x hx => ⟨now, rfl, by cases hx; exact le_rfl⟩ }
  · exact hE

theorem armDeadline_armed : ∀ d, some (now + c.ackTimeoutMs) = some d → ∃ n, some now = some n ∧ d ≤ n + c.ackTimeoutMs := by
  rintro d ⟨⟩; exact ⟨now, rfl, le_rfl⟩

/-- The scratchpad text is within a line (R53, R200). -/
theorem scratchpadText_le {r : Regs} (h : RegsInv c last r) (h1 : 1 ≤ c.scratchpadLine)
    (h2 : c.scratchpadLine ≤ c.frameLines) : (scratchpadText c r).length ≤ c.lineChars := by
  unfold scratchpadText
  split
  · next F hF =>
    obtain ⟨hl, hall⟩ := h.frame_ok F hF
    have hi : c.scratchpadLine - 1 < F.length := by omega
    rw [frameLine_eq h1 (List.getElem?_eq_getElem hi)]
    have := hall _ (List.getElem_mem hi)
    simp only [lineOk, Bool.and_eq_true, decide_eq_true_eq] at this
    exact (stripSpaces_length _).trans this.1
  · simp

theorem enterRTS_ok (hE : EpOk c last E) (hb : E.reg.batch = []) (hd : E.reg.deadline = none) :
    EpOk c last (enterRTS E) := by
  have h := hE.reg
  refine mapReg_ok hE ?_
  constructor
  all_goals first
    | exact h.queue_nodup | exact h.queue_range | exact h.queue_frame | exact h.frame_ok | exact h.repeat_le
    | exact h.spBuf_le | exact h.spPos_le | exact h.lastHb_past | simp [hb, hd]

theorem enterScratchpad_ok (hE : EpOk c last E) (hb : E.reg.batch = []) : EpOk c last (enterScratchpad c E) := by
  have h := hE.reg
  refine mapReg_ok hE ?_
  constructor
  all_goals first
    | exact h.queue_nodup | exact h.queue_range | exact h.queue_frame | exact h.frame_ok
    | exact scratchpadText_le h | exact h.reqCount_le | exact h.lastHb_past | simp [hb]

theorem restartScratchpad_ok (hE : EpOk c last E) (hs : E.reg.state = .scratchpad) :
    EpOk c last (restartScratchpad c E) := by
  have h := hE.reg
  have hb : E.reg.batch = [] := h.batch_held (by simp [hs])
  refine mapReg_ok hE ?_
  constructor
  all_goals first
    | exact h.queue_nodup | exact h.queue_range | exact h.queue_frame | exact h.frame_ok
    | exact scratchpadText_le h | exact h.reqCount_le | exact h.lastHb_past | simp [hb, hs]

/-- Ending a sequence in Idle with nothing held. -/
theorem toIdle_ok {r' : Regs} (h : RegsInv c last E.reg) (hE : sentOk E.chan)
    (hq : r'.queue = E.reg.queue) (hf : r'.prevFrame = E.reg.prevFrame) (hr : r'.repeatCount = E.reg.repeatCount)
    (hb : r'.spBuf = E.reg.spBuf) (hp : r'.spPos = E.reg.spPos) (hba : r'.batch = []) (hc : r'.reqCount = E.reg.reqCount)
    (hs : r'.state = .idle) (hd : r'.deadline = none) (hl : r'.lastHb = E.reg.lastHb) :
    EpOk c last { E with reg := r' } := by
  refine ⟨?_, hE⟩
  constructor
  · rw [hq]; exact h.queue_nodup
  · rw [hq]; exact h.queue_range
  · rw [hq, hf]; exact h.queue_frame
  · rw [hf]; exact h.frame_ok
  · rw [hr]; exact h.repeat_le
  · rw [hb]; exact h.spBuf_le
  · rw [hb, hp]; exact h.spPos_le
  · simp [hba]
  · simp [hba]
  · rw [hc]; exact h.reqCount_le
  · simp [hba]
  · simp [hs]
  · simp [hd]
  · simp [hs]
  · simp [hs]
  · simp [hs]
  · rw [hl]; exact h.lastHb_past
  · simp [hd]

theorem finishScratchpad_ok (hE : EpOk c last E) (hs : E.reg.state = .scratchpad) :
    EpOk c last (finishScratchpad E) :=
  toIdle_ok hE.reg hE.sent rfl rfl rfl rfl rfl (hE.reg.batch_held (by simp [hs])) rfl rfl rfl rfl

theorem spExhaust_ok (hE : EpOk c last E) (hs : E.reg.state = .scratchpad) : EpOk c last (spExhaust E) :=
  toIdle_ok hE.reg hE.sent rfl rfl rfl rfl rfl (hE.reg.batch_held (by simp [hs])) rfl rfl rfl rfl

theorem exhaust_ok (hE : EpOk c last E) : EpOk c last (exhaust E) :=
  toIdle_ok hE.reg hE.sent rfl rfl rfl rfl rfl rfl rfl rfl rfl rfl

theorem acceptEnq_ok {w : Word} (hE : EpOk c last E) (hs : E.reg.state = .idle) : EpOk c last (acceptEnq w E) := by
  have h := hE.reg
  refine enterRTS_ok (mapReg_ok hE ?_) (h.batch_held (by simp [hs])) (h.deadline_off (.inl hs))
  exact ⟨h.1, h.2, h.3, h.4, h.5, h.6, h.7, h.8, h.9, h.10, h.11, h.12, h.13, h.14, h.15, h.16, h.17, h.18⟩

theorem idleHandler_ok (hE : EpOk c last E) (hs : E.reg.state = .idle) : EpOk c last (idleHandler c A E) := by
  unfold idleHandler
  split
  · exact acceptEnq_ok hE hs
  · unfold idleToScratchpad
    split
    · exact enterScratchpad_ok hE (hE.reg.batch_held (by simp [hs]))
    · exact hE

theorem plannedCount_le (r : Regs) (cap : Nat) : plannedCount r cap ≤ max 1 cap := by
  unfold plannedCount
  split
  · omega
  · split <;> omega

theorem rtsCount_le (r : Regs) : rtsCount c r ≤ max 1 c.recordCap := by
  unfold rtsCount
  split
  · omega
  · exact plannedCount_le r _

theorem rtsTransmit_ok (hE : EpOk c last E) : EpOk c last (rtsTransmit c p E) := by
  unfold rtsTransmit
  split
  · exact hE
  · split
    · exact hE
    · refine mapReg_ok (send_ok (packed_ctlWord _ _ _ _) hE) ?_
      exact { hE.reg with reqCount_le := rtsCount_le _ }

theorem numbered_fst (rs : List TextRecord) : (numbered rs).map Prod.fst = (List.range rs.length).map OneBased.mk := by
  apply List.ext_getElem? ; intro i
  simp only [numbered, List.getElem?_map, List.getElem?_mapIdx]
  by_cases h : i < rs.length
  · simp [h]
  · simp [h]

/-- A CTS is acted on: Idle with nothing, or SendData with a batch (R242, R243). -/
theorem acceptCts_ok {w : Word} (hE : EpOk c last E) (hs : E.reg.state = .rts) : EpOk c last (acceptCts w E) := by
  have h := hE.reg
  have hd := h.deadline_off (.inr hs)
  have hb := h.batch_held (by simp [hs])
  have hdrop : ∀ {n : Nat} {i : Nat}, i ∈ E.reg.queue.drop n → i ∈ E.reg.queue := fun hi => List.mem_of_mem_drop hi
  have hnod : ∀ n, (E.reg.queue.drop n).Nodup := fun n => (List.drop_sublist n _).nodup h.queue_nodup
  have hfr : ∀ n, E.reg.prevFrame = none → E.reg.queue.drop n = [] := fun n hn => by simp [h.queue_frame hn]
  unfold acceptCts
  simp only
  generalize hn : min E.reg.reqCount (ctsMax w) = n
  have hlen : (batchRecords E.reg n).length ≤ max 1 c.recordCap := by
    have := h.reqCount_le
    simp only [batchRecords, List.length_map, List.length_take]
    omega
  split
  · refine mapReg_ok hE ?_
    constructor
    all_goals first
      | exact hnod n | exact fun i hi => h.queue_range i (hdrop hi) | exact hfr n | exact h.frame_ok
      | exact h.repeat_le | exact h.spBuf_le | exact h.spPos_le | exact h.lastHb_past | exact h.reqCount_le
      | simp [popBatch, hb, hd]
  · next hne =>
    refine mapReg_ok hE ?_
    constructor
    all_goals first
      | exact hnod n | exact fun i hi => h.queue_range i (hdrop hi) | exact hfr n | exact h.frame_ok
      | exact h.spBuf_le | exact h.spPos_le | exact h.lastHb_past | exact h.reqCount_le
      | exact (numbered_fst _).trans (by simp [numbered])
      | (simpa only [popBatch, numbered, List.length_mapIdx] using hlen)
      | simp [popBatch, numbered, List.mapIdx_eq_nil_iff, hne]

theorem rtsHandler_ok (hE : EpOk c last E) (hs : E.reg.state = .rts) : EpOk c last (rtsHandler c p A E) := by
  unfold rtsHandler
  split
  · next hr =>
    rw [ctsHandler, if_pos hr]
    split
    · exact acceptCts_ok hE hs
    · exact hE
  · exact rtsTransmit_ok hE

/-- SendData after a transmission (R247, R251). -/
theorem sentData_ok {r : Regs} {k : Nat} (h : RegsInv c (some now) r) (hs : r.state = .sendData)
    (hk : k ≤ c.maxRetries) :
    RegsInv c (some now) { r with sdSent := true, repeatCount := k, deadline := some (now + c.ackTimeoutMs) } :=
  { h with
    repeat_le := hk
    deadline_off := by simp [hs]
    deadline_send := by simp
    deadline_char := by simp [hs]
    deadline_armed := armDeadline_armed }

/-- Scratchpad after a character was sent (R256). -/
theorem sentChar_ok {r : Regs} (h : RegsInv c (some now) r) (hs : r.state = .scratchpad)
    (hp : r.spPos < r.spBuf.length) :
    RegsInv c (some now) { r with spSent := true, deadline := some (now + c.ackTimeoutMs) } :=
  { h with
    deadline_off := by simp [hs]
    deadline_send := by simp [hs]
    deadline_char := by simp
    char_sent := fun _ _ => hp
    deadline_armed := armDeadline_armed }

theorem senddataTransmit_ok (hE : EpOk c (some now) E) (hs : E.reg.state = .sendData) :
    EpOk c (some now) (senddataTransmit c p now E) := by
  unfold senddataTransmit
  split
  · exact hE
  · have hS := transmitBatch_sent (c := c) (p := p) E
    have h := sentData_ok (hS.ok hE).reg (hS.state.trans hs) (Nat.zero_le _)
    exact ⟨h, (hS.ok hE).sent⟩

theorem retry_ok (hE : EpOk c (some now) E) (hs : E.reg.state = .sendData) (hd : E.reg.sdSent = true) :
    EpOk c (some now) (retry c p now E) := by
  unfold retry
  split
  · next hlt =>
    have h1 : EpOk c (some now) (E.mapReg fun r => { flipPreferred r with repeatCount := r.repeatCount + 1 }) :=
      mapReg_ok hE { hE.reg with repeat_le := hlt }
    have hS := transmitBatch_sent (c := c) (p := p) (E.mapReg fun r => { flipPreferred r with repeatCount := r.repeatCount + 1 })
    refine mapReg_ok (hS.ok h1) ?_
    have h2 := sentData_ok (hS.ok h1).reg (hS.state.trans hs) (hS.ok h1).reg.repeat_le
    rw [← hS.sdSent.trans hd] at h2
    exact h2
  · exact exhaust_ok hE

theorem ackData_ok (hE : EpOk c last E) : EpOk c last (ackData E) := by
  have h := hE.reg
  unfold ackData
  simp only
  split
  · refine ⟨?_, hE.sent⟩
    constructor
    all_goals first
      | exact h.queue_nodup | exact h.queue_range | exact h.queue_frame | exact h.frame_ok | exact h.repeat_le
      | exact h.spBuf_le | exact h.spPos_le | exact h.lastHb_past | simp [enterRTS, lockIn]
  · exact toIdle_ok (E := E) h hE.sent rfl rfl rfl rfl rfl rfl rfl rfl rfl rfl

theorem senddataHandler_ok (hE : EpOk c (some now) E) (hs : E.reg.state = .sendData) :
    EpOk c (some now) (senddataHandler c p now A E) := by
  unfold senddataHandler
  split
  · next hd =>
    unfold senddataResponses
    rw [if_pos hd]
    split
    · exact retry_ok hE hs hd
    · split
      · exact ackData_ok hE
      · split
        · exact retry_ok hE hs hd
        · exact hE
  · exact senddataTransmit_ok hE hs

/-- The registers with no character awaiting its ACK: what both ends of a character's sending overwrite. -/
def unsent (r : Regs) : Regs := { r with spSent := false, deadline := none }

theorem unsent_ok {r : Regs} (h : RegsInv c last r) (hs : r.state = .scratchpad) : RegsInv c last (unsent r) :=
  { h with
    deadline_off := by simp [unsent]
    deadline_send := by simp [unsent, hs]
    deadline_char := by simp [unsent]
    char_sent := by simp [unsent]
    deadline_armed := by simp [unsent] }

theorem sendChar_ok (hu : RegsInv c (some now) (unsent E.reg)) (hc : sentOk E.chan) (hs : E.reg.state = .scratchpad)
    (hp : E.reg.spPos < E.reg.spBuf.length) : EpOk c (some now) (sendChar c p now E) := by
  have hS := sendRecord_sent (c := c) (p := p) (scratchpadRecord c E.reg) { before := 0 } true E
  have hu' : RegsInv c (some now) (unsent (sendRecord c p (scratchpadRecord c E.reg) { before := 0 } true E).1.reg) := by
    rw [hS.reg]
    exact ⟨hu.1, hu.2, hu.3, hu.4, hu.5, hu.6, hu.7, hu.8, hu.9, hu.10,
      hu.11, hu.12, hu.13, hu.14, hu.15, hu.16, hu.17, hu.18⟩
  have h := sentChar_ok hu' (hS.state.trans hs) (by show _ < _; simp only [unsent]; rw [hS.spPos, hS.spBuf]; exact hp)
  refine ⟨h, ?_⟩
  obtain ⟨ws, hw, hp⟩ := hS.out
  intro w hmem
  exact sentOk_append hc hp w (by rw [← hw]; exact hmem)

theorem sendOrFinish_ok (hu : RegsInv c (some now) (unsent E.reg)) (hc : sentOk E.chan) (hs : E.reg.state = .scratchpad)
    (hd : E.reg.spSent = false) : EpOk c (some now) (sendOrFinish c p now E) := by
  unfold sendOrFinish
  split
  · have := toIdle_ok (E := { E with reg := unsent E.reg }) (r' := { unsent E.reg with state := .idle }) hu hc
      rfl rfl rfl rfl rfl (hu.batch_held (by simp [unsent, hs])) rfl rfl rfl rfl
    simp only [unsent] at this
    rw [← hd] at this
    exact this
  · next h => exact sendChar_ok hu hc hs (by omega)

theorem spRetry_ok (hE : EpOk c (some now) E) (hs : E.reg.state = .scratchpad) (hd : E.reg.spSent = true) :
    EpOk c (some now) (spRetry c p now E) := by
  unfold spRetry
  split
  · next hlt =>
    have h1 : RegsInv c (some now) { flipPreferred E.reg with repeatCount := E.reg.repeatCount + 1 } :=
      { hE.reg with repeat_le := hlt }
    exact sendChar_ok (unsent_ok h1 hs) hE.sent hs (hE.reg.char_sent hs hd)
  · exact spExhaust_ok hE hs

theorem spAck_ok (hE : EpOk c (some now) E) (hs : E.reg.state = .scratchpad) (hd : E.reg.spSent = true) :
    EpOk c (some now) (spAck c p now E) := by
  have h := unsent_ok hE.reg hs
  have h1 : RegsInv c (some now) (unsent { lockIn E.reg with
      spPos := E.reg.spPos + 1, spSent := false, repeatCount := 0 }) :=
    { h with
      repeat_le := Nat.zero_le _
      spPos_le := hE.reg.char_sent hs hd
      char_sent := by simp [unsent] }
  exact sendOrFinish_ok h1 hE.sent hs rfl

theorem scratchpadHandler_ok (hE : EpOk c (some now) E) (hs : E.reg.state = .scratchpad) :
    EpOk c (some now) (scratchpadHandler c p now A E) := by
  have key : ∀ E : Ep, EpOk c (some now) E → E.reg.state = .scratchpad → EpOk c (some now) (scratchpadRun c p now A E) := by
    intro E hE hs
    unfold scratchpadRun
    split
    · next hd =>
      split
      · exact spRetry_ok hE hs hd
      · split
        · exact spAck_ok hE hs hd
        · split
          · exact spRetry_ok hE hs hd
          · exact hE
    · next hd => exact sendOrFinish_ok (unsent_ok hE.reg hs) hE.sent hs (by simpa using hd)
  unfold scratchpadHandler
  split
  · exact key _ (restartScratchpad_ok hE hs) hs
  · exact key _ hE hs

theorem drain_ok (hE : EpOk c last E) : EpOk c last E.drain := ⟨hE.reg, hE.sent⟩

theorem keypress_state {w : Word} : (keypress c p w E).reg.state = E.reg.state := rfl

theorem runHandler_ok (hE : EpOk c (some now) E) : EpOk c (some now) (runHandler c p now A E) := by
  unfold runHandler
  split
  · next h => exact idleHandler_ok hE h
  · next h => exact rtsHandler_ok hE h
  · next h => exact senddataHandler_ok hE h
  · next h => exact scratchpadHandler_ok hE h

/-- A tick keeps an endpoint legal. -/
theorem tickEndpoint_ok (hE : EpOk c (some now) E) : EpOk c (some now) (tickEndpoint c p now E) :=
  heartbeat_ok (runHandler_ok (keypresses_ok _ (drain_ok hE)))

/-- An ingest keeps an endpoint legal (R200, R202). -/
theorem ingest_ok {F : Frame} (hF : F.length = c.frameLines ∧ ∀ l ∈ F, lineOk c.lineChars l = true)
    (hE : EpOk c last E) : EpOk c last (ingest c F E) := by
  have h := hE.reg
  refine mapReg_ok hE ?_
  refine { h with queue_nodup := ?_, queue_range := ?_, queue_frame := by simp, frame_ok := by simpa using hF }
  · simp only [queueChanges_eq]
    refine List.Nodup.append h.queue_nodup (addedLines_nodup _ _ _ _) ?_
    intro n hn hm
    exact (mem_addedLines.1 hm).2.2.2 hn
  · simp only [queueChanges_eq, List.mem_append]
    rintro n (hn | hn)
    · exact h.queue_range n hn
    · exact ⟨(mem_addedLines.1 hn).1, (mem_addedLines.1 hn).2.1⟩

end Sys2Proof.Machine
end

