-- ==== Sys2Proof/Laws/Manager.lean ====
section
/-! SUPPORT. What ticking every endpoint does to each of them (R271), and what the reset of the
channels keeps. -/

namespace Sys2Proof.Machine

variable {f : Config → EpConfig → Ep → Ep} {s t : State}

@[simp] theorem updateEp_eps_length (ch : Nat) : (s.updateEp ch f).eps.length = s.eps.length := by
  unfold State.updateEp; split <;> simp

@[simp] theorem updateEp_chans_length (ch : Nat) : (s.updateEp ch f).chans.length = s.chans.length := by
  unfold State.updateEp; split <;> simp

/-- Every endpoint and every channel is legal. -/
def AllOk (last : Option Time) (s : State) : Prop :=
  (∀ r ∈ s.eps, RegsInv s.cfg last r) ∧ ∀ k ∈ s.chans, sentOk k

theorem AllOk.ep {last : Option Time} (h : AllOk last s) {ch : Nat} {p : EpConfig} {E : Ep}
    (he : s.ep? ch = some (p, E)) : EpOk s.cfg last E := by
  obtain ⟨-, h2, h3⟩ := ep_eq_some.1 he
  exact ⟨h.1 _ (List.mem_of_getElem? h2), h.2 _ (List.mem_of_getElem? h3)⟩

theorem AllOk.setEp {last : Option Time} (h : AllOk last s) (ch : Nat) {E : Ep} (hE : EpOk s.cfg last E) :
    AllOk last (s.setEp ch E) := by
  constructor
  · intro r hr
    rcases List.mem_or_eq_of_mem_set hr with hr | rfl
    · exact h.1 r hr
    · exact hE.reg
  · intro k hk
    rcases List.mem_or_eq_of_mem_set hk with hk | rfl
    · exact h.2 k hk
    · exact hE.sent

theorem AllOk.updateEp {last : Option Time} (h : AllOk last s) (ch : Nat)
    (hf : ∀ p E, EpOk s.cfg last E → EpOk s.cfg last (f s.cfg p E)) : AllOk last (s.updateEp ch f) := by
  unfold State.updateEp
  split
  · exact h
  · next p E he => exact h.setEp ch (hf p E (h.ep he))

section Fold
variable (xs : List Nat)

@[simp] theorem foldl_updateEp_cfg : (xs.foldl (fun t e => t.updateEp e f) s).cfg = s.cfg := by
  induction xs generalizing s <;> simp_all
@[simp] theorem foldl_updateEp_inputs : (xs.foldl (fun t e => t.updateEp e f) s).inputs = s.inputs := by
  induction xs generalizing s <;> simp_all
@[simp] theorem foldl_updateEp_eps_length : (xs.foldl (fun t e => t.updateEp e f) s).eps.length = s.eps.length := by
  induction xs generalizing s <;> simp_all
@[simp] theorem foldl_updateEp_chans_length :
    (xs.foldl (fun t e => t.updateEp e f) s).chans.length = s.chans.length := by
  induction xs generalizing s <;> simp_all

theorem foldl_updateEp_ok {last : Option Time} (h : AllOk last s)
    (hf : ∀ p E, EpOk s.cfg last E → EpOk s.cfg last (f s.cfg p E)) :
    AllOk last (xs.foldl (fun t e => t.updateEp e f) s) := by
  induction xs generalizing s with
  | nil => exact h
  | cons x xs ih => exact ih (h.updateEp x hf) (by simpa using hf)

/-- Every endpoint of the list makes its own step from its own state; the others are as before (R32). -/
theorem foldl_updateEp_ep (hx : xs.Nodup) (e : Nat) :
    (xs.foldl (fun t e => t.updateEp e f) s).ep? e =
      if e ∈ xs then (s.ep? e).map fun x => (x.1, f s.cfg x.1 x.2) else s.ep? e := by
  induction xs generalizing s with
  | nil => simp
  | cons x xs ih =>
    obtain ⟨h1, h2⟩ := List.nodup_cons.1 hx
    rw [List.foldl_cons, ih h2]
    by_cases hex : e = x
    · subst hex
      simp [h1, updateEp_self]
    · simp [hex, updateEp_ne hex]

end Fold

/-- The endpoints after the manager loop (R271). -/
theorem tickAll_ep (now : Time) {e : Nat} {p : EpConfig} {E : Ep} (h : s.ep? e = some (p, E)) :
    (tickAll now s).ep? e = some (p, tickEndpoint s.cfg p now E) := by
  have he : e < s.cfg.endpoints.length := (List.getElem?_eq_some_iff.1 (ep_eq_some.1 h).1).1
  rw [tickAll, foldl_updateEp_ep _ List.nodup_range]
  simp [he, h]

@[simp] theorem tickAll_cfg (now : Time) : (tickAll now s).cfg = s.cfg := by simp [tickAll]
@[simp] theorem tickAll_inputs (now : Time) : (tickAll now s).inputs = s.inputs := by simp [tickAll]
@[simp] theorem tickAll_eps_length (now : Time) : (tickAll now s).eps.length = s.eps.length := by simp [tickAll]
@[simp] theorem tickAll_chans_length (now : Time) : (tickAll now s).chans.length = s.chans.length := by simp [tickAll]

theorem tickAll_ok {now : Time} (h : AllOk (some now) s) : AllOk (some now) (tickAll now s) :=
  foldl_updateEp_ok _ h fun _ _ hE => tickEndpoint_ok hE

end Sys2Proof.Machine
end

