-- ==== Sys2Proof/Laws/PerInstr.lean ====
section
/-! SUPPORT. The per-instruction family RoundTrip: the decoder reads from the word the encoder writes,
at the place where the instruction's word stands, the instruction itself. -/

namespace Sys2Proof.Laws.RoundTrip

open Sys2Proof.Machine

/-- The word of an instruction, read where it stands, is the instruction; an operation has no word. -/
def Statement (i : Instr) : Prop :=
  ∀ ctx w, ctxOf i = some ctx → encode i = some w → decode ctx w = .ok i

/-- An operation has no word, so there is nothing to read. -/
theorem noWord {i : Instr} (h : encode i = none) : Statement i := by
  intro ctx w _ hw
  rw [h] at hw
  cases hw

/-- One word at one place is enough. -/
theorem ofWord {i : Instr} {ctx : WordCtx} {w : Word} (hc : ctxOf i = some ctx) (he : encode i = some w)
    (hd : decode ctx w = .ok i) : Statement i := by
  intro ctx' w' hc' he'
  rw [hc] at hc'; rw [he] at he'
  cases hc'; cases he'
  exact hd

theorem modeOf_modeBit (mode : Mode) (x : BitVec 1) (tgt : Label) :
    modeOf ((x ++ modeBit mode ++ tgt : BitVec 10).getLsbD 8) = mode := by
  rw [BitVec.getLsbD_append, BitVec.getLsbD_append]
  cases mode <;> rfl

theorem modeOf_rtsArg (mode : Mode) (count : BitVec 6) : modeOf ((rtsArg mode count).getLsbD 8) = mode := by
  change modeOf ((0#1 ++ modeBit mode ++ 0#2 ++ count).getLsbD 8) = mode
  rw [BitVec.getLsbD_append, BitVec.getLsbD_append, BitVec.getLsbD_append]
  cases mode <;> rfl

theorem zero_rtsArg (mode : Mode) (count : BitVec 6) :
    (rtsArg mode count).getLsbD 9 = false ∧ (rtsArg mode count).extractLsb' 6 2 = 0#2 := by
  constructor
  · change (0#1 ++ modeBit mode ++ 0#2 ++ count).getLsbD 9 = false
    rw [BitVec.getLsbD_append, BitVec.getLsbD_append, BitVec.getLsbD_append]
    cases mode <;> rfl
  · exact (extract_append_up (0#1 ++ modeBit mode ++ 0#2) count 0 2).trans
      ((extract_append_lo (0#1 ++ modeBit mode) 0#2 0 2 (by omega)).trans (extract_full 0#2))

theorem count_rtsArg (mode : Mode) (count : BitVec 6) : (rtsArg mode count).extractLsb' 0 6 = count :=
  (extract_append_lo (0#1 ++ modeBit mode ++ 0#2) count 0 6 (by omega)).trans (extract_full count)

theorem enq (ch : Nat) (stamp : Time) (h : RxBits) (x : BitVec 1) (mode : Mode) (tgt : Label) : Statement (.enq ch stamp h x mode tgt) :=
  ofWord rfl rfl (by
    have h1 : (x ++ modeBit mode ++ tgt : BitVec 10).extractLsb' 9 1 = x :=
      (extract_append_up (x ++ modeBit mode) tgt 1 1).trans (extract_append_hi x (modeBit mode))
    have h2 : (x ++ modeBit mode ++ tgt : BitVec 10).extractLsb' 0 8 = tgt :=
      (extract_append_lo (x ++ modeBit mode) tgt 0 8 (by omega)).trans (extract_full tgt)
    simp only [decode, decodeInbound, rxKindOf, wCode_rxWord, wArg_rxWord, rxBits_rxWord, if_true]
    rw [h1, h2, modeOf_modeBit])

theorem dc1 (ch : Nat) (stamp : Time) (h : RxBits) (x : BitVec 3) (key : Char7) : Statement (.dc1 ch stamp h x key) :=
  ofWord rfl rfl (by
    have h1 : (x ++ key : BitVec 10).extractLsb' 7 3 = x := extract_append_hi x key
    have h2 : (x ++ key : BitVec 10).extractLsb' 0 7 = key :=
      (extract_append_lo x key 0 7 (by omega)).trans (extract_full key)
    have h3 : codeDC1 ≠ codeENQ := by decide
    simp only [decode, decodeInbound, rxKindOf, wCode_rxWord, wArg_rxWord, rxBits_rxWord, if_true, if_neg h3]
    rw [h1, h2])

theorem cts (ch : Nat) (stamp : Time) (h : RxBits) (x : BitVec 4) (max : BitVec 6) : Statement (.cts ch stamp h x max) :=
  ofWord rfl rfl (by
    have h1 : (x ++ max : BitVec 10).extractLsb' 6 4 = x := extract_append_hi x max
    have h2 : (x ++ max : BitVec 10).extractLsb' 0 6 = max :=
      (extract_append_lo x max 0 6 (by omega)).trans (extract_full max)
    have hk : ∀ a, rxKindOf (rxWord h codeCTS a) = some .cts := by
      intro a; unfold rxKindOf; rw [wCode_rxWord]; rfl
    simp only [decode, decodeInbound, hk, wArg_rxWord, rxBits_rxWord]
    rw [h1, h2])

theorem ackIn (ch : Nat) (stamp : Time) (h : RxBits) (x : BitVec 10) : Statement (.ackIn ch stamp h x) :=
  ofWord rfl rfl (by
    have hk : rxKindOf (rxWord h codeACK x) = some .ack := by
      unfold rxKindOf; rw [wCode_rxWord]; rfl
    simp only [decode, decodeInbound, hk, wArg_rxWord, rxBits_rxWord])

theorem nack (ch : Nat) (stamp : Time) (h : RxBits) (x : BitVec 10) : Statement (.nack ch stamp h x) :=
  ofWord rfl rfl (by
    have hk : rxKindOf (rxWord h codeNACK x) = some .nack := by
      unfold rxKindOf; rw [wCode_rxWord]; rfl
    simp only [decode, decodeInbound, hk, wArg_rxWord, rxBits_rxWord])

theorem syn (ch : Nat) (stamp : Time) (h : RxBits) (x : BitVec 10) : Statement (.syn ch stamp h x) :=
  ofWord rfl rfl (by
    have hk : rxKindOf (rxWord h codeSYN x) = some .syn := by
      unfold rxKindOf; rw [wCode_rxWord]; rfl
    simp only [decode, decodeInbound, hk, wArg_rxWord, rxBits_rxWord])

theorem rts (ch : Nat) (label : Label) (count : BitVec 6) (mode : Mode) : Statement (.rts ch label count mode) :=
  ofWord rfl rfl (by
    simp only [decode, decodeControl, wSsm_parityWord, wB10_ctl, wSdi_parityWord, wCode_ctl, wArg_ctl, wLabel_parityWord]
    rw [(zero_rtsArg mode count).1, (zero_rtsArg mode count).2, count_rtsArg, modeOf_rtsArg]
    rfl)

theorem stx (ch : Nat) (label : Label) (idx wc : BitVec 5) : Statement (.stx ch label idx wc) :=
  ofWord rfl rfl (by
    simp only [decode, decodeControl, wSsm_parityWord, wB10_ctl, wSdi_parityWord, wCode_ctl, wArg_ctl, wLabel_parityWord]
    have h1 : (stxArg idx wc).extractLsb' 5 5 = idx := extract_append_hi idx wc
    have h2 : (stxArg idx wc).extractLsb' 0 5 = wc :=
      (extract_append_lo idx wc 0 5 (by omega)).trans (extract_full wc)
    rw [h1, h2]
    rfl)

theorem etx (ch : Nat) (label : Label) : Statement (.etx ch label) :=
  ofWord rfl rfl (by
    simp only [decode, decodeControl, wSsm_parityWord, wB10_ctl, wSdi_parityWord, wCode_ctl, wArg_ctl, wLabel_parityWord]
    rfl)

theorem eot (ch : Nat) (label : Label) : Statement (.eot ch label) :=
  ofWord rfl rfl (by
    simp only [decode, decodeControl, wSsm_parityWord, wB10_ctl, wSdi_parityWord, wCode_ctl, wArg_ctl, wLabel_parityWord]
    rfl)

theorem ackOut (ch : Nat) (label : Label) : Statement (.ackOut ch label) :=
  ofWord rfl rfl (by
    simp only [decode, decodeControl, wSsm_parityWord, wB10_ctl, wSdi_parityWord, wCode_ctl, wArg_ctl, wLabel_parityWord]
    rfl)

theorem hb (ch : Nat) (label : Label) (addr : Label) : Statement (.hb ch label addr) :=
  ofWord rfl rfl (by
    simp only [decode, decodeControl, wSsm_parityWord, wB10_ctl, wSdi_parityWord, wCode_ctl, wArg_ctl, wLabel_parityWord]
    have h1 : (hbArg addr).extractLsb' 8 2 = 0#2 := extract_append_hi 0#2 addr
    have h2 : (hbArg addr).extractLsb' 0 8 = addr :=
      (extract_append_lo 0#2 addr 0 8 (by omega)).trans (extract_full addr)
    rw [h1, h2]
    rfl)

theorem cntrlA (ch : Nat) (label : Label) (color : BitVec 3) (line : BitVec 5) (attr : BitVec 3) (col : BitVec 5) : Statement (.cntrlA ch label color line attr col) :=
  ofWord rfl rfl (by
    have h0 : ∀ sub : BitVec 16, (0#2 ++ sub : BitVec 18).extractLsb' 16 2 = 0#2 := fun sub => extract_append_hi 0#2 sub
    have hs : ∀ (sub : BitVec 16) k l, k + l ≤ 16 → (0#2 ++ sub : BitVec 18).extractLsb' k l = sub.extractLsb' k l :=
      fun sub k l hkl => extract_append_lo 0#2 sub k l hkl
    have h1 : (subA color line attr col).extractLsb' 13 3 = color :=
      (extract_append_up (color ++ line ++ attr) col 8 3).trans
        ((extract_append_up (color ++ line) attr 5 3).trans (extract_append_hi color line))
    have h2 : (subA color line attr col).extractLsb' 8 5 = line :=
      (extract_append_up (color ++ line ++ attr) col 3 5).trans
        ((extract_append_up (color ++ line) attr 0 5).trans
          ((extract_append_lo color line 0 5 (by omega)).trans (extract_full line)))
    have h3 : (subA color line attr col).extractLsb' 5 3 = attr :=
      (extract_append_up (color ++ line ++ attr) col 0 3).trans
        ((extract_append_lo (color ++ line) attr 0 3 (by omega)).trans (extract_full attr))
    have h4 : (subA color line attr col).extractLsb' 0 5 = col :=
      (extract_append_lo (color ++ line ++ attr) col 0 5 (by omega)).trans (extract_full col)
    simp only [decode, decodeCntrl, wSsm_parityWord, wB10_cntrl, wSdi_parityWord, wPayload_cntrl, wLabel_parityWord, h0]
    rw [hs _ 13 3 (by omega), hs _ 8 5 (by omega), hs _ 5 3 (by omega), hs _ 0 5 (by omega), h1, h2, h3, h4]
    rfl)

theorem cntrlB (ch : Nat) (label : Label) (color : BitVec 3) (count : BitVec 4) (function : BitVec 3) (line : BitVec 5) : Statement (.cntrlB ch label color count function line) :=
  ofWord rfl rfl (by
    have h0 : ∀ sub : BitVec 16, (0#2 ++ sub : BitVec 18).extractLsb' 16 2 = 0#2 := fun sub => extract_append_hi 0#2 sub
    have hs : ∀ (sub : BitVec 16) k l, k + l ≤ 16 → (0#2 ++ sub : BitVec 18).extractLsb' k l = sub.extractLsb' k l :=
      fun sub k l hkl => extract_append_lo 0#2 sub k l hkl
    have hb : (0#2 ++ subB color count function line : BitVec 18).getLsbD 15 = false := by
      rw [BitVec.getLsbD_append]
      change (subB color count function line).getLsbD 15 = false
      change (0#1 ++ color ++ count ++ function ++ line).getLsbD 15 = false
      rw [BitVec.getLsbD_append, BitVec.getLsbD_append, BitVec.getLsbD_append, BitVec.getLsbD_append]
      rfl
    have h1 : (subB color count function line).extractLsb' 12 3 = color :=
      (extract_append_up (0#1 ++ color ++ count ++ function) line 7 3).trans
        ((extract_append_up (0#1 ++ color ++ count) function 4 3).trans
          ((extract_append_up (0#1 ++ color) count 0 3).trans
            ((extract_append_lo 0#1 color 0 3 (by omega)).trans (extract_full color))))
    have h2 : (subB color count function line).extractLsb' 8 4 = count :=
      (extract_append_up (0#1 ++ color ++ count ++ function) line 3 4).trans
        ((extract_append_up (0#1 ++ color ++ count) function 0 4).trans
          ((extract_append_lo (0#1 ++ color) count 0 4 (by omega)).trans (extract_full count)))
    have h3 : (subB color count function line).extractLsb' 5 3 = function :=
      (extract_append_up (0#1 ++ color ++ count ++ function) line 0 3).trans
        ((extract_append_lo (0#1 ++ color ++ count) function 0 3 (by omega)).trans (extract_full function))
    have h4 : (subB color count function line).extractLsb' 0 5 = line :=
      (extract_append_lo (0#1 ++ color ++ count ++ function) line 0 5 (by omega)).trans (extract_full line)
    simp only [decode, decodeCntrl, wSsm_parityWord, wB10_cntrl, wSdi_parityWord, wPayload_cntrl, wLabel_parityWord, h0]
    rw [hb, hs _ 12 3 (by omega), hs _ 8 4 (by omega), hs _ 5 3 (by omega), hs _ 0 5 (by omega), h1, h2, h3, h4]
    rfl)

theorem data (ch : Nat) (label : Label) (c0 c1 c2 : Char7) : Statement (.data ch label c0 c1 c2) :=
  ofWord rfl rfl (by
    have h0 : (charBits c0 c1 c2).extractLsb' 0 7 = c0 :=
      (extract_append_lo (c2 ++ c1) c0 0 7 (by omega)).trans (extract_full c0)
    have h1 : (charBits c0 c1 c2).extractLsb' 7 7 = c1 :=
      (extract_append_up (c2 ++ c1) c0 0 7).trans ((extract_append_lo c2 c1 0 7 (by omega)).trans (extract_full c1))
    have h2 : (charBits c0 c1 c2).extractLsb' 14 7 = c2 :=
      (extract_append_up (c2 ++ c1) c0 7 7).trans (extract_append_hi c2 c1)
    have e0 := chars_dataWord label (charBits c0 c1 c2) 0 (by omega)
    have e1 := chars_dataWord label (charBits c0 c1 c2) 7 (by omega)
    have e2 := chars_dataWord label (charBits c0 c1 c2) 14 (by omega)
    simp only [Nat.reduceAdd, Nat.add_zero] at e0 e1 e2
    simp only [decode, decodeData, wSsm_parityWord, wLabel_parityWord, e0, e1, e2, h0, h1, h2]
    rfl)

theorem reverseBits (x : BitVec 8) : Statement (.reverseBits x) := noWord rfl

theorem parity (v : BitVec 31) : Statement (.parity v) := noWord rfl

theorem pack (label sdi data : Nat) : Statement (.pack label sdi data) := noWord rfl

theorem unpack (w : Word) : Statement (.unpack w) := noWord rfl

theorem parityCheck (w : Word) : Statement (.parityCheck w) := noWord rfl

theorem encodeA (color line attr col : Nat) : Statement (.encodeA color line attr col) := noWord rfl

theorem encodeB (color count function line : Nat) : Statement (.encodeB color count function line) := noWord rfl

theorem cntrlSub (tag : Tag) (record : TextRecord) (col : OneBased) (k : Nat) : Statement (.cntrlSub tag record col k) := noWord rfl

theorem selectOrder (ch : Nat) : Statement (.selectOrder ch) := noWord rfl

theorem sendRecord (ch : Nat) (record : TextRecord) (idx : Int) (isLast : Bool) : Statement (.sendRecord ch record idx isLast) := noWord rfl

theorem emitFrame (ch : Nat) (record : TextRecord) (idx : OneBased) (isLast : Bool) (tag : Tag) : Statement (.emitFrame ch record idx isLast tag) := noWord rfl

theorem peek (ch : Nat) : Statement (.peek ch) := noWord rfl

theorem ingest (ch : Nat) (frame : HostFrame) : Statement (.ingest ch frame) := noWord rfl

theorem hostSupply (ch : Nat) (frame : HostFrame) : Statement (.hostSupply ch frame) := noWord rfl

theorem differs (a b : LineRender) : Statement (.differs a b) := noWord rfl

theorem pendingCount (ch : Nat) : Statement (.pendingCount ch) := noWord rfl

theorem getPlannedRecordCount (ch : Nat) (cap : Nat) : Statement (.getPlannedRecordCount ch cap) := noWord rfl

theorem prepareBatch (ch : Nat) (n : Nat) : Statement (.prepareBatch ch n) := noWord rfl

theorem tickEndpoint (ch : Nat) (now : Time) : Statement (.tickEndpoint ch now) := noWord rfl

theorem keypress (ch : Nat) (w : Word) : Statement (.keypress ch w) := noWord rfl

theorem idleHandler (ch : Nat) (batch : List Word) : Statement (.idleHandler ch batch) := noWord rfl

theorem acceptEnq (ch : Nat) (w : Word) : Statement (.acceptEnq ch w) := noWord rfl

theorem enterRTS (ch : Nat) : Statement (.enterRTS ch) := noWord rfl

theorem idleToScratchpad (ch : Nat) : Statement (.idleToScratchpad ch) := noWord rfl

theorem rtsHandler (ch : Nat) : Statement (.rtsHandler ch) := noWord rfl

theorem ctsHandler (ch : Nat) (batch : List Word) : Statement (.ctsHandler ch batch) := noWord rfl

theorem senddataTransmit (ch : Nat) (now : Time) : Statement (.senddataTransmit ch now) := noWord rfl

theorem senddataResponses (ch : Nat) (now : Time) (batch : List Word) : Statement (.senddataResponses ch now batch) := noWord rfl

theorem transmitBatch (ch : Nat) : Statement (.transmitBatch ch) := noWord rfl

theorem ackData (ch : Nat) : Statement (.ackData ch) := noWord rfl

theorem retry (ch : Nat) (now : Time) : Statement (.retry ch now) := noWord rfl

theorem exhaust (ch : Nat) : Statement (.exhaust ch) := noWord rfl

theorem timeout (ch : Nat) (now : Time) : Statement (.timeout ch now) := noWord rfl

theorem enterScratchpad (ch : Nat) : Statement (.enterScratchpad ch) := noWord rfl

theorem sendChar (ch : Nat) (now : Time) : Statement (.sendChar ch now) := noWord rfl

theorem scratchpadHandler (ch : Nat) (now : Time) (batch : List Word) : Statement (.scratchpadHandler ch now batch) := noWord rfl

theorem restartScratchpad (ch : Nat) : Statement (.restartScratchpad ch) := noWord rfl

theorem finishScratchpad (ch : Nat) : Statement (.finishScratchpad ch) := noWord rfl

theorem spAck (ch : Nat) (now : Time) : Statement (.spAck ch now) := noWord rfl

theorem spRetry (ch : Nat) (now : Time) : Statement (.spRetry ch now) := noWord rfl

theorem spExhaust (ch : Nat) : Statement (.spExhaust ch) := noWord rfl

theorem engineTick (now : Time) (ready : Bool) : Statement (.engineTick now ready) := noWord rfl

theorem heartbeat (ch : Nat) (now : Time) : Statement (.heartbeat ch now) := noWord rfl

theorem reset (cfg : Config) : Statement (.reset cfg) := noWord rfl

end Sys2Proof.Laws.RoundTrip
end

