-- ==== Sys2Proof/Laws/Step.lean ====
section
/-! SUPPORT. The shapes of operation that a step carries out keep a legal state legal, one lemma per
shape; and every word that decodes is an event an outside agent can cause. -/

namespace Sys2Proof.Machine

open Host (Outcome)

variable {s t : State}

/-- A change of endpoints, channels and answer that keeps them legal. -/
theorem Inv.ofAllOk (h : Inv s) (hc : t.cfg = s.cfg) (he : t.eps.length = s.eps.length)
    (hk : t.chans.length = s.chans.length) (hi : t.inputs = s.inputs) (hall : AllOk t.lastNow t) : Inv t :=
  ⟨by rw [hc]; exact h.cfg_ok, by rw [he, hc]; exact h.eps_len, by rw [hk, hc]; exact h.chans_len, hall.1, hall.2,
    by rw [hi]; exact h.events⟩

theorem Inv.allOk (h : Inv s) : AllOk s.lastNow s := ⟨h.regs, h.sent⟩

/-- Taking the first event off the list. -/
theorem Inv.tail {x : Input} {rest : List Input} (h : Inv s) (hx : s.inputs = x :: rest) :
    Inv { s with inputs := rest } ∧ externalInput x = true :=
  ⟨⟨h.cfg_ok, h.eps_len, h.chans_len, h.regs, h.sent, fun y hy => h.events y (by simp [hx, hy])⟩,
    h.events x (by simp [hx])⟩

theorem onEp_inv {ch : Nat} {f : Config → EpConfig → Ep → Ep × Ret} (h : Inv s)
    (hf : ∀ p E, EpOk s.cfg s.lastNow E → EpOk s.cfg s.lastNow (f s.cfg p E).1) (ht : onEp s ch f = .next t) :
    Inv t := by
  obtain ⟨p, E, he, rfl⟩ := onEp_cases ht
  refine h.ofAllOk rfl (by simp) (by simp) rfl ?_
  exact h.allOk.setEp ch (hf p E (h.allOk.ep he))

theorem doEp_inv {ch : Nat} {f : Config → EpConfig → Ep → Ep} (h : Inv s)
    (hf : ∀ p E, EpOk s.cfg s.lastNow E → EpOk s.cfg s.lastNow (f s.cfg p E)) (ht : doEp s ch f = .next t) :
    Inv t :=
  onEp_inv h hf ht

theorem askEp_inv {ch : Nat} {f : Config → EpConfig → Ep → Ret} (h : Inv s) (ht : askEp s ch f = .next t) : Inv t := by
  obtain ⟨p, E, -, rfl⟩ := askEp_cases ht
  exact h.ofAllOk rfl rfl rfl rfl h.allOk

theorem answerWith_inv {r : Ret} (h : Inv s) (ht : answerWith s r = .next t) : Inv t := by
  cases ht
  exact h.ofAllOk rfl rfl rfl rfl h.allOk

theorem deliver_inv {ch : Nat} {a : Arrival} (h : Inv s) (ht : deliver s ch a = .next t) : Inv t :=
  doEp_inv h (fun _ _ hE => ⟨hE.reg, hE.sent⟩) ht

theorem sendWord_inv {ch : Nat} {build : Label → Word} (h : Inv s) (hb : ∀ m, Packed (build m))
    (ht : sendWord s ch build = .next t) : Inv t :=
  doEp_inv h (fun _ _ hE => send_ok (hb _) hE) ht

theorem supplyFrame_inv {ch : Nat} {frame : HostFrame} (h : Inv s) (ht : supplyFrame s ch frame = .next t) : Inv t := by
  unfold supplyFrame at ht
  split at ht
  · cases ht
  · split at ht
    · next hok => exact doEp_inv h (fun _ _ hE => ingest_ok (frameOk_renderFrame hok) hE) ht
    · cases ht

theorem execEngineTick_inv {now : Time} {ready : Bool} (h : Inv s) (ht : execEngineTick now ready s = .next t) :
    Inv t := by
  unfold execEngineTick at ht
  split at ht
  · next hok =>
    have hmono : ∀ x, s.lastNow = some x → ∃ y, some now = some y ∧ x ≤ y := by
      intro x hx
      refine ⟨now, rfl, ?_⟩
      simpa [timeOk, hx] using hok
    have hall : AllOk (some now) s := ⟨fun r hr => (h.regs r hr).mono hmono, h.sent⟩
    cases ready with
    | false =>
      cases ht
      exact h.ofAllOk rfl rfl rfl rfl hall
    | true =>
      cases ht
      have hT := tickAll_ok hall
      exact h.ofAllOk (tickAll_cfg now) (tickAll_eps_length now) (tickAll_chans_length now) (tickAll_inputs now)
        ⟨hT.1, hT.2⟩
  · cases ht

theorem execReset_inv {cfg : Config} (h : Inv s) (ht : execReset cfg s = .next t) : Inv t := by
  unfold execReset at ht
  split at ht
  · next hok =>
    cases ht
    refine ⟨hok, by simp [resetState], by simp [resetState, channelsFor]; omega, ?_, ?_, h.events⟩
    · intro r hr
      simp only [resetState, List.mem_map] at hr
      obtain ⟨_, -, rfl⟩ := hr
      exact RegsInv.reset _ _
    · intro k hk
      simp only [resetState, channelsFor, List.mem_append, List.mem_replicate] at hk
      rcases hk with hk | ⟨-, rfl⟩
      · exact h.sent k hk
      · intro w hw
        simp [Channel.empty] at hw
  · cases ht

/-- A word that decodes is one of the fifteen word rows, which an outside agent can cause. -/
theorem decode_external {ctx : WordCtx} {w : Word} {i : Instr} (h : decode ctx w = .ok i) : external i = true := by
  cases ctx with
  | inbound ch st =>
    simp only [decode, decodeInbound] at h
    split at h <;> cases h <;> rfl
  | outbound ch pos =>
    cases pos <;> simp only [decode, decodeControl, decodeCntrl, decodeData] at h <;> repeat' split at h
    all_goals cases h <;> rfl

end Sys2Proof.Machine
end

