-- ==== Sys2Proof/Laws/Transitions.lean ====
section
/-! SUPPORT. What each operation of the state machine makes of the registers that decide the next state,
one lemma per operation; and a tick in terms of its handler. -/

namespace Sys2Proof.Machine

variable {c : Config} {p : EpConfig} {now : Time} {A : List Rx} {E : Ep}

/-- sendChar (R256) writes none of the registers that decide the next state but `spSent` and the deadline. -/
theorem sendChar_fields (c : Config) (p : EpConfig) (now : Time) (E : Ep) :
    (sendChar c p now E).reg.state = E.reg.state ∧ (sendChar c p now E).reg.lock = E.reg.lock ∧
    (sendChar c p now E).reg.spBuf = E.reg.spBuf ∧ (sendChar c p now E).reg.spPos = E.reg.spPos := by
  have h := sendRecord_sent (c := c) (p := p) (scratchpadRecord c E.reg) { before := 0 } true E
  exact ⟨h.state, h.lock, h.spBuf, h.spPos⟩

/-- The next character, or Idle where the buffer is complete (R257, R259). -/
theorem sendOrFinish_cases (c : Config) (p : EpConfig) (now : Time) (E : Ep) :
    (sendOrFinish c p now E).reg.lock = E.reg.lock ∧ (sendOrFinish c p now E).reg.spBuf = E.reg.spBuf ∧
    (E.reg.spBuf.length ≤ E.reg.spPos → (sendOrFinish c p now E).reg.state = .idle) ∧
    (E.reg.spPos < E.reg.spBuf.length → (sendOrFinish c p now E).reg.state = E.reg.state) := by
  unfold sendOrFinish
  split
  · next h => exact ⟨rfl, rfl, fun _ => rfl, fun h' => by omega⟩
  · next h =>
    obtain ⟨h1, h2, h3, -⟩ := sendChar_fields c p now E
    exact ⟨h2, h3, fun h' => by omega, fun _ => h1⟩

/-- A DC1 starts the sequence over, so nothing of it is sent yet (R258). -/
theorem scratchpadRun_restart :
    scratchpadRun c p now A (restartScratchpad c E) = sendOrFinish c p now (restartScratchpad c E) := by
  rw [scratchpadRun, if_neg (by simp [restartScratchpad])]

/-- retry (R251): the same batch again, or exhaustion. -/
theorem retry_cases (c : Config) (p : EpConfig) (now : Time) (E : Ep) :
    (E.reg.repeatCount < c.maxRetries →
      (retry c p now E).reg.state = E.reg.state ∧ (retry c p now E).reg.lock = E.reg.lock ∧
      (retry c p now E).reg.batch = E.reg.batch ∧ (retry c p now E).reg.sdSent = E.reg.sdSent ∧
      (retry c p now E).reg.repeatCount = E.reg.repeatCount + 1) ∧
    (c.maxRetries ≤ E.reg.repeatCount → retry c p now E = exhaust E) := by
  constructor
  · intro h
    unfold retry
    rw [if_pos h]
    have hS := transmitBatch_sent (c := c) (p := p)
      (E.mapReg fun r => { flipPreferred r with repeatCount := r.repeatCount + 1 })
    exact ⟨hS.state, hS.lock, hS.batch, hS.sdSent, hS.repeatCount⟩
  · intro h
    unfold retry
    rw [if_neg (by omega)]

/-- spRetry (R261): the same character again, or exhaustion. -/
theorem spRetry_cases (c : Config) (p : EpConfig) (now : Time) (E : Ep) :
    (E.reg.repeatCount < c.maxRetries →
      (spRetry c p now E).reg.state = E.reg.state ∧ (spRetry c p now E).reg.lock = E.reg.lock) ∧
    (c.maxRetries ≤ E.reg.repeatCount → spRetry c p now E = spExhaust E) := by
  constructor
  · intro h
    unfold spRetry
    rw [if_pos h]
    obtain ⟨h1, h2, -⟩ := sendChar_fields c p now
      (E.mapReg fun r => { flipPreferred r with repeatCount := r.repeatCount + 1 })
    exact ⟨h1, h2⟩
  · intro h
    unfold spRetry
    rw [if_neg (by omega)]

/-- senddata_transmit (R247) stays in SendData. -/
theorem senddataTransmit_fields (c : Config) (p : EpConfig) (now : Time) (E : Ep) :
    (senddataTransmit c p now E).reg.state = E.reg.state ∧ (senddataTransmit c p now E).reg.lock = E.reg.lock := by
  unfold senddataTransmit
  split
  · exact ⟨rfl, rfl⟩
  · have hS := transmitBatch_sent (c := c) (p := p) E
    exact ⟨hS.state, hS.lock⟩

/-- ackData (R250): RTS where a Data session has lines pending, else Idle. -/
theorem ackData_cases (E : Ep) :
    (ackData E).reg.lock = E.reg.lock ∧
    (E.reg.mode = .data → E.reg.queue ≠ [] → (ackData E).reg.state = .rts) ∧
    (E.reg.mode = .menu ∨ E.reg.queue = [] → (ackData E).reg.state = .idle) := by
  refine ⟨?_, ?_, ?_⟩
  · unfold ackData
    simp only
    split <;> rfl
  · intro h1 h2
    unfold ackData
    simp only
    rw [if_pos ⟨h1, List.length_pos_iff.2 h2⟩]
    rfl
  · intro h
    unfold ackData
    simp only
    rw [if_neg]
    · rfl
    · rintro ⟨h1, h2⟩
      rcases h with h | h
      · rw [h] at h1; cases h1
      · simp [pendingCount, h] at h2

/-- A tick is its handler on the endpoint after the drain and the keypresses; the heartbeat writes
`lastHb` and the outbound channel only (R220). -/
theorem tick_eq_handler (c : Config) (p : EpConfig) (now : Time) (E : Ep) :
    ∃ K : Ep, K = keypresses c p (acceptedOf c p E.drained) E.drain ∧
      K.reg = { E.reg with spDirty := E.reg.spDirty || dc1In (acceptedOf c p E.drained) } ∧
      K.chan.inbound = [] ∧ K.chan.arriving = E.chan.arriving ∧
      (tickEndpoint c p now E).reg =
        { (runHandler c p now (acceptedOf c p E.drained) K).reg with lastHb := (tickEndpoint c p now E).reg.lastHb } ∧
      (tickEndpoint c p now E).chan.inbound = (runHandler c p now (acceptedOf c p E.drained) K).chan.inbound ∧
      (tickEndpoint c p now E).chan.arriving = (runHandler c p now (acceptedOf c p E.drained) K).chan.arriving := by
  refine ⟨_, rfl, by rw [keypresses_eq]; rfl, by rw [keypresses_eq]; rfl, by rw [keypresses_eq]; rfl,
    heartbeat_reg _ _ _ _, ?_, ?_⟩
  · unfold tickEndpoint heartbeat
    simp only
    split <;> rfl
  · unfold tickEndpoint heartbeat
    simp only
    split <;> rfl

end Sys2Proof.Machine
end

