-- ==== Sys2Proof/WellFormed.lean ====
section
/-! DEFINITION. Which terms of Instr are well formed: the ranges the spec gives an operand where its
type is wider than the range. -/

namespace Sys2Proof

open Machine

/-- A label that `pack` can send: its top bit is 0 under the reference LABEL_MASK (R133, R337). -/
def labelOk (l : Label) : Bool := !l.getLsbD 7

/-- Well-formed instructions. An ill-formed term is one the spec's operand ranges exclude: the
engine never builds it, and a caller who offers it to the boundary is refused where R300 says so. -/
def Instr.wellFormed : Instr → Bool
  -- every inbound word is well formed (R91, R115)
  | .enq _ _ _ _ _ _ | .dc1 _ _ _ _ _ | .cts _ _ _ _ _ => true
  | .ackIn _ _ _ _ | .nack _ _ _ _ | .syn _ _ _ _ => true
  -- R133
  | .rts _ label _ _ | .etx _ label | .eot _ label | .ackOut _ label | .hb _ label _ => labelOk label
  -- R106: index 1..31, word count 3..11
  | .stx _ label idx wc => labelOk label && decide (1 ≤ idx.toNat) && decide (3 ≤ wc.toNat) && decide (wc.toNat ≤ 11)
  -- R110, R15: line 1..31, column 1..24
  | .cntrlA _ label _ line _ col =>
      labelOk label && decide (1 ≤ line.toNat) && decide (1 ≤ col.toNat) && decide (col.toNat ≤ 24)
  -- R111
  | .cntrlB _ label _ _ _ line => labelOk label && decide (1 ≤ line.toNat)
  | .data _ label _ _ _ => labelOk label
  -- the codec and the encoder take every operand (R133, R150, R151: masked)
  | .reverseBits _ | .parity _ | .pack _ _ _ | .unpack _ | .parityCheck _ => true
  | .encodeA _ _ _ _ | .encodeB _ _ _ _ | .selectOrder _ => true
  -- R152, R171, R172
  | .cntrlSub _ rec col k => recordOk rec && decide (oneBased col ≤ 24) && decide (k ≤ 8)
  -- R170: a positive index, 1..31
  | .sendRecord _ rec idx _ => recordOk rec && decide (1 ≤ idx) && decide (idx ≤ 31)
  | .emitFrame _ rec idx _ _ => recordOk rec && decide (oneBased idx ≤ 31)
  | .peek _ => true
  -- R200
  | .ingest _ frame | .hostSupply _ frame => hostFrameOk 14 24 frame
  | .differs a b => lineOk 24 a && lineOk 24 b
  | .pendingCount _ | .getPlannedRecordCount _ _ | .prepareBatch _ _ => true
  | .tickEndpoint _ _ => true
  -- R225, R231: the word is a DC1, an ENQ
  | .keypress _ w => decide (wCode w = codeDC1)
  | .idleHandler _ _ => true
  | .acceptEnq _ w => decide (wCode w = codeENQ)
  | .enterRTS _ | .idleToScratchpad _ | .rtsHandler _ | .ctsHandler _ _ => true
  | .senddataTransmit _ _ | .senddataResponses _ _ _ | .transmitBatch _ | .ackData _ => true
  | .retry _ _ | .exhaust _ | .timeout _ _ | .enterScratchpad _ | .sendChar _ _ => true
  | .scratchpadHandler _ _ _ | .restartScratchpad _ | .finishScratchpad _ => true
  | .spAck _ _ | .spRetry _ _ | .spExhaust _ => true
  | .engineTick _ _ | .heartbeat _ _ => true
  -- R303
  | .reset cfg => configOk cfg

end Sys2Proof
end

