-- ==== Sys2Proof/Tests/Slice0.lean ====
section
/-! SUPPORT. The model's own tests: the well-formedness smoke test, one word of every word row from
spec/95_test_vectors.md (or laid out by hand from spec/30_encoding.md), single steps with the results of
spec/95_test_vectors.md, and a witness for the hypotheses of every obligation that has some. -/

namespace Sys2Proof.Tests

open Sys2Proof.Machine
open Host (Outcome)

/-! ### Small states -/

/-- The endpoint of the test vectors. -/
def p0 : EpConfig := { ownAddr := 0o004, defaultPeer := 0o004, padColumns := false }

/-- The reference machine with given registers and channel. -/
def st (r : Regs) (k : Channel) : State := { State.reset with eps := [r], chans := [k] }

/-- A channel with words waiting, and arrivals for coming Peeks. -/
def chan (ws : List Word) (peeks : List (List Word)) : Channel :=
  { Channel.empty with
    inbound  := ws.map fun w => { word := w, stamp := 0 }
    arriving := peeks.map fun ws => ws.map fun w => { word := w, stamp := 0 } }

/-- What channel 0 has sent. -/
def sent : Outcome State Fault Refusal → Option (List Word)
  | .next s => s.chans[0]?.map fun k => k.outbound
  | .fault _ => none
  | .refused _ => none

/-- The registers of endpoint 0. -/
def regs : Outcome State Fault Refusal → Option Regs
  | .next s => s.eps[0]?
  | .fault _ => none
  | .refused _ => none

/-- The answer. -/
def answer : Outcome State Fault Refusal → Option Ret
  | .next s => some s.ret
  | .fault _ => none
  | .refused _ => none

/-- The refusal. -/
def refusal : Outcome State Fault Refusal → Option Refusal
  | .next _ => none
  | .fault _ => none
  | .refused r => some r

def blank : LineRender := { text := [], color := 0, col := { before := 0 }, attr := 0 }

/-- The lines of a Frame between line 2 and line 14 (spec/95_test_vectors.md section 3). -/
def blanks (n : Nat) : List LineRender := List.replicate n blank

/-- F1. -/
def f1 : Frame :=
  [{ text := [0x48, 0x45, 0x4C, 0x4C, 0x4F], color := 1, col := { before := 0 }, attr := 0 },
   { text := [0x41, 0x42, 0x43], color := 2, col := { before := 2 }, attr := 1 }] ++ blanks 11 ++
  [{ text := [0x41, 0x42, 0x20, 0x20], color := 0, col := { before := 0 }, attr := 0 }]

/-- A Frame of blank lines as the host hands it over. -/
def host (n : Nat) : HostFrame := List.replicate n { text := [], color := 0, col := 1, attr := 0 }

/-- The record of the vectors V-S2 to V-S5. -/
def abc : TextRecord := { text := [0x41, 0x42, 0x43], color := 1, line := 2, col := { before := 0 }, attr := 0 }

/-- Registers with the lock of the vectors. -/
def locked : Regs := { Regs.reset with lock := some 0o010 }

/-- Registers after the reset and the ingest of F1. -/
def painted : Regs := { Regs.reset with prevFrame := some f1, queue := [1, 2, 3, 4, 5, 6, 7, 8, 9, 10, 11, 12, 13, 14] }

/-- A Menu batch that has been transmitted (P2 after the tick at 150). -/
def waiting : Regs :=
  { painted with
    state := .sendData, lock := some 0o010, reqCount := 1, rtsSent := true, sdSent := true, deadline := some 1650,
    lastTag := some .A, lastHb := some 0, queue := [2, 3]
    batch := [({ before := 0 }, recordOfLine painted 1)] }

/-- A scratchpad character that awaits its ACK (P3 after the tick at 50). -/
def typing : Regs :=
  { painted with
    state := .scratchpad, spBuf := [0x41, 0x42], spSent := true, deadline := some 1550, lastTag := some .A,
    lastHb := some 0 }

/-! ### Well-formedness: one ill-formed term for each check -/

def h0 : RxBits := { p := false, ssm := 0, b10 := false, sdi := 0, label := 0o004 }

theorem test_wellFormed_labels :
    [Instr.rts 0 0x80 1 .menu, .stx 0 0x80 1 3, .etx 0 0x80, .eot 0 0x80, .ackOut 0 0x80, .hb 0 0x80 0,
     .cntrlA 0 0x80 0 1 0 1, .cntrlB 0 0x80 0 0 0 1, .data 0 0x80 0 0 0].all (fun i => !i.wellFormed) = true := by decide

theorem test_wellFormed_fields :
    [Instr.stx 0 0 0 3, .stx 0 0 1 2, .stx 0 0 1 12, .cntrlA 0 0 0 0 0 1, .cntrlA 0 0 0 1 0 0, .cntrlA 0 0 0 1 0 25,
     .cntrlB 0 0 0 0 0 0].all (fun i => !i.wellFormed) = true := by decide

theorem test_wellFormed_records :
    [Instr.cntrlSub .A { abc with text := List.replicate 25 0 } { before := 0 } 1,
     .cntrlSub .A { abc with line := 0 } { before := 0 } 1, .cntrlSub .A { abc with line := 32 } { before := 0 } 1,
     .cntrlSub .A { abc with col := { before := 24 } } { before := 0 } 1, .cntrlSub .A abc { before := 24 } 1,
     .cntrlSub .A abc { before := 0 } 9, .sendRecord 0 { abc with line := 0 } 1 true, .sendRecord 0 abc 0 true,
     .sendRecord 0 abc 32 true, .emitFrame 0 { abc with line := 0 } { before := 0 } true .A,
     .emitFrame 0 abc { before := 31 } true .A].all (fun i => !i.wellFormed) = true := by decide

theorem test_wellFormed_frames :
    [Instr.ingest 0 (host 13), .hostSupply 0 (host 15),
     .ingest 0 (host 13 ++ [{ text := List.replicate 25 0, color := 0, col := 1, attr := 0 }]),
     .ingest 0 (host 13 ++ [{ text := [0x80], color := 0, col := 1, attr := 0 }]),
     .ingest 0 (host 13 ++ [{ text := [], color := 8, col := 1, attr := 0 }]),
     .ingest 0 (host 13 ++ [{ text := [], color := 0, col := 0, attr := 0 }]),
     .ingest 0 (host 13 ++ [{ text := [], color := 0, col := 25, attr := 0 }]),
     .ingest 0 (host 13 ++ [{ text := [], color := 0, col := 1, attr := 8 }]),
     .differs { blank with text := List.replicate 25 0 } blank,
     .differs blank { blank with col := { before := 24 } }].all (fun i => !i.wellFormed) = true := by decide

theorem test_wellFormed_words :
    [Instr.keypress 0 0x00A84020, .acceptEnq 0 0x02220820].all (fun i => !i.wellFormed) = true := by decide

theorem test_wellFormed_reset :
    [Instr.reset { Config.reference with hbPeriodMs := 499 }, .reset { Config.reference with hbPeriodMs := 901 },
     .reset { Config.reference with endpoints := [] }, .reset { Config.reference with hbLabel := 0x100 },
     .reset { Config.reference with endpoints := [{ p0 with ownAddr := 0x100 }] },
     .reset { Config.reference with endpoints := [{ p0 with defaultPeer := 0x100 }] }].all
      (fun i => !i.wellFormed) = true := by decide

theorem test_wellFormed_accepts :
    [Instr.enq 0 0 h0 0 .data 0o010, .rts 0 0o010 3 .data, .stx 0 0o010 31 11, .cntrlA 0 0o010 7 31 7 24,
     .cntrlB 0 0o010 7 15 7 31, .sendRecord 0 abc 31 true, .ingest 0 (host 14), .keypress 0 0x02220820,
     .acceptEnq 0 0x00A84020, .reset Config.reference].all Instr.wellFormed = true := by decide

/-! ### Decoding: words of spec/95_test_vectors.md 2.1 and 2.4, one for every word row -/

theorem test_decode_enq : decode (.inbound 0 7) 0x00A84020 = .ok (.enq 0 7 h0 0 .data 0o010) := by rfl
theorem test_decode_enq_menu : decode (.inbound 0 7) 0x80A04020 = .ok (.enq 0 7 { h0 with p := true } 0 .menu 0o010) := by rfl
theorem test_decode_dc1 : decode (.inbound 0 7) 0x02220820 = .ok (.dc1 0 7 h0 0 0x41) := by rfl
theorem test_decode_cts : decode (.inbound 0 7) 0x82601820 = .ok (.cts 0 7 { h0 with p := true } 0 3) := by rfl
theorem test_decode_ackIn : decode (.inbound 0 7) 0x00C00020 = .ok (.ackIn 0 7 h0 0) := by rfl
theorem test_decode_nack : decode (.inbound 0 7) 0x82A00020 = .ok (.nack 0 7 { h0 with p := true } 0) := by rfl
theorem test_decode_syn : decode (.inbound 0 7) 0x82C00020 = .ok (.syn 0 7 { h0 with p := true } 0) := by rfl
theorem test_decode_rts : decode (.outbound 0 .control) 0x02400890 = .ok (.rts 0 0o011 1 .menu) := by rfl
theorem test_decode_stx : decode (.outbound 0 .control) 0x80415810 = .ok (.stx 0 0o010 1 11) := by rfl
theorem test_decode_etx : decode (.outbound 0 .control) 0x00600010 = .ok (.etx 0 0o010) := by rfl
theorem test_decode_eot : decode (.outbound 0 .control) 0x80800020 = .ok (.eot 0 0o004) := by rfl
theorem test_decode_ackOut : decode (.outbound 0 .control) 0x00C00010 = .ok (.ackOut 0 0o010) := by rfl
theorem test_decode_hb : decode (.outbound 0 .control) 0x800020FE = .ok (.hb 0 0o177 0o004) := by rfl
theorem test_decode_cntrlA : decode (.outbound 0 (.cntrl .A)) 0x83220810 = .ok (.cntrlA 0 0o010 3 4 2 1) := by rfl
theorem test_decode_cntrlB : decode (.outbound 0 (.cntrl .B)) 0x80881010 = .ok (.cntrlB 0 0o010 1 1 0 2) := by rfl
theorem test_decode_data : decode (.outbound 0 .data) 0x1322C810 = .ok (.data 0 0o010 0x48 0x45 0x4C) := by rfl

/-- Every bit of an inbound ENQ set, by hand from R90 to R101: SSM 3, SDI 3, bit 10, the unnamed
argument bit, mode Data, target and label 0xFF. -/
theorem test_decode_all_bits :
    decode (.inbound 0 7) 0xE0BFFFFF =
      .ok (.enq 0 7 { p := true, ssm := 3, b10 := true, sdi := 3, label := 0xFF } 1 .data 0xFF) := by rfl

/-- Words the engine ignores (V-F10) and words it never sends (R116). -/
theorem test_decode_rejects :
    decode (.inbound 0 7) 0x8FE00020 = .error .irrelevant ∧
    decode (.inbound 0 7) 0x00600020 = .error .irrelevant ∧
    decode (.outbound 0 .control) 0x00600810 = .error .reservedBits ∧
    decode (.outbound 0 .control) 0x0FE00010 = .error .unknownCode := ⟨rfl, rfl, rfl, rfl⟩

theorem test_encode_rts : encode (.rts 0 0o010 3 .data) = some 0x82481810 := by decide
theorem test_encode_cntrlA : encode (.cntrlA 0 0o010 2 3 1 5) = some 0x02192810 := by decide
theorem test_encode_cntrlB : encode (.cntrlB 0 0o010 2 2 1 3) = some 0x81111810 := by decide
theorem test_encode_data : encode (.data 0 0o010 0x41 0x42 0x43) = some 0x90E14110 := by decide

theorem test_decodeTableWord : decodeTableWord 32 0x02400000 = some (.rts 0 0 0 .menu) := by decide
theorem test_decodeTableWord_data : decodeTableWord 32 0x10E14110 = some (.data 0 0o010 0x41 0x42 0x43) := by decide
theorem test_withFetchWord : sent (step (State.reset.withFetchWord 32 0x00400000)) = some [0x00400000] := by decide

/-! ### Single steps, with the results of spec/95_test_vectors.md -/

/-- 2.2 (R130 to R136). -/
theorem test_reverse_bits : answer (exec (.reverseBits 0x04) State.reset) = some (.byte 0x20) := by decide
theorem test_reverse_bits_high : answer (exec (.reverseBits 0x7F) State.reset) = some (.byte 0xFE) := by decide
theorem test_parity : answer (exec (.parity 0x00000020) State.reset) = some (.bit false) := by decide
theorem test_pack : answer (exec (.pack 0x7F 1 0x12345) State.reset) = some (.word 0x048D15FE) := by decide
theorem test_pack_masks : answer (exec (.pack 0xFF 4 0x80000) State.reset) = some (.word 0x000000FE) := by decide
theorem test_unpack : answer (exec (.unpack 0x00A84020) State.reset) =
    some (.fields { parity := false, ssm := 0, sdi := 0, data := 0x02A10, label := 0o004, parityOk := true }) := by decide
theorem test_unpack_even : answer (exec (.unpack 0xFFFFFFFF) State.reset) =
    some (.fields { parity := true, ssm := 3, sdi := 3, data := 0x7FFFF, label := 0xFF, parityOk := false }) := by decide
theorem test_parity_check : answer (exec (.parityCheck 0x80A00020) State.reset) = some (.bit false) := by decide

/-- 2.3 (R150 to R155). -/
theorem test_encode_A : answer (exec (.encodeA 8 1 8 33) State.reset) = some (.sub 0x0101) := by decide
theorem test_encode_A_full : answer (exec (.encodeA 7 31 7 31) State.reset) = some (.sub 0xFFFF) := by decide
theorem test_encode_B : answer (exec (.encodeB 7 15 7 31) State.reset) = some (.sub 0x7FFF) := by decide
theorem test_encode_B_masks : answer (exec (.encodeB 0 16 0 1) State.reset) = some (.sub 0x0001) := by decide
theorem test_cntrlSub_B : answer (exec (.cntrlSub .B abc { before := 0 } 1) State.reset) = some (.sub 0x1102) := by decide
theorem test_select_order : answer (exec (.selectOrder 0) (st { locked with preferred := some .B } (chan [] []))) =
    some (.tags [.B, .A]) := by decide

/-- 2.4, V-S1, V-S3, V-S7, V-S10 (R170 to R185). -/
theorem test_emitFrame_empty :
    sent (exec (.emitFrame 0 { text := [], color := 0, line := 5, col := { before := 0 }, attr := 0 } { before := 0 } true .A)
      (st locked (chan [] []))) = some [0x00411810, 0x80280810, 0x80800010] := by decide
theorem test_emitFrame_pads :
    sent (exec (.emitFrame 0 { text := [0x41, 0x42], color := 3, line := 4, col := { before := 2 }, attr := 2 }
        { before := 0 } true .A)
      { st locked (chan [] []) with cfg := { Config.reference with endpoints := [{ p0 with padColumns := true }] } }) =
    some [0x00412810, 0x83220810, 0x10502010, 0x00004210, 0x80800010] := by decide
theorem test_sendRecord_retries :
    sent (exec (.sendRecord 0 abc 1 true) (st locked (chan [] [[0x82A00020], [0x00C00020]]))) =
      some [0x80412010, 0x81100810, 0x90E14110, 0x80800010, 0x80412010, 0x80881010, 0x90E14110, 0x80800010] := by decide
theorem test_sendRecord_refuses :
    refusal (exec (.sendRecord 0 abc 0 true) (st locked (chan [] []))) = some .nonPositiveRecordIndex := by decide
theorem test_peek : answer (exec (.peek 0) (st locked (chan [] [[0x00C00020], []]))) =
    some (.words [{ word := 0x00C00020, stamp := 0 }]) := by decide

/-- 2.5, V-D3 to V-D10 (R200 to R206). -/
theorem test_ingest_first :
    (regs (exec (.ingest 0 (host 14)) State.reset)).map (fun r => r.queue) =
      some [1, 2, 3, 4, 5, 6, 7, 8, 9, 10, 11, 12, 13, 14] := by decide
theorem test_ingest_refuses : refusal (exec (.ingest 0 (host 13)) State.reset) = some .badFrame := by decide
theorem test_hostSupply_keeps_place :
    (regs (exec (.hostSupply 0 (host 14)) (st { painted with queue := [5, 2] } (chan [] [])))).map (fun r => r.queue) =
      some [5, 2, 1, 14] := by decide
theorem test_differs_ignores_column :
    answer (exec (.differs blank { blank with col := { before := 6 } }) State.reset) = some (.bit false) := by decide
theorem test_pendingCount :
    answer (exec (.pendingCount 0) (st { painted with queue := [5, 9, 12] } (chan [] []))) = some (.count 3) := by decide
theorem test_planned_count_drained :
    answer (exec (.getPlannedRecordCount 0 3) (st { painted with queue := [5, 9, 12], everDrained := true } (chan [] []))) =
      some (.count 1) := by decide
theorem test_prepareBatch_drains :
    (regs (exec (.prepareBatch 0 3) (st { painted with queue := [5, 9] } (chan [] [])))).map
      (fun r => (r.queue, r.everDrained)) = some ([], true) := by decide

/-- 2.6 and the programs P1 to P3 (R220 to R262). -/
theorem test_tick_enq_dc1 :
    sent (exec (.tickEndpoint 0 0) (st painted (chan [0x02218020, 0x00A84020] []))) =
      some [0x00C00020, 0x800020FE] := by decide
theorem test_keypress :
    sent (exec (.keypress 0 0x02221020) (st locked (chan [] []))) = some [0x00C00010] := by decide
theorem test_idleHandler_first_enq :
    (regs (exec (.idleHandler 0 [0x80A840A0, 0x00A04820, 0x00A84020]) (st painted (chan [] [])))).map
      (fun r => (r.state, r.lock, r.mode)) = some (.rts, some 0o011, .menu) := by decide
theorem test_acceptEnq_sticky :
    (regs (exec (.acceptEnq 0 0x00A84020) (st { painted with lock := some 0o011 } (chan [] [])))).map
      (fun r => (r.state, r.lock, r.mode)) = some (.rts, some 0o011, .data) := by decide
theorem test_enterRTS :
    (regs (exec (.enterRTS 0) (st waiting (chan [] [])))).map (fun r => (r.state, r.rtsSent, r.reqCount)) =
      some (.rts, false, 0) := by decide
theorem test_idleToScratchpad :
    (regs (exec (.idleToScratchpad 0) (st { painted with spDirty := true } (chan [] [])))).map
      (fun r => (r.state, r.spBuf, r.spDirty)) = some (.scratchpad, [0x41, 0x42], false) := by decide
theorem test_rtsHandler :
    sent (exec (.rtsHandler 0) (st { painted with state := .rts, lock := some 0o010, mode := .data } (chan [] []))) =
      some [0x82481810] := by decide
theorem test_ctsHandler_zero :
    (regs (exec (.ctsHandler 0 [0x82600020])
      (st { painted with state := .rts, rtsSent := true, reqCount := 3 } (chan [] [])))).map
      (fun r => (r.state, r.batch, r.queue.length)) = some (.idle, [], 14) := by decide
theorem test_ctsHandler_batch :
    (regs (exec (.ctsHandler 0 [0x82601820])
      (st { painted with state := .rts, rtsSent := true, reqCount := 3 } (chan [] [])))).map
      (fun r => (r.state, r.batch.map Prod.fst, r.queue.length)) =
      some (.sendData, [{ before := 0 }, { before := 1 }, { before := 2 }], 11) := by decide
theorem test_senddataTransmit :
    sent (exec (.senddataTransmit 0 150) (st { waiting with sdSent := false, deadline := none } (chan [] []))) =
      some [0x00412810, 0x81080810, 0x1322C810, 0x0027CC10, 0x80800010] := by decide
theorem test_senddataResponses_nack_first :
    (regs (exec (.senddataResponses 0 200 [0x00C00020, 0x82A00020]) (st waiting (chan [] [])))).map
      (fun r => (r.repeatCount, r.preferred, r.deadline)) = some (1, some .B, some 1700) := by decide
theorem test_transmitBatch : sent (exec (.transmitBatch 0) (st { waiting with preferred := some .B } (chan [] []))) =
    some [0x00412810, 0x80900810, 0x1322C810, 0x0027CC10, 0x80800010] := by decide
theorem test_ackData_data :
    (regs (exec (.ackData 0) (st { waiting with mode := .data } (chan [] [])))).map
      (fun r => (r.state, r.preferred, r.deadline)) = some (.rts, some .A, none) := by decide
theorem test_retry_spent :
    (regs (exec (.retry 0 350) (st { waiting with repeatCount := 3 } (chan [] [])))).map
      (fun r => (r.state, r.lock, r.repeatCount)) = some (.idle, none, 3) := by decide
theorem test_exhaust :
    (regs (exec (.exhaust 0) (st waiting (chan [] [])))).map (fun r => (r.state, r.lock, r.batch.length, r.deadline)) =
      some (.idle, none, 0, none) := by decide
theorem test_timeout_before : answer (exec (.timeout 0 1649) (st waiting (chan [] []))) = some (.bit false) := by decide
theorem test_timeout_at : answer (exec (.timeout 0 1650) (st waiting (chan [] []))) = some (.bit true) := by decide
theorem test_enterScratchpad :
    (regs (exec (.enterScratchpad 0) (st painted (chan [] [])))).map (fun r => (r.state, r.spBuf, r.spPos)) =
      some (.scratchpad, [0x41, 0x42], 0) := by decide
theorem test_sendChar :
    sent (exec (.sendChar 0 50) (st { typing with spSent := false, deadline := none } (chan [] []))) =
      some [0x80412020, 0x00700820, 0x00004120, 0x80800020] := by decide
theorem test_scratchpadHandler_ack :
    sent (exec (.scratchpadHandler 0 100 [0x00C00020]) (st typing (chan [] []))) =
      some [0x80412020, 0x00701020, 0x00004220, 0x80800020] := by decide
theorem test_restartScratchpad :
    (regs (exec (.restartScratchpad 0) (st { typing with spPos := 1, repeatCount := 2 } (chan [] [])))).map
      (fun r => (r.state, r.spPos, r.spSent, r.repeatCount, r.deadline)) =
      some (.scratchpad, 0, false, 0, none) := by decide
theorem test_finishScratchpad :
    (regs (exec (.finishScratchpad 0) (st typing (chan [] [])))).map (fun r => (r.state, r.deadline)) =
      some (.idle, none) := by decide
theorem test_spAck_last :
    (regs (exec (.spAck 0 150) (st { typing with spPos := 1 } (chan [] [])))).map
      (fun r => (r.state, r.spPos, r.spSent)) = some (.idle, 2, false) := by decide
theorem test_spRetry :
    (regs (exec (.spRetry 0 150) (st typing (chan [] [])))).map (fun r => (r.repeatCount, r.preferred, r.deadline)) =
      some (1, some .B, some 1650) := by decide
theorem test_spExhaust :
    (regs (exec (.spExhaust 0) (st { typing with lock := some 0o010 } (chan [] [])))).map
      (fun r => (r.state, r.lock, r.spSent)) = some (.idle, none, false) := by decide

/-- 2.7 and 2.8 (R270 to R275, R301, R303). -/
theorem test_heartbeat_early : sent (exec (.heartbeat 0 899) (st { painted with lastHb := some 0 } (chan [] []))) =
    some [] := by decide
theorem test_heartbeat_due : sent (exec (.heartbeat 0 900) (st { painted with lastHb := some 0 } (chan [] []))) =
    some [0x800020FE] := by decide
theorem test_engineTick_back : refusal (exec (.engineTick 100 true) { State.reset with lastNow := some 200 }) =
    some .timeWentBack := by decide
theorem test_engineTick : sent (exec (.engineTick 0 true) State.reset) = some [0x800020FE] := by decide
theorem test_reset_period : refusal (exec (.reset { Config.reference with hbPeriodMs := 1000 }) State.reset) =
    some .badConfig := by decide
theorem test_bad_channel : refusal (exec (.ingest 1 (host 14)) State.reset) = some .badChannel := by decide

/-- Words on the channel: an arrival joins the queue (R51), an outbound word is sent (R52). -/
theorem test_inbound_arrives :
    (match exec (.ackIn 0 9 h0 0) State.reset with
      | .next s => s.chans[0]?.map (fun k => k.inbound)
      | .fault _ => none
      | .refused _ => none) = some [{ word := 0x00C00020, stamp := 9 }] := by decide
theorem test_outbound_sent : sent (exec (.eot 0 0o004) State.reset) = some [0x80800020] := by decide

/-! ### Witnesses: a concrete state and operands for the hypotheses of every obligation, one for each
clause; where an obligation's one hypothesis is that the endpoint exists, `witness_endpoint` is its witness. -/

theorem st_ep (r : Regs) (k : Channel) : (st r k).ep? 0 = some (p0, { reg := r, chan := k }) := rfl

/-- For EmitFrameSendsTheRecord, PeekReturnsTheArrivedWords, QueueQuestionsAnswer,
KeypressIsAcknowledged, AcceptedEnqLocksAndEntersRts, ScratchpadSnapshotIsTaken,
TransmitBatchSendsTheRecordsInOrder, TimeoutIsTheDeadlineReached, SendCharSendsOneCharacter,
TickRunsThePipelineInOrder, KeypressesAreAcknowledgedInEveryState. -/
theorem witness_endpoint : State.reset.ep? 0 = some (p0, { reg := Regs.reset, chan := Channel.empty }) := rfl

theorem witness_DecodeOfEncodedInstructionIsTheInstruction :
    ∃ ctx w, ctxOf (.rts 0 0o010 3 .data) = some ctx ∧ encode (.rts 0 0o010 3 .data) = some w :=
  ⟨.outbound 0 .control, 0x82481810, by decide⟩

theorem witness_EncodeOfDecodedWordIsTheWord :
    ∃ i j, decode (.inbound 0 7) 0x00A84020 = .ok i ∧ decode (.outbound 0 .control) 0x82481810 = .ok j ∧
      popcount 0x82481810#32 % 2 = 1 :=
  ⟨_, _, test_decode_enq, (rfl : _ = Except.ok (Instr.rts 0 0o010 3 .data)), by decide⟩

theorem witness_StepRunsTheDecodedWord :
    (∃ (s : State) (i : Instr), s.inputs = [.word (.inbound 0 7) 0x00A84020] ∧ decode (.inbound 0 7) 0x00A84020 = .ok i) ∧
    ∃ i, decodeTableWord 32 0x02400000 = some i :=
  ⟨⟨{ State.reset with inputs := [.word (.inbound 0 7) 0x00A84020] }, _, rfl, test_decode_enq⟩,
    _, test_decodeTableWord⟩

theorem witness_StepCarriesOutEveryOtherEvent :
    State.reset.inputs = [] ∧
    ({ State.reset with inputs := [.call (.peek 0)] } : State).inputs = .call (.peek 0) :: [] ∧
    decode (.inbound 0 7) 0x8FE00020 = .error .irrelevant ∧
    ({ State.reset with inputs := [.arrivals 0 []] } : State).inputs = .arrivals 0 [] :: [] ∧
    State.reset.ep? 0 = some (p0, { reg := Regs.reset, chan := Channel.empty }) ∧
    State.reset.cfg.endpoints.length ≤ 1 ∧ decode (.inbound 1 7) 0x8FE00020 = .error .irrelevant ∧
    decode (.outbound 0 .control) 0x0FE00010 = .error .unknownCode ∧
    decode (.outbound 1 .control) 0x0FE00010 = .error .unknownCode :=
  ⟨rfl, rfl, rfl, rfl, rfl, by decide, rfl, rfl, rfl⟩

/-- Both sides of each bound of R303. -/
theorem witness_ResetSetsEveryRegister :
    configOk { Config.reference with hbPeriodMs := 500, hbLabel := 0xFF, endpoints := [{ p0 with ownAddr := 0xFF, defaultPeer := 0xFF }] } = true ∧
    configOk { Config.reference with hbPeriodMs := 499 } = false ∧
    configOk { Config.reference with hbPeriodMs := 901 } = false ∧
    configOk { Config.reference with endpoints := [] } = false ∧
    configOk { Config.reference with hbLabel := 0x100 } = false ∧
    configOk { Config.reference with endpoints := [p0, { p0 with ownAddr := 0x100 }] } = false := by decide

theorem witness_EveryStepKeepsTheStateLegal :
    ∃ s t : State, Inv s ∧ s.inputs = [.call (.engineTick 0 true)] ∧ step s = .next t := by
  refine ⟨{ State.reset with inputs := [.call (.engineTick 0 true)] }, _, ⟨by decide, rfl, by decide, ?_, ?_, ?_⟩, rfl, rfl⟩
  · intro r hr
    rw [List.mem_singleton.1 hr]
    exact RegsInv.reset _ _
  · intro k hk
    rw [List.mem_singleton.1 hk]
    intro w hw
    cases hw
  · intro x hx
    rw [List.mem_singleton.1 hx]
    rfl

theorem witness_OperationsLeaveOtherEndpointsAlone :
    ∃ t, channelOf (.enterRTS 0) = some 0 ∧ exec (.enterRTS 0) State.reset = .next t := ⟨_, rfl, rfl⟩

theorem witness_ChannelOutOfRangeIsRefused :
    channelOf (.peek 1) = some 1 ∧ State.reset.cfg.endpoints.length ≤ 1 ∧
    channelOf (.sendRecord 1 abc 0 true) = some 1 := ⟨rfl, by decide, rfl⟩

theorem witness_InboundWordJoinsTheQueue :
    ∃ w, ctxOf (.ackIn 0 9 h0 0) = some (.inbound 0 9) ∧ encode (.ackIn 0 9 h0 0) = some w := ⟨_, rfl, rfl⟩

theorem witness_OutboundWordIsSent :
    ∃ w, ctxOf (.data 0 0x80 1 2 3) = some (.outbound 0 .data) ∧ encode (.data 0 0x80 1 2 3) = some w := ⟨_, rfl, rfl⟩

theorem witness_UnpackOfPackReturnsTheOperands :
    State.reset.cfg.labelMask = 0x7F#8 ∧ (3 : Nat) ≤ 3 ∧ (0x7FFFF : Nat) ≤ 0x7FFFF ∧ (0x7F : Nat) ≤ 0x7F := by decide

/-- The reference table, and the last entry of a table and the first k past its end. -/
theorem witness_CntrlSubFollowsTheTag :
    State.reset.cfg.cntrlBCount.length ≤ 0 ∧
    ({ Config.reference with cntrlBCount := [0, 5] } : Config).cntrlBCount[1]? = some 5 ∧
    ({ Config.reference with cntrlBCount := [0, 5] } : Config).cntrlBCount.length ≤ 2 := by decide

theorem witness_SelectOrderPutsThePreferredFirst :
    (st { locked with preferred := some .B } (chan [] [])).ep? 0 =
      some (p0, { reg := { locked with preferred := some .B }, chan := chan [] [] }) := rfl

theorem witness_NonPositiveRecordIndexIsRefused : (0 : Int) ≤ 0 := by decide

/-- The words a Peek can see, for the six clauses of R180: nothing, ACK, NACK, and NACK with ACK. -/
theorem witness_SendRecordTriesBothLayouts :
    (1 : Int) ≤ 1 ∧ ({ Config.reference with sameTickInspect := false } : Config).sameTickInspect = false ∧
    Config.reference.sameTickInspect = true ∧
    negIn (acceptedOf Config.reference p0 []) = false ∧ posIn (acceptedOf Config.reference p0 []) = false ∧
    negIn (acceptedOf Config.reference p0 [0x00C00020]) = false ∧
    posIn (acceptedOf Config.reference p0 [0x00C00020]) = true ∧
    negIn (acceptedOf Config.reference p0 [0x00C00020, 0x82A00020]) = true ∧
    negIn (acceptedOf Config.reference p0 [0x82C00020]) = true := by decide

theorem witness_IngestQueuesTheChangedLines :
    hostFrameOk State.reset.cfg.frameLines State.reset.cfg.lineChars (host 14) = true ∧
    hostFrameOk State.reset.cfg.frameLines State.reset.cfg.lineChars (host 13) = false := by decide

/-- One Frame for each bound of R200. -/
theorem witness_BadFrameIsRefused :
    State.reset.ep? 1 = none ∧ (host 13).length ≠ Config.reference.frameLines ∧
    Config.reference.lineChars < (List.replicate 25 0).length ∧ 0x7F < 0x80 ∧ 7 < 8 ∧ Config.reference.lineChars < 25 :=
  ⟨rfl, by decide⟩

theorem witness_SecondIngestOfAFrameQueuesNothing :
    hostFrameOk Config.reference.frameLines Config.reference.lineChars (host 14) = true := by decide

theorem witness_FirstIngestQueuesEveryLine :
    Config.reference.frameLines = 14 ∧ hostFrameOk 14 Config.reference.lineChars (host 14) = true ∧
    Regs.reset.prevFrame = none ∧ Regs.reset.queue = [] := by decide

theorem witness_PrepareBatchPopsTheFirstLines :
    (st painted (chan [] [])).ep? 0 = some (p0, { reg := painted, chan := chan [] [] }) ∧
    painted.queue[1]? = some 2 ∧ painted.prevFrame = some f1 ∧
    f1[2 - 1]? = some { text := [0x41, 0x42, 0x43], color := 2, col := { before := 2 }, attr := 1 } := ⟨rfl, rfl, rfl, rfl⟩

theorem witness_IdleHandlerTakesTheFirstEnq :
    classify Config.reference p0 0x00A04820 = some { kind := .enq, word := 0x00A04820 } ∧
    classify Config.reference p0 0x80A840A0 ≠ some { kind := .enq, word := 0x80A840A0 } := by decide

/-- The two clauses in Menu mode, in Data mode with nothing pending, and in Data mode with lines. -/
theorem witness_RtsRequestsThePlannedCount :
    rtsCount Config.reference Regs.reset = 1 ∧
    rtsCount Config.reference { Regs.reset with mode := .data } = 0 ∧
    rtsCount Config.reference { painted with mode := .data } = 3 ∧ painted.rtsSent = false ∧ waiting.rtsSent = true := by decide

theorem witness_CtsClampsAndPreparesTheBatch :
    painted.rtsSent = false ∧ waiting.rtsSent = true ∧
    classify Config.reference p0 0x82600020 = some { kind := .cts, word := 0x82600020 } ∧
    classify Config.reference p0 0x82601820 = some { kind := .cts, word := 0x82601820 } ∧
    batchRecords painted (min 3 (ctsMax 0x82600020)) = [] ∧ batchRecords painted (min 3 (ctsMax 0x82601820)) ≠ [] ∧
    classify Config.reference p0 0x00C00020 ≠ some { kind := .cts, word := 0x00C00020 } := by decide

theorem witness_SendDataTransmitsOnceAndArmsTheDeadline :
    (st waiting (chan [] [])).ep? 0 = some (p0, { reg := waiting, chan := chan [] [] }) ∧
    waiting.sdSent = true ∧ painted.sdSent = false := ⟨rfl, rfl, rfl⟩

theorem witness_AckDataContinuesOrEndsTheSession :
    ({ waiting with mode := .data } : Regs).mode = .data ∧ waiting.queue ≠ [] ∧ waiting.mode = .menu ∧
    Regs.reset.queue = [] := by decide

/-- At the boundary of the budget. -/
theorem witness_RetryFlipsAndResendsWithinTheBudget :
    ({ waiting with repeatCount := 2 } : Regs).repeatCount < Config.reference.maxRetries ∧
    Config.reference.maxRetries ≤ ({ waiting with repeatCount := 3 } : Regs).repeatCount := by decide

/-- The deadline at its boundary, and the words of the four clauses. -/
theorem witness_SendDataResponsesInPriorityOrder :
    waiting.sdSent = true ∧ waiting.deadline = some 1650 ∧ (1650 : Nat) ≤ 1650 ∧ ¬ (1650 : Nat) ≤ 1649 ∧
    classify Config.reference p0 0x82A00020 = some { kind := .nack, word := 0x82A00020 } ∧
    classify Config.reference p0 0x82C00020 = some { kind := .syn, word := 0x82C00020 } ∧
    classify Config.reference p0 0x00C00020 = some { kind := .ack, word := 0x00C00020 } ∧ painted.sdSent = false := by decide

/-- The last character and one before it, and the boundary of the budget. -/
theorem witness_ScratchpadCharactersAreGatedByAck :
    ({ typing with spPos := 1 } : Regs).spBuf.length ≤ ({ typing with spPos := 1 } : Regs).spPos + 1 ∧
    typing.spPos + 1 < typing.spBuf.length ∧ ({ typing with repeatCount := 2 } : Regs).repeatCount < Config.reference.maxRetries ∧
    Config.reference.maxRetries ≤ ({ typing with repeatCount := 3 } : Regs).repeatCount := by decide

theorem witness_ScratchpadHandlerInOrder :
    classify Config.reference p0 0x02220820 = some { kind := .dc1, word := 0x02220820 } ∧
    scratchpadText Config.reference painted ≠ [] ∧ scratchpadText Config.reference Regs.reset = [] ∧
    typing.spSent = true ∧ typing.deadline = some 1550 ∧
    ({ typing with spSent := false, spPos := 2 } : Regs).spBuf.length ≤ 2 ∧ 1 < typing.spBuf.length ∧
    negIn (acceptedOf Config.reference p0 [0x82A00020]) = true ∧
    negIn (acceptedOf Config.reference p0 [0x00C00020]) = false ∧
    posIn (acceptedOf Config.reference p0 [0x00C00020]) = true := by decide

/-- The heartbeat's due time at its boundary. -/
theorem witness_HeartbeatIsSentWhenDue :
    painted.state ≠ .sendData ∧ painted.lastHb = none ∧ typing.lastHb = some 0 ∧
    0 + Config.reference.hbPeriodMs ≤ 900 ∧ ¬ 0 + Config.reference.hbPeriodMs ≤ 899 ∧ waiting.state = .sendData := by decide

theorem witness_EngineTickTicksEveryEndpoint :
    (∀ x, State.reset.lastNow = some x → x ≤ 0) ∧
    (∀ x, ({ State.reset with lastNow := some 5 } : State).lastNow = some x → x ≤ 5) :=
  ⟨fun _ h => (nomatch h), fun x h => by cases h; exact Nat.le_refl _⟩

theorem witness_UnreadyOrBackwardTickDoesNothing :
    ({ State.reset with lastNow := some 200 } : State).lastNow = some 200 ∧ (199 : Nat) < 200 := ⟨rfl, by decide⟩

/-- One state for each row of the table (R263): see the clauses' witnesses above for the words. -/
theorem witness_TransitionsFollowTheTable :
    painted.state = .idle ∧ waiting.state = .sendData ∧ typing.state = .scratchpad ∧
    ({ painted with state := .rts, rtsSent := true, reqCount := 3 } : Regs).state = .rts ∧
    (acceptedOf Config.reference p0 [0x00C00020, 0x82601820]).find? (fun r => r.kind = .cts) =
      some { kind := .cts, word := 0x82601820 } ∧ ctsMax 0x82600020 = 0 ∧ ctsMax 0x82601820 = 3 := by decide

/-- A lock released by a NACK and by a deadline, one kept at an ACK with the budget spent, one learned. -/
theorem witness_LockIsReleasedOnlyByExhaustion :
    (regs (exec (.tickEndpoint 0 350) (st { waiting with repeatCount := 3 } (chan [0x82A00020] [])))).map Regs.lock = some none ∧
    (regs (exec (.tickEndpoint 0 1650) (st { waiting with repeatCount := 3 } (chan [] [])))).map Regs.lock = some none ∧
    (regs (exec (.tickEndpoint 0 1650) (st { waiting with repeatCount := 3 } (chan [0x00C00020] [])))).map Regs.lock =
      some (some 0o010) ∧ waiting.lock = some 0o010 ∧
    (regs (exec (.tickEndpoint 0 0) (st painted (chan [0x00A84020] [])))).map Regs.lock = some (some 0o010) ∧
    painted.lock = none := by decide

/-- Due and not due at the boundary outside SendData, and due in SendData. -/
theorem witness_HeartbeatOnlyOutsideSendData :
    (regs (exec (.tickEndpoint 0 900) (st { painted with lastHb := some 0 } (chan [] [])))).map Regs.lastHb = some (some 900) ∧
    (regs (exec (.tickEndpoint 0 899) (st { painted with lastHb := some 0 } (chan [] [])))).map Regs.lastHb = some (some 0) ∧
    sent (exec (.tickEndpoint 0 900) (st waiting (chan [] []))) = some [] ∧ waiting.state = .sendData ∧
    waiting.lastHb = some 0 := by decide

/-- An accepted ACK with an ignored word and another timestamp (V-F10). -/
theorem witness_IgnoredWordsAndTimestampsChangeNothing :
    (chan [0x00C00020] []).inbound.filterMap (fun a => classify Config.reference p0 a.word) =
      [⟨0x8FE00020, 3⟩, ⟨0x00C00020, 8⟩].filterMap (fun a : Arrival => classify Config.reference p0 a.word) := by decide

theorem witness_PreferredLayoutStaysWithoutANegative :
    ({ waiting with preferred := some .A } : Regs).preferred = some .A ∧ waiting.lastTag = some .A ∧
    negIn (acceptedOf Config.reference p0 [0x00C00020]) = false ∧
    (∀ P ∈ (chan [] [[0x00C00020]]).arriving, negIn (acceptedOf Config.reference p0 (P.map Arrival.word)) = false) ∧
    (∀ d, waiting.deadline = some d → 200 < d) :=
  ⟨rfl, rfl, by decide, by decide, fun d h => by cases h; decide⟩

theorem witness_RetriesAreBounded :
    waiting.state = .sendData ∧ waiting.sdSent = true ∧ waiting.repeatCount = 0 ∧
    [(0x82A00020#32, 200), (0x82C00020, 250), (0x82A00020, 300), (0x82A00020, 350)].length =
      Config.reference.maxRetries + 1 ∧
    ∀ x ∈ [(0x82A00020#32, 200), (0x82C00020, 250), (0x82A00020, 300), (0x82A00020, 350)],
      classify Config.reference p0 x.1 = some { kind := .nack, word := x.1 } ∨
      classify Config.reference p0 x.1 = some { kind := .syn, word := x.1 } := by decide

/-- P1 (Data, three lines requested), P2 (Menu, CTS(max=1)), and a steady-state Data request of one. -/
theorem witness_HandshakeIsLive :
    painted.state = .idle ∧ (chan [] []).inbound = [] ∧ painted.queue ≠ [] ∧ (∀ P ∈ (chan [] [[]]).arriving, P = []) ∧
    classify Config.reference p0 0x00A84020 = some { kind := .enq, word := 0x00A84020 } ∧
    (0x00A84020#32).getLsbD 19 = true ∧ painted.everDrained = false ∧
    min painted.queue.length Config.reference.recordCap ≤ ((0x82601820#32).extractLsb' 11 6).toNat ∧
    classify Config.reference p0 0x82601820 = some { kind := .cts, word := 0x82601820 } ∧
    classify Config.reference p0 0x80A04020 = some { kind := .enq, word := 0x80A04020 } ∧
    (0x80A04020#32).getLsbD 19 = false ∧ ({ painted with everDrained := true } : Regs).everDrained = true ∧
    1 ≤ ((0x02600820#32).extractLsb' 11 6).toNat ∧
    classify Config.reference p0 0x02600820 = some { kind := .cts, word := 0x02600820 } ∧
    classify Config.reference p0 0x00C00020 = some { kind := .ack, word := 0x00C00020 } := by decide

end Sys2Proof.Tests
end

section
/-! The state as a whole: what one row writes, what every step keeps, and what a tick can do to the lock. -/

namespace Sys2Proof.Machine

open Host (Outcome)

/-! ### What one row can do -/

section Rows
variable {s t : State} {ch : Nat} {p : EpConfig} {E : Ep} {i : Instr}

/-- An arriving word joins the queue's tail (R51). -/
theorem deliver_eq (h : s.ep? ch = some (p, E)) (a : Arrival) :
    deliver s ch a = .next ((s.setEp ch { E with chan := { E.chan with
      inbound := E.chan.inbound ++ [a] } }).answer .nothing) :=
  doEp_eq h _

/-- An inbound row is the arrival of its word (R51, R115; log 4). -/
theorem exec_inbound {stamp : Time} {w : Word} (hc : ctxOf i = some (.inbound ch stamp))
    (hw : encode i = some w) : exec i s = deliver s ch ⟨w, stamp⟩ := by
  cases i with
  | enq | dc1 | cts | ackIn | nack | syn => cases hc; cases hw; rfl
  | _ => cases hc

/-- The step on a word that decodes (log 1). -/
theorem step_word {ctx : WordCtx} {w : Word} {rest : List Input} (hx : s.inputs = .word ctx w :: rest)
    (hd : decode ctx w = .ok i) : step s = exec i { s with inputs := rest } := by
  simp only [step, hx, runInput, hd]

/-- A lone word that is read decodes at the place where it is read (log 7). -/
theorem decode_of_decodeTableWord {nbits w : Nat} (h : decodeTableWord nbits w = some i) :
    decode (loneCtx (BitVec.ofNat 32 w)) (BitVec.ofNat 32 w) = .ok i := by
  unfold decodeTableWord at h
  split at h
  · cases h
  · cases hd : decode (loneCtx (BitVec.ofNat 32 w)) (BitVec.ofNat 32 w) with
    | error why => rw [hd] at h; cases h
    | ok j => rw [hd] at h; cases h; rfl

/-- The next state is the state before with one endpoint and the answer written. -/
def WritesOnly (ch : Nat) (s t : State) : Prop :=
  ∃ E r, t = (s.setEp ch E).answer r

theorem onEp_writesOnly {f : Config → EpConfig → Ep → Ep × Ret} (h : onEp s ch f = .next t) :
    WritesOnly ch s t := by
  obtain ⟨p, E, -, ht⟩ := onEp_cases h
  exact ⟨_, _, ht⟩

theorem doEp_writesOnly {f : Config → EpConfig → Ep → Ep} (h : doEp s ch f = .next t) : WritesOnly ch s t :=
  onEp_writesOnly h

theorem askEp_writesOnly {f : Config → EpConfig → Ep → Ret} (h : askEp s ch f = .next t) :
    WritesOnly ch s t := by
  obtain ⟨p, E, he, ht⟩ := askEp_cases h
  exact ⟨E, _, by rw [setEp_same he]; exact ht⟩

theorem deliver_writesOnly {a : Arrival} (h : deliver s ch a = .next t) : WritesOnly ch s t :=
  doEp_writesOnly h

theorem sendWord_writesOnly {build : Label → Word} (h : sendWord s ch build = .next t) : WritesOnly ch s t :=
  doEp_writesOnly h

theorem supplyFrame_writesOnly {frame : HostFrame} (h : supplyFrame s ch frame = .next t) :
    WritesOnly ch s t := by
  unfold supplyFrame at h
  split at h
  · cases h
  · split at h
    · exact onEp_writesOnly h
    · cases h

theorem execSendRecord_writesOnly {rec : TextRecord} {idx : Int} {isLast : Bool}
    (h : execSendRecord ch rec idx isLast s = .next t) : WritesOnly ch s t := by
  unfold execSendRecord at h
  split at h
  · cases h
  · exact onEp_writesOnly h

/-- Every row that names a channel writes that channel's endpoint and the answer only (R32, R74). -/
theorem exec_writesOnly (hc : channelOf i = some ch) (h : exec i s = .next t) : WritesOnly ch s t := by
  cases i with
  | reverseBits | parity | pack | unpack | parityCheck | encodeA | encodeB | cntrlSub | differs
  | engineTick | reset => cases hc
  | selectOrder | pendingCount | getPlannedRecordCount | timeout =>
    cases hc; dsimp only [exec] at h; exact askEp_writesOnly h
  | enq | dc1 | cts | ackIn | nack | syn => cases hc; dsimp only [exec] at h; exact deliver_writesOnly h
  | rts | stx | etx | eot | ackOut | hb | cntrlA | cntrlB | data =>
    cases hc; dsimp only [exec] at h; exact sendWord_writesOnly h
  | sendRecord => cases hc; exact execSendRecord_writesOnly h
  | ingest | hostSupply => cases hc; dsimp only [exec] at h; exact supplyFrame_writesOnly h
  | peek | prepareBatch => cases hc; dsimp only [exec] at h; exact onEp_writesOnly h
  | _ => cases hc; dsimp only [exec] at h; exact doEp_writesOnly h

/-- What a row that writes one endpoint leaves as it was (R32, R83). -/
theorem WritesOnly.frame (h : WritesOnly ch s t) :
    t.cfg = s.cfg ∧ t.lastNow = s.lastNow ∧ t.inputs = s.inputs ∧
    t.eps.length = s.eps.length ∧ t.chans.length = s.chans.length ∧
    ∀ e, e ≠ ch → t.eps[e]? = s.eps[e]? ∧ t.chans[e]? = s.chans[e]? ∧ t.ep? e = s.ep? e := by
  obtain ⟨E, r, rfl⟩ := h
  refine ⟨rfl, rfl, rfl, by simp, by simp, fun e he => ⟨?_, ?_, ?_⟩⟩
  · exact List.getElem?_set_ne he.symm
  · exact List.getElem?_set_ne he.symm
  · rw [State.answer_ep, ep_setEp_ne he]

end Rows

/-! ### The invariant -/

section Invariant
variable {s t : State}

/-- A row that an outside agent can cause keeps a legal state legal, one case per shape of row. -/
theorem exec_inv {i : Instr} (h : Inv s) (hi : external i = true) (ht : exec i s = .next t) : Inv t := by
  cases i with
  | enq | dc1 | cts | ackIn | nack | syn => dsimp only [exec] at ht; exact deliver_inv h ht
  | rts | stx | etx | eot | ackOut | hb =>
    dsimp only [exec] at ht; exact sendWord_inv h (fun _ => packed_ctlWord _ _ _ _) ht
  | cntrlA | cntrlB => dsimp only [exec] at ht; exact sendWord_inv h (fun _ => packed_cntrlWord _ _ _) ht
  | data => dsimp only [exec] at ht; exact sendWord_inv h (fun _ => packed_dataWord _ _ _ _ _) ht
  | reverseBits | parity | pack | unpack | parityCheck | encodeA | encodeB | cntrlSub | differs =>
    dsimp only [exec] at ht; exact answerWith_inv h ht
  | selectOrder | pendingCount | getPlannedRecordCount | timeout => dsimp only [exec] at ht; exact askEp_inv h ht
  | ingest | hostSupply => dsimp only [exec] at ht; exact supplyFrame_inv h ht
  | engineTick => dsimp only [exec] at ht; exact execEngineTick_inv h ht
  | reset => dsimp only [exec] at ht; exact execReset_inv h ht
  | _ => cases hi

/-- An event that an outside agent can cause keeps a legal state legal. -/
theorem runInput_inv {x : Input} (h : Inv s) (hx : externalInput x = true) (ht : runInput x s = .next t) :
    Inv t := by
  cases x with
  | call i => exact exec_inv h hx ht
  | arrivals ch batches => exact doEp_inv h (fun _ _ hE => ⟨hE.reg, hE.sent⟩) ht
  | word ctx w =>
    simp only [runInput] at ht
    split at ht
    · next i hd => exact exec_inv h (decode_external hd) ht
    · split at ht
      · exact deliver_inv h ht
      · cases ht

/-- The invariant is inductive. -/
theorem step_inv (h : Inv s) (ht : step s = .next t) : Inv t := by
  unfold step at ht
  split at ht
  · cases ht; exact h
  · next x rest hx =>
    obtain ⟨hrest, hext⟩ := h.tail hx
    exact runInput_inv hrest hext ht

end Invariant

/-! ### The lock over a tick -/

section Lock
variable {c : Config} {p : EpConfig} {now : Time} {A : List Rx} {E : Ep}

/-- What counts against a sent payload (R248, R257): a SYN or NACK, or a reached deadline without an ACK. -/
def Failed (now : Time) (A : List Rx) (r : Regs) : Prop :=
  negIn A = true ∨ posIn A = false ∧ expired r now = true

theorem failed_iff {r : Regs} : Failed now A r ↔
    (∃ x ∈ A, x.kind = .syn) ∨ (∃ x ∈ A, x.kind = .nack) ∨
      ((¬ ∃ x ∈ A, x.kind = .ack) ∧ ∃ d, r.deadline = some d ∧ d ≤ now) := by
  rw [Failed, negIn_iff, expired_iff, ← posIn_iff, Bool.not_eq_true, or_assoc]

/-- A retry releases the lock only where it exhausts the budget (R251, R252). -/
theorem retry_lock (c : Config) (p : EpConfig) (now : Time) (E : Ep) :
    (retry c p now E).reg.lock = E.reg.lock ∨
      (c.maxRetries ≤ E.reg.repeatCount ∧ retry c p now E = exhaust E) := by
  obtain ⟨hagain, hspent⟩ := retry_cases c p now E
  rcases Nat.lt_or_ge E.reg.repeatCount c.maxRetries with h | h
  · exact .inl (hagain h).2.1
  · exact .inr ⟨h, hspent h⟩

/-- The same of a scratchpad character (R261, R262). -/
theorem spRetry_lock (c : Config) (p : EpConfig) (now : Time) (E : Ep) :
    (spRetry c p now E).reg.lock = E.reg.lock ∨
      (c.maxRetries ≤ E.reg.repeatCount ∧ spRetry c p now E = spExhaust E) := by
  obtain ⟨hagain, hspent⟩ := spRetry_cases c p now E
  rcases Nat.lt_or_ge E.reg.repeatCount c.maxRetries with h | h
  · exact .inl (hagain h).2
  · exact .inr ⟨h, hspent h⟩

/-- Acting on a CTS does not touch the lock (R242, R243). -/
theorem acceptCts_lock (w : Word) : (acceptCts w E).reg.lock = E.reg.lock := by
  simp only [acceptCts]
  split <;> rfl

/-- The RTS handler does not touch the lock (R240, R242). -/
theorem rtsHandler_lock (c : Config) (p : EpConfig) (A : List Rx) (E : Ep) :
    (rtsHandler c p A E).reg.lock = E.reg.lock := by
  unfold rtsHandler
  split
  · next hr =>
    rw [ctsHandler, if_pos hr]
    split
    · exact acceptCts_lock _
    · rfl
  · next hr =>
    rw [rtsTransmit, if_neg hr]
    split <;> rfl

/-- The Idle handler keeps a held lock; without one it learns the first ENQ's target only (R34, R231). -/
theorem idleHandler_lock (c : Config) (A : List Rx) (E : Ep) :
    (idleHandler c A E).reg.lock = E.reg.lock ∨
      (E.reg.lock = none ∧ (idleHandler c A E).reg.state = .rts ∧
        ∃ r, firstOf .enq A = some r ∧ (idleHandler c A E).reg.lock = some (enqTarget r.word)) := by
  unfold idleHandler
  split
  · next r hr =>
    cases hl : E.reg.lock with
    | none => exact .inr ⟨rfl, rfl, r, hr, by simp [acceptEnq, enterRTS, hl]⟩
    | some l => exact .inl (by simp [acceptEnq, enterRTS, hl])
  · unfold idleToScratchpad
    split <;> exact .inl rfl

/-- The SendData handler releases the lock only by exhaustion against a sent batch (R248, R252). -/
theorem senddataHandler_lock (c : Config) (p : EpConfig) (now : Time) (A : List Rx) (E : Ep) :
    (senddataHandler c p now A E).reg.lock = E.reg.lock ∨
      (E.reg.sdSent = true ∧ Failed now A E.reg ∧ c.maxRetries ≤ E.reg.repeatCount ∧
        senddataHandler c p now A E = exhaust E) := by
  unfold senddataHandler
  split
  · next hsent =>
    rw [senddataResponses, if_pos hsent]
    have hretry (hf : Failed now A E.reg) :=
      (retry_lock c p now E).imp_right fun h => (⟨hsent, hf, h⟩ : _ ∧ _ ∧ _)
    split
    · next hneg => exact hretry (.inl hneg)
    · split
      · exact .inl (ackData_cases E).1
      · next hpos =>
        split
        · next hexp => exact hretry (.inr ⟨by simpa using hpos, hexp⟩)
        · exact .inl rfl
  · exact .inl (senddataTransmit_fields c p now E).2

/-- The Scratchpad handler releases the lock only by exhaustion against a sent character, where no DC1
starts the sequence over (R257, R258, R262). -/
theorem scratchpadHandler_lock (c : Config) (p : EpConfig) (now : Time) (A : List Rx) (E : Ep) :
    (scratchpadHandler c p now A E).reg.lock = E.reg.lock ∨
      (E.reg.spSent = true ∧ dc1In A = false ∧ Failed now A E.reg ∧ c.maxRetries ≤ E.reg.repeatCount ∧
        scratchpadHandler c p now A E = spExhaust E) := by
  unfold scratchpadHandler
  split
  · rw [scratchpadRun_restart]
    exact .inl (sendOrFinish_cases c p now (restartScratchpad c E)).1
  · next hdc1 =>
    unfold scratchpadRun
    split
    · next hsent =>
      have hretry (hf : Failed now A E.reg) :=
        (spRetry_lock c p now E).imp_right fun h =>
          (⟨hsent, (Bool.not_eq_true _).mp hdc1, hf, h⟩ : _ ∧ _ ∧ _ ∧ _)
      split
      · next hneg => exact hretry (.inl hneg)
      · split
        · exact .inl (sendOrFinish_cases c p now _).1
        · next hpos =>
          split
          · next hexp => exact hretry (.inr ⟨by simpa using hpos, hexp⟩)
          · exact .inl rfl
    · exact .inl (sendOrFinish_cases c p now E).1

/-- What a tick can do to the lock (R34, R290, R336), from the registers `r` to `r'` on the batch `A`. -/
inductive LockStep (c : Config) (now : Time) (A : List Rx) (r r' : Regs) : Prop
  | kept (hlock : r'.lock = r.lock)
  /-- Exhaustion (R252, R262). -/
  | released (hlock : r'.lock = none) (hstate : r'.state = .idle) (hfailed : Failed now A r)
      (hspent : c.maxRetries ≤ r.repeatCount)
      (hsent : r.state = .sendData ∧ r.sdSent = true ∨
        r.state = .scratchpad ∧ r.spSent = true ∧ dc1In A = false)
  /-- The first ENQ in Idle (R231). -/
  | learned (hfree : r.lock = none) (hidle : r.state = .idle) (hstate : r'.state = .rts)
      (hlock : ∃ x, firstOf .enq A = some x ∧ r'.lock = some (enqTarget x.word))

theorem runHandler_lock (c : Config) (p : EpConfig) (now : Time) (A : List Rx) (E : Ep) :
    LockStep c now A E.reg (runHandler c p now A E).reg := by
  unfold runHandler
  split
  · next hs =>
    rcases idleHandler_lock c A E with h | ⟨hfree, hst, hlock⟩
    · exact .kept h
    · exact .learned hfree hs hst hlock
  · exact .kept (rtsHandler_lock c p A E)
  · next hs =>
    rcases senddataHandler_lock c p now A E with h | ⟨hsent, hf, hspent, he⟩
    · exact .kept h
    · rw [he]
      exact .released rfl rfl hf hspent (.inl ⟨hs, hsent⟩)
  · next hs =>
    rcases scratchpadHandler_lock c p now A E with h | ⟨hsent, hdc1, hf, hspent, he⟩
    · exact .kept h
    · rw [he]
      exact .released rfl rfl hf hspent (.inr ⟨hs, hsent, hdc1⟩)

/-- Drain, keypresses and heartbeat leave the lock to the handler (R220). -/
theorem tickEndpoint_lock (c : Config) (p : EpConfig) (now : Time) (E : Ep) :
    LockStep c now (acceptedOf c p E.drained) E.reg (tickEndpoint c p now E).reg := by
  obtain ⟨K, -, hK, -, -, hT, -, -⟩ := tick_eq_handler c p now E
  have h := runHandler_lock c p now (acceptedOf c p E.drained) K
  rw [hT]
  rw [hK] at h
  cases h with
  | kept hlock => exact .kept hlock
  | released hlock hstate hfailed hspent hsent => exact .released hlock hstate hfailed hspent hsent
  | learned hfree hidle hstate hlock => exact .learned hfree hidle hstate hlock

end Lock

end Sys2Proof.Machine

open Sys2Proof Sys2Proof.Machine

/-- Settles O9: `step_inv`, the invariant being inductive as it stands. -/
theorem everyStepKeepsTheStateLegal : Obligations.EveryStepKeepsTheStateLegal := by
  intro s t h ht
  exact step_inv h ht

/-- Settles O10: a row that names a channel writes one endpoint and the answer only. -/
theorem operationsLeaveOtherEndpointsAlone : Obligations.OperationsLeaveOtherEndpointsAlone := by
  intro i ch s t hc h
  exact (exec_writesOnly hc h).frame

/-- Settles O52: the three things a tick can do to the lock, read off for a held and for a free one. -/
theorem lockIsReleasedOnlyByExhaustion : Obligations.LockIsReleasedOnlyByExhaustion := by
  intro s t ch p E E1 now he ht hE1 A has failed
  obtain ⟨hexec, hep⟩ := exec_tickEndpoint he now
  obtain rfl : _ = t := Host.Outcome.next.inj (hexec.symm.trans ht)
  obtain rfl : _ = E1 := (Prod.mk.inj (Option.some.inj (hep.symm.trans hE1))).2
  have hdc1 : dc1In A = false ↔ ¬ has .dc1 := by rw [← Bool.not_eq_true, dc1In_iff]
  cases tickEndpoint_lock s.cfg p now E with
  | kept hkept => exact ⟨fun _ hl => .inl (hkept.trans hl), fun hl => .inl (hkept.trans hl)⟩
  | released hnone hidle hf hspent hsent =>
    refine ⟨fun _ _ => .inr ⟨hnone, hidle, failed_iff.1 hf, hspent, ?_⟩, fun _ => .inl hnone⟩
    exact hsent.imp_right fun ⟨hs, hchar, hno⟩ => ⟨hs, hchar, hdc1.1 hno⟩
  | learned hfree hidle hrts hlearned =>
    obtain ⟨r, hr, hlock⟩ := hlearned
    refine ⟨fun l hl => absurd (hfree.symm.trans hl) (Option.some_ne_none l).symm,
      fun _ => .inr ⟨hidle, hrts, r, hr, ?_⟩⟩
    rw [hlock, enqTarget_eq]

/-- Settles O5: the step's own case of a word, and the decoder at the place of a lone word. -/
theorem stepRunsTheDecodedWord : Obligations.StepRunsTheDecodedWord := by
  refine ⟨fun s ctx w rest i hx hd => step_word hx hd, fun s nbits w i hw => ?_⟩
  exact step_word (s := s.withFetchWord nbits w) rfl (decode_of_decodeTableWord hw)

/-- Settles O12: each of the six inbound rows is the arrival of its word. -/
theorem inboundWordJoinsTheQueue : Obligations.InboundWordJoinsTheQueue := by
  intro i ch stamp w s p E hc hw he
  rw [exec_inbound hc hw, deliver_eq he]
end

section
/-! Words and instructions (30_encoding.md): the decoder and the encoder undo each other, the inbound
classification, what an outbound row sends, and the step on an event that is no decoded word. -/

namespace Sys2Proof.Machine

/-! ### From an instruction to its word and back -/

/-- Every row's word, read where it stands, is the row's instruction (R90 to R112). -/
theorem decode_encode (i : Instr) : Laws.RoundTrip.Statement i := by
  cases i with
  | enq ch stamp h x mode tgt => exact Laws.RoundTrip.enq ch stamp h x mode tgt
  | dc1 ch stamp h x key => exact Laws.RoundTrip.dc1 ch stamp h x key
  | cts ch stamp h x max => exact Laws.RoundTrip.cts ch stamp h x max
  | ackIn ch stamp h x => exact Laws.RoundTrip.ackIn ch stamp h x
  | nack ch stamp h x => exact Laws.RoundTrip.nack ch stamp h x
  | syn ch stamp h x => exact Laws.RoundTrip.syn ch stamp h x
  | rts ch label count mode => exact Laws.RoundTrip.rts ch label count mode
  | stx ch label idx wc => exact Laws.RoundTrip.stx ch label idx wc
  | etx ch label => exact Laws.RoundTrip.etx ch label
  | eot ch label => exact Laws.RoundTrip.eot ch label
  | ackOut ch label => exact Laws.RoundTrip.ackOut ch label
  | hb ch label addr => exact Laws.RoundTrip.hb ch label addr
  | cntrlA ch label color line attr col => exact Laws.RoundTrip.cntrlA ch label color line attr col
  | cntrlB ch label color count function line => exact Laws.RoundTrip.cntrlB ch label color count function line
  | data ch label c0 c1 c2 => exact Laws.RoundTrip.data ch label c0 c1 c2
  | _ => exact Laws.RoundTrip.noWord rfl

/-! ### Fields put together again -/

/-- A slice of one bit. -/
theorem extract_bit {n : Nat} (x : BitVec n) (k : Nat) : x.extractLsb' k 1 = BitVec.ofBool (x.getLsbD k) := by
  apply BitVec.eq_of_getLsbD_eq
  intro i hi
  obtain rfl : i = 0 := by omega
  simp

/-- The mode bit of the mode that bit k stands for is bit k (R101, R105). -/
theorem modeBit_modeOf {n : Nat} (x : BitVec n) (k : Nat) :
    modeBit (modeOf (x.getLsbD k)) = x.extractLsb' k 1 := by
  rw [extract_bit]
  cases x.getLsbD k <;> rfl

/-- ENQ's argument is its unnamed bit, its mode and its target (R101). -/
theorem enqArg_fields (a : BitVec 10) :
    a.extractLsb' 9 1 ++ modeBit (modeOf (a.getLsbD 8)) ++ a.extractLsb' 0 8 = a := by
  rw [modeBit_modeOf, extract_join a 8 1 1]
  exact (extract_join a 0 2 8).trans (extract_full a)

/-- RTS's argument is its mode and its count, where the bits no rule names are 0 (R99, R105). -/
theorem rtsArg_fields {a : BitVec 10} (h9 : a.getLsbD 9 = false) (h6 : a.extractLsb' 6 2 = 0#2) :
    rtsArg (modeOf (a.getLsbD 8)) (a.extractLsb' 0 6) = a := by
  have h0 : 0#1 = a.extractLsb' 9 1 := by rw [extract_bit, h9]; rfl
  rw [rtsArg, modeBit_modeOf, ← h6, h0, extract_join a 8 1 1, extract_join a 6 2 2]
  exact (extract_join a 0 4 6).trans (extract_full a)

/-- STX's argument is its index and its word count (R106). -/
theorem stxArg_fields (a : BitVec 10) : stxArg (a.extractLsb' 5 5) (a.extractLsb' 0 5) = a :=
  (extract_join a 0 5 5).trans (extract_full a)

/-- The heartbeat's argument is its address, where the two bits above are 0 (R112). -/
theorem hbArg_fields {a : BitVec 10} (h8 : a.extractLsb' 8 2 = 0#2) : hbArg (a.extractLsb' 0 8) = a := by
  rw [hbArg, ← h8]
  exact (extract_join a 0 2 8).trans (extract_full a)

/-- Layout A's four fields are the low 16 bits of the payload (R110). -/
theorem subA_fields (v : BitVec 18) :
    subA (v.extractLsb' 13 3) (v.extractLsb' 8 5) (v.extractLsb' 5 3) (v.extractLsb' 0 5) = v.extractLsb' 0 16 := by
  rw [subA, extract_join v 8 3 5, extract_join v 5 8 3]
  exact extract_join v 0 11 5

/-- Layout B's four fields are the low 16 bits of the payload, where bit 15 is 0 (R111). -/
theorem subB_fields {v : BitVec 18} (h15 : v.getLsbD 15 = false) :
    subB (v.extractLsb' 12 3) (v.extractLsb' 8 4) (v.extractLsb' 5 3) (v.extractLsb' 0 5) = v.extractLsb' 0 16 := by
  have h0 : 0#1 = v.extractLsb' 15 1 := by rw [extract_bit, h15]; rfl
  rw [subB, h0, extract_join v 12 1 3, extract_join v 8 4 4, extract_join v 5 8 3]
  exact extract_join v 0 11 5

/-- Data and SDI are the bits 28..8 of a word (R90, R104). -/
theorem wData_append_wSdi (w : Word) : wData w ++ wSdi w = w.extractLsb' 8 21 := extract_join w 8 19 2

/-- The data field is the payload and bit 10 (R96). -/
theorem wData_payload (w : Word) : wData w = wPayload w ++ BitVec.ofBool (wB10 w) := by
  rw [wB10, ← extract_bit]
  exact (extract_join w 10 18 1).symm

/-! ### From a word to its instruction and back -/

section Decoded
variable {ch : Nat} {stamp : Time} {w : Word} {i : Instr}

/-- An inbound word from its bits, its code and any argument equal to its own (R90, R98, R99). -/
theorem rxWord_of_fields {code : BitVec 8} {arg : BitVec 10} (hc : wCode w = code) (ha : arg = wArg w) :
    rxWord (rxBits w) code arg = w := by
  subst hc ha
  exact rxWord_fields w

/-- The code of a kind (R97). -/
def codeOf : RxKind → BitVec 8
  | .enq => codeENQ
  | .dc1 => codeDC1
  | .cts => codeCTS
  | .ack => codeACK
  | .nack => codeNACK
  | .syn => codeSYN

/-- A word of a kind has the kind's code (R97, R100). -/
theorem wCode_of_rxKindOf {k : RxKind} (h : rxKindOf w = some k) : wCode w = codeOf k := by
  unfold rxKindOf at h
  split_ifs at h with h1 h2 h3 h4 h5 h6 <;> cases h <;> assumption

/-- A word whose inbound reading is an instruction is what that instruction encodes to (R100 to R103, R108). -/
theorem encode_decodeInbound (h : decodeInbound ch stamp w = .ok i) :
    encode i = some w ∧ ctxOf i = some (.inbound ch stamp) := by
  unfold decodeInbound at h
  cases hk : rxKindOf w with
  | none => rw [hk] at h; cases h
  | some k =>
    rw [hk] at h
    have hword {arg} (ha : arg = wArg w) : some (rxWord (rxBits w) (codeOf k) arg) = some w :=
      congrArg some (rxWord_of_fields (wCode_of_rxKindOf hk) ha)
    cases k with
    | enq => cases h; exact ⟨hword (enqArg_fields (wArg w)), rfl⟩
    | dc1 => cases h; exact ⟨hword ((extract_join (wArg w) 0 3 7).trans (extract_full _)), rfl⟩
    | cts => cases h; exact ⟨hword ((extract_join (wArg w) 0 4 6).trans (extract_full _)), rfl⟩
    | ack | nack | syn => cases h; exact ⟨hword rfl, rfl⟩

/-- An outbound control word of odd parity from its label, its code and any argument equal to its own,
where SSM, SDI and bit 10 are 0 (R92, R93, R94, R96). -/
theorem ctl_of_fields {code : BitVec 8} {arg : BitVec 10} (hp : popcount w % 2 = 1) (hs : wSsm w = 0#2)
    (hb : wB10 w = false) (hd : wSdi w = 0#2) (hc : wCode w = code) (ha : arg = wArg w) :
    parityWord (wLabel w) 0#2 (ctlData code arg) = w := by
  have hdata : ctlData code arg = wData w := by rw [wData_parts, hb, hc, ← ha]; rfl
  rw [hdata, ← hd]
  exact parityWord_fields hp hs

/-- A CNTRL word of odd parity from its label and the low 16 bits of its payload, where all other bits
are 0 (R109). -/
theorem cntrl_of_fields (hp : popcount w % 2 = 1) (hs : wSsm w = 0#2) (hb : wB10 w = false)
    (hd : wSdi w = 0#2) (h16 : (wPayload w).extractLsb' 16 2 = 0#2) :
    parityWord (wLabel w) 0#2 (cntrlData ((wPayload w).extractLsb' 0 16)) = w := by
  have hpay : 0#2 ++ (wPayload w).extractLsb' 0 16 = wPayload w := by
    rw [← h16]
    exact (extract_join (wPayload w) 0 2 16).trans (extract_full _)
  have hdata : cntrlData ((wPayload w).extractLsb' 0 16) = wData w := by
    rw [wData_payload, hb, cntrlData, hpay]; rfl
  rw [hdata, ← hd]
  exact parityWord_fields hp hs

/-- A word whose control reading is an instruction is what that instruction encodes to (R105 to R108, R112). -/
theorem encode_decodeControl (hp : popcount w % 2 = 1) (h : decodeControl ch w = .ok i) :
    encode i = some w ∧ ctxOf i = some (.outbound ch .control) := by
  unfold decodeControl at h
  split at h
  · cases h
  · next h0 =>
    simp only [not_or, ne_eq, Decidable.not_not, Bool.not_eq_true] at h0
    obtain ⟨hs, hb, hd⟩ := h0
    have hword {code arg} (hc : wCode w = code) (ha : arg = wArg w) :
        some (parityWord (wLabel w) 0#2 (ctlData code arg)) = some w :=
      congrArg some (ctl_of_fields hp hs hb hd hc ha)
    split_ifs at h with hrts hbits hstx hetx hrest heot hrest hack hrest hhb hrest <;> cases h
    · obtain ⟨h9, h6⟩ := not_or.1 hbits
      exact ⟨hword hrts (rtsArg_fields (eq_false_of_ne_true h9) (Decidable.not_not.1 h6)), rfl⟩
    · exact ⟨hword hstx (stxArg_fields (wArg w)), rfl⟩
    · exact ⟨hword hetx (Decidable.not_not.1 hrest).symm, rfl⟩
    · exact ⟨hword heot (Decidable.not_not.1 hrest).symm, rfl⟩
    · exact ⟨hword hack (Decidable.not_not.1 hrest).symm, rfl⟩
    · exact ⟨hword hhb (hbArg_fields (Decidable.not_not.1 hrest)), rfl⟩

/-- A word whose CNTRL reading is an instruction is what that instruction encodes to (R109 to R111). -/
theorem encode_decodeCntrl {tag : Tag} (hp : popcount w % 2 = 1) (h : decodeCntrl ch tag w = .ok i) :
    encode i = some w ∧ ctxOf i = some (.outbound ch (.cntrl tag)) := by
  unfold decodeCntrl at h
  split at h
  · cases h
  · next h0 =>
    simp only [not_or, ne_eq, Decidable.not_not, Bool.not_eq_true] at h0
    obtain ⟨hs, hb, hd, h16⟩ := h0
    have hword := cntrl_of_fields hp hs hb hd h16
    cases tag with
    | A =>
      cases h
      refine ⟨congrArg some ?_, rfl⟩
      rw [subA_fields, hword]
    | B =>
      dsimp only at h
      split at h
      · cases h
      · next h15 =>
        cases h
        refine ⟨congrArg some ?_, rfl⟩
        rw [subB_fields (eq_false_of_ne_true h15), hword]

/-- A word whose DATA reading is an instruction is what that instruction encodes to (R104). -/
theorem encode_decodeData (hp : popcount w % 2 = 1) (h : decodeData ch w = .ok i) :
    encode i = some w ∧ ctxOf i = some (.outbound ch .data) := by
  unfold decodeData at h
  split at h
  · cases h
  · next hs =>
    cases h
    have hchars : charBits (w.extractLsb' 8 7) (w.extractLsb' 15 7) (w.extractLsb' 22 7) = w.extractLsb' 8 21 := by
      rw [charBits, extract_join w 15 7 7]
      exact extract_join w 8 14 7
    refine ⟨congrArg some ?_, rfl⟩
    rw [hchars, extract_extract w 8 21 0 2 (by decide), extract_extract w 8 21 2 19 (by decide)]
    exact parityWord_fields hp (Decidable.not_not.1 hs)

/-- The decoder loses no bit of a word, the parity bit of an outbound word excepted (R91, R134). -/
theorem encode_decode {ctx : WordCtx} (h : decode ctx w = .ok i)
    (hp : ∀ ch pos, ctx = .outbound ch pos → popcount w % 2 = 1) :
    encode i = some w ∧ ctxOf i = some ctx := by
  cases ctx with
  | inbound ch stamp => exact encode_decodeInbound h
  | outbound ch pos =>
    have hodd := hp ch pos rfl
    cases pos with
    | control => exact encode_decodeControl hodd h
    | cntrl tag => exact encode_decodeCntrl hodd h
    | data => exact encode_decodeData hodd h

/-! ### The classification of inbound words -/

/-- An inbound word is an instruction or it is ignored (R118). -/
theorem decodeInbound_total (ch : Nat) (stamp : Time) (w : Word) :
    (∃ i, decodeInbound ch stamp w = .ok i) ∨ decodeInbound ch stamp w = .error .irrelevant := by
  unfold decodeInbound
  cases rxKindOf w with
  | none => exact .inr rfl
  | some k => cases k <;> exact .inl ⟨_, rfl⟩

/-- A word is accepted by its parity and its label (R100). -/
theorem accepted_iff {c : Config} {p : EpConfig} : accepted c p w = true ↔
    (c.dropBadParity = false ∨ popcount w % 2 = 1) ∧ (wLabel w).toNat = p.ownAddr := by
  simp [accepted, parityOk]

/-- The kind of an accepted word, read from its code (R97, R100). -/
theorem map_rxKindOf {α : Type} (f : RxKind → α) : (rxKindOf w).map f =
    if wCode w = codeENQ then some (f .enq)
    else if wCode w = codeDC1 then some (f .dc1)
    else if wCode w = codeCTS then some (f .cts)
    else if wCode w = codeACK then some (f .ack)
    else if wCode w = codeNACK then some (f .nack)
    else if wCode w = codeSYN then some (f .syn)
    else none := by
  simp only [rxKindOf, apply_ite (Option.map f), Option.map_some, Option.map_none]

/-! ### What an outbound row sends -/

/-- The bits 28..8 of a word laid out with generated parity are its data and SDI (R90). -/
theorem payload_parityWord (label : Label) (sdi : BitVec 2) (data : BitVec 19) :
    (parityWord label sdi data).extractLsb' 8 21 = data ++ sdi := by
  rw [← wData_append_wSdi, wData_parityWord, wSdi_parityWord]

/-- Bit i of a word laid out is bit 7 - i of its label (R95). -/
theorem labelBit_parityWord (label : Label) (sdi : BitVec 2) (data : BitVec 19) {j : Nat} (hj : j < 8) :
    (parityWord label sdi data).getLsbD j = label.getLsbD (7 - j) := by
  rw [parityWord, getLsbD_layWord, getLsbD_lowBits, if_pos (by omega), if_pos hj, getLsbD_reverse8 _ _ hj]

/-- Sending a built word is sending the word it is without the mask, its label masked (R133). -/
theorem sendWord_fields {s : State} {build : Label → Word} {label : Label} {sdi : BitVec 2} {data : BitVec 19}
    (hw : parityWord label sdi data = w) (hb : ∀ mask, build mask = parityWord (label &&& mask) sdi data) :
    sendWord s ch build = sendWord s ch fun mask => parityWord (wLabel w &&& mask) (wSdi w) (wData w) := by
  subst hw
  simp only [funext hb, wLabel_parityWord, wSdi_parityWord, wData_parityWord]

/-- An outbound row sends its own word again, the label masked and the parity generated (R133, R139; log 5). -/
theorem exec_outbound {s : State} {pos : OutPos} (hc : ctxOf i = some (.outbound ch pos)) (hw : encode i = some w) :
    exec i s = sendWord s ch fun mask => parityWord (wLabel w &&& mask) (wSdi w) (wData w) := by
  cases i with
  | rts | stx | etx | eot | ackOut | hb =>
    cases hc; cases hw; dsimp only [exec]
    exact sendWord_fields rfl fun mask => by simp [ctlWord_eq]
  | cntrlA | cntrlB =>
    cases hc; cases hw; dsimp only [exec]
    exact sendWord_fields rfl fun mask => by simp [cntrlWord_eq]
  | data =>
    cases hc; cases hw; dsimp only [exec]
    exact sendWord_fields rfl fun mask => by simp [dataWord_eq]
  | _ => cases hc

end Decoded

/-! ### The step on the other events -/

section Events
variable {s : State} {ch : Nat}

/-- The step takes the first event off the list and carries it out (log 1). -/
theorem step_cons {x : Input} {rest : List Input} (hx : s.inputs = x :: rest) :
    step s = runInput x { s with inputs := rest } := by
  simp only [step, hx]

/-- An inbound word that is no instruction arrives all the same (R115, R118). -/
theorem runInput_ignored {stamp : Time} {w : Word} {why : DecodeError}
    (hd : decode (.inbound ch stamp) w = .error why) :
    runInput (.word (.inbound ch stamp) w) s = deliver s ch ⟨w, stamp⟩ := by
  simp only [runInput, hd]

/-- Words for coming Peeks join those already to come (R181; log 6). -/
theorem runInput_arrivals (bs : List (List Arrival)) : runInput (.arrivals ch bs) s =
    doEp s ch fun _ _ E => { E with chan := { E.chan with arriving := E.chan.arriving ++ bs } } := rfl

/-- An outbound word the engine never builds is refused by name (R116; log 26). -/
theorem runInput_notEngineWord {pos : OutPos} {w : Word} {why : DecodeError}
    (hd : decode (.outbound ch pos) w = .error why) :
    runInput (.word (.outbound ch pos) w) s = .refused (.notEngineWord why) := by
  simp only [runInput, hd, refuse]

end Events

end Sys2Proof.Machine

open Sys2Proof Sys2Proof.Machine

/-- Settles O2: the round trip of each row, one lemma per row (`decode_encode`). -/
theorem decodeOfEncodedInstructionIsTheInstruction :
    Obligations.DecodeOfEncodedInstructionIsTheInstruction := by
  intro i ctx w hc hw
  exact decode_encode i ctx w hc hw

/-- Settles O3: the fields each decoder reads, put together again, are the word (`encode_decode`). -/
theorem encodeOfDecodedWordIsTheWord : Obligations.EncodeOfDecodedWordIsTheWord := by
  intro ctx w i hd hp
  exact encode_decode hd hp

/-- Settles O4: acceptance by parity and label, the kind by the code, and a total inbound decoder. -/
theorem everyInboundWordIsClassified : Obligations.EveryInboundWordIsClassified := by
  refine ⟨fun c p w => ?_, fun ch stamp w => decodeInbound_total ch stamp w⟩
  simp only [classify, accepted_iff, map_rxKindOf]
  rfl

/-- Settles O13: an outbound row is the Send of its own word, masked, with generated parity. -/
theorem outboundWordIsSent : Obligations.OutboundWordIsSent := by
  intro i ch pos w s p E hc hw he
  refine ⟨parityWord (wLabel w &&& s.cfg.labelMask) (wSdi w) (wData w), ?_, popcount_parityWord .., wSsm_parityWord ..,
    ?_, wLabel_parityWord ..⟩
  · exact (exec_outbound hc hw).trans (doEp_eq he _)
  · rw [payload_parityWord, wData_append_wSdi]

/-- Settles O1: the decoder evaluated on the spec's own words. -/
theorem decodeReadsTheWordsOfTheSpec : Obligations.DecodeReadsTheWordsOfTheSpec :=
  ⟨rfl, rfl, rfl, rfl, rfl, rfl, rfl, rfl, rfl, rfl, rfl, rfl, rfl, rfl, rfl⟩

/-- Settles O6: the step takes the event off the list, and each kind of event has its one meaning. -/
theorem stepCarriesOutEveryOtherEvent : Obligations.StepCarriesOutEveryOtherEvent := by
  refine ⟨?none, ?call, ?ignored, ?arrivals, ?ignoredOut, ?arrivalsOut, ?outbound⟩
  case none => intro s hx; simp only [step, hx]
  case call => intro s i rest hx; exact step_cons hx
  case ignored =>
    intro s ch stamp w rest p E why hx hd he
    rw [step_cons hx, runInput_ignored hd]
    exact deliver_eq (s := { s with inputs := rest }) he _
  case arrivals =>
    intro s ch bs rest p E hx he
    rw [step_cons hx, runInput_arrivals]
    exact doEp_eq (s := { s with inputs := rest }) he _
  case ignoredOut =>
    intro s ch stamp w rest why hx hd hch
    rw [step_cons hx, runInput_ignored hd]
    exact doEp_none (ep_none_of_le (s := { s with inputs := rest }) hch) _
  case arrivalsOut =>
    intro s ch bs rest hx hch
    rw [step_cons hx, runInput_arrivals]
    exact doEp_none (ep_none_of_le (s := { s with inputs := rest }) hch) _
  case outbound =>
    intro s ch pos w rest why hx hd
    rw [step_cons hx, runInput_notEngineWord hd]

/-- Settles O15: pack answers a word laid out with generated parity, whose fields read back. -/
theorem packedWordHasOddParity : Obligations.PackedWordHasOddParity := by
  intro s label sdi data
  refine ⟨packWord s.cfg.labelMask label sdi data, rfl, ?_⟩
  rw [packWord_eq]
  exact ⟨popcount_parityWord .., wSsm_parityWord .., wData_parityWord .., wSdi_parityWord ..,
    fun i hi => labelBit_parityWord _ _ _ hi⟩
end

section
/-! SUPPORT. What the Word Codec answers (spec/40_codec.md): the two parity questions as counts of set
bits, and `unpack` of a word laid out with generated parity. -/

namespace Sys2Proof.Machine

/-- The whole next state of reverse_bits: only the answer is written (R130, R138; log 3). -/
theorem exec_reverseBits (x : BitVec 8) (s : State) :
    exec (.reverseBits x) s = .next { s with ret := .byte (reverse8 x) } := rfl

/-- A word passes the parity check exactly when it has an odd number of set bits (R136). -/
theorem parityOk_iff {w : Word} : parityOk w = true ↔ popcount w % 2 = 1 := beq_iff_eq

/-- The parity bit as the number of R132. -/
theorem toNat_parityBit (v : BitVec 31) : (parityBit v).toNat = 1 - popcount v % 2 := by
  unfold parityBit
  rcases Nat.mod_two_eq_zero_or_one (popcount v) with h | h <;> rw [h] <;> rfl

/-- The parity bit makes the 32 bits odd (R132). -/
theorem popcount_parityBit_append (v : BitVec 31) : popcount (BitVec.ofBool (parityBit v) ++ v) % 2 = 1 := by
  rw [popcount_ofBool_append, toNat_parityBit]
  omega

/-- `unpack` of a word laid out with generated parity gives back what it was laid out from (R135, R137). -/
theorem unpackWord_parityWord (label : Label) (sdi : BitVec 2) (data : BitVec 19) :
    unpackWord (parityWord label sdi data) =
      { parity := parityBit (lowBits 0#2 data sdi label), ssm := 0#2, sdi := sdi, data := data,
        label := label, parityOk := true } := by
  have hp : wP (parityWord label sdi data) = parityBit (lowBits 0#2 data sdi label) := wP_layWord ..
  simp [unpackWord, hp, parityOk_iff.2 (popcount_parityWord label sdi data)]

/-- A label masked in its byte is the number masked: both keep the number mod 128 (R133, R137). -/
theorem toNat_ofNat_and_7F (label : Nat) : (BitVec.ofNat 8 label &&& 0x7F#8).toNat = label &&& 0x7F := by
  have hmod (n : Nat) : n &&& 0x7F = n % 128 := Nat.and_two_pow_sub_one_eq_mod n 7
  rw [BitVec.toNat_and, BitVec.toNat_ofNat, BitVec.toNat_ofNat, hmod label]
  exact (hmod _).trans (Nat.mod_mod_of_dvd label (by decide))

end Sys2Proof.Machine

open Sys2Proof Sys2Proof.Machine

/-- Settles O16: `unpack` of the packed word gives back its masked operands, and no operand in range
loses a bit to its mask. -/
theorem unpackOfPackReturnsTheOperands : Obligations.UnpackOfPackReturnsTheOperands := by
  intro s label sdi data hmask hsdi hdata
  refine ⟨packWord s.cfg.labelMask label sdi data, _, rfl, rfl, ?_⟩
  rw [packWord_eq, hmask, unpackWord_parityWord]
  have hlabel := toNat_ofNat_and_7F label
  refine ⟨hlabel, fun hl => ?_, Nat.mod_eq_of_lt (by omega), Nat.mod_eq_of_lt (by omega), rfl, rfl⟩
  exact hlabel.trans (Nat.and_two_pow_sub_one_of_lt_two_pow (n := 7) (by omega))

/-- Settles O14: the mirror bit by bit (`getLsbD_reverse8`), and R131's involution (`reverse8_twice`). -/
theorem reverseBitsMirrorsTheByte : Obligations.ReverseBitsMirrorsTheByte := by
  intro s x
  exact ⟨reverse8 x, exec_reverseBits .., getLsbD_reverse8 x, by rw [exec_reverseBits, reverse8_twice]⟩

/-- Settles O17: each field is the slice R90 gives it, the label mirrored, and parity is a count of set
bits. -/
theorem unpackAndParityReadTheBits : Obligations.UnpackAndParityReadTheBits := by
  refine ⟨fun s w => ?unpack, fun s w => ?check, fun s v => ?parity⟩
  case unpack =>
    refine ⟨unpackWord w, rfl, rfl, rfl, rfl, rfl, fun i hi => ?label, parityOk_iff⟩
    have h7 : 7 - i < 8 := by omega
    calc (wLabel w).getLsbD i = (w.extractLsb' 0 8).getLsbD (7 - i) := getLsbD_reverse8 _ i hi
      _ = w.getLsbD (7 - i) := by simp [h7]
  case check => exact ⟨parityOk w, rfl, parityOk_iff⟩
  case parity => exact ⟨parityBit v, rfl, toNat_parityBit v, popcount_parityBit_append v⟩
end

section
/-! SUPPORT. The Control Encoder's operations (spec/41_control_encoder.md): the two layouts as numbers,
the count of layout B, the order of the layouts; then its convergence (R157): what keeps a preferred
layout, said once for each thing a tick does. -/

namespace Sys2Proof.Machine

/-! ### The sub-words as numbers -/

/-- Cutting a number to a field of `n` bits is masking it. -/
theorem toNat_ofNat_eq_and (n x : Nat) : (BitVec.ofNat n x).toNat = x &&& (2 ^ n - 1) := by
  rw [BitVec.toNat_ofNat, Nat.and_two_pow_sub_one_eq_mod]

/-- Layout A as the shift expression of its fields (R110). -/
theorem toNat_subA (color : BitVec 3) (line : BitVec 5) (attr : BitVec 3) (col : BitVec 5) :
    (subA color line attr col).toNat =
      (color.toNat <<< 13) ||| (line.toNat <<< 8) ||| (attr.toNat <<< 5) ||| col.toNat := by
  simp only [subA, BitVec.toNat_append, Nat.shiftLeft_or_distrib, ← Nat.shiftLeft_add]

/-- Layout B as the shift expression of its fields (R111). -/
theorem toNat_subB (color : BitVec 3) (count : BitVec 4) (function : BitVec 3) (line : BitVec 5) :
    (subB color count function line).toNat =
      (color.toNat <<< 12) ||| (count.toNat <<< 8) ||| (function.toNat <<< 5) ||| line.toNat := by
  simp only [subB, BitVec.toNat_append, Nat.shiftLeft_or_distrib, ← Nat.shiftLeft_add, BitVec.toNat_ofNat,
    Nat.zero_mod, Nat.zero_shiftLeft, Nat.zero_or]

/-- Bit 15 of layout B is 0 (R111). -/
theorem getLsbD_subB_15 (color : BitVec 3) (count : BitVec 4) (function : BitVec 3) (line : BitVec 5) :
    (subB color count function line).getLsbD 15 = false := by
  simp only [subB, BitVec.getLsbD_append, Nat.reduceLT, Nat.reduceSub]
  rfl

/-! ### The count of layout B and the order of the layouts -/

variable {c : Config} {p : EpConfig} {T : Tag}

/-- The table's entry is the count, where it has one for k (R10; log 11). -/
theorem cntrlBCount_of_entry {k : Nat} {n : BitVec 4} (h : c.cntrlBCount[k]? = some n) :
    cntrlBCount c k = n.toNat := by
  simp only [cntrlBCount, h]

/-- Past the table's end the count is k mod 16 (R10; log 11). -/
theorem cntrlBCount_of_le {k : Nat} (h : c.cntrlBCount.length ≤ k) : cntrlBCount c k = k % 16 := by
  simp only [cntrlBCount, List.getElem?_eq_none h]

theorem firstTry_of_preferred {r : Regs} (h : r.preferred = some T) : firstTry c r = T := by
  simp only [firstTry, h, Option.getD_some]

theorem triedTag_of_lastTag {r : Regs} (h : r.lastTag = some T) : triedTag r = T := by
  simp only [triedTag, h, Option.getD_some]

/-- A preferred layout goes first (R155). -/
theorem selectOrder_of_preferred {r : Regs} (h : r.preferred = some T) : selectOrder c r = [T, other T] := by
  rw [selectOrder, firstTry_of_preferred h]

/-- With none preferred the order is the initial one (R155; log 10). -/
theorem selectOrder_of_none {r : Regs} (h : r.preferred = none) :
    selectOrder c r = [c.firstTag, other c.firstTag] := by
  simp only [selectOrder, firstTry, h, Option.getD_none]

/-! ### Convergence -/

/-- Layout T is preferred and was the last one sent, and no coming Peek finds a SYN or NACK (R157). -/
structure Converged (c : Config) (p : EpConfig) (T : Tag) (E : Ep) : Prop where
  preferred : E.reg.preferred = some T
  lastTag   : E.reg.lastTag = some T
  quiet     : ∀ P ∈ E.chan.arriving, negIn (acceptedOf c p (P.map Arrival.word)) = false

variable {E E' : Ep} {A : List Rx} {now : Time}

/-- What writes neither tag and takes no Peek keeps a converged endpoint. -/
theorem Converged.keep (h : Converged c p T E) (hpref : E'.reg.preferred = E.reg.preferred)
    (hlast : E'.reg.lastTag = E.reg.lastTag) (harr : E'.chan.arriving = E.chan.arriving) :
    Converged c p T E' :=
  ⟨hpref.trans h.preferred, hlast.trans h.lastTag, harr ▸ h.quiet⟩

/-- The lock-in by an ACK keeps the layout: the last one tried is the preferred one (R250, R260). -/
theorem Converged.lockIn (h : Converged c p T E) : Converged c p T (E.mapReg lockIn) :=
  ⟨congrArg some (triedTag_of_lastTag h.lastTag), h.lastTag, h.quiet⟩

/-- The next Peek's words hold no SYN or NACK, none at all being found where none are given (R181). -/
theorem Converged.verdict_ne (h : Converged c p T E) : verdict c p E.peeked ≠ .negative := by
  have hneg : negIn (acceptedOf c p (E.peeked.map Arrival.word)) = false := by
    unfold Ep.peeked
    cases harr : E.chan.arriving with
    | nil => rfl
    | cons P rest => exact h.quiet P (harr ▸ List.mem_cons_self)
  unfold verdict
  rw [hneg]
  cases posIn (acceptedOf c p (E.peeked.map Arrival.word)) <;> decide

theorem Converged.peek (h : Converged c p T E) : Converged c p T E.peek :=
  ⟨h.preferred, h.lastTag, fun P hP => h.quiet P (List.mem_of_mem_tail hP)⟩

/-- A record goes out in layout T and no same-tick answer turns to the other one (R180, R183). -/
theorem Converged.sendRecord (h : Converged c p T E) (rec : TextRecord) (idx : OneBased) (isLast : Bool) :
    Converged c p T (sendRecord c p rec idx isLast E).1 := by
  have hsent : Converged c p T (emitFrame c p rec idx isLast T E) := ⟨h.preferred, rfl, h.quiet⟩
  simp only [Machine.sendRecord, firstTry_of_preferred h.preferred]
  split
  · split
    · next hv => exact absurd hv hsent.verdict_ne
    · exact ⟨rfl, hsent.peek.lastTag, hsent.peek.quiet⟩
    · exact hsent.peek
  · exact hsent

theorem Converged.transmitRecords (rs : List (OneBased × TextRecord)) (h : Converged c p T E) :
    Converged c p T (transmitRecords c p rs E) := by
  induction rs generalizing E with
  | nil => exact h
  | cons x rs ih =>
    cases rs with
    | nil => exact h.sendRecord _ _ _
    | cons y rs => exact ih (h.sendRecord _ _ _)

theorem Converged.sendOrFinish (h : Converged c p T E) : Converged c p T (sendOrFinish c p now E) := by
  unfold Machine.sendOrFinish
  split
  · exact h.keep rfl rfl rfl
  · exact (h.sendRecord (scratchpadRecord c E.reg) { before := 0 } true).keep rfl rfl rfl

theorem Converged.spAck (h : Converged c p T E) : Converged c p T (spAck c p now E) :=
  (h.lockIn.keep (E' := E.mapReg fun r => { Machine.lockIn r with
    spPos := r.spPos + 1, spSent := false, repeatCount := 0 }) rfl rfl rfl).sendOrFinish

theorem Converged.idleHandler (h : Converged c p T E) : Converged c p T (idleHandler c A E) := by
  unfold Machine.idleHandler
  split
  · exact h.keep rfl rfl rfl
  · unfold idleToScratchpad
    split
    · exact h.keep rfl rfl rfl
    · exact h

theorem Converged.acceptCts (h : Converged c p T E) (w : Word) : Converged c p T (acceptCts w E) := by
  simp only [Machine.acceptCts]
  split <;> exact h.keep rfl rfl rfl

theorem Converged.rtsHandler (h : Converged c p T E) : Converged c p T (rtsHandler c p A E) := by
  unfold Machine.rtsHandler
  split
  · next hr =>
    rw [ctsHandler, if_pos hr]
    split
    · exact h.acceptCts _
    · exact h
  · next hr =>
    rw [rtsTransmit, if_neg hr]
    split
    · exact h
    · exact h.keep rfl rfl rfl

theorem Converged.ackData (h : Converged c p T E) : Converged c p T (ackData E) := by
  simp only [Machine.ackData]
  split <;> exact h.lockIn.keep rfl rfl rfl

/-- The SendData handler, with no SYN or NACK drained and the deadline ahead (R247, R248). -/
theorem Converged.senddataHandler (h : Converged c p T E) (hneg : negIn A = false)
    (hlive : expired E.reg now = false) : Converged c p T (senddataHandler c p now A E) := by
  unfold Machine.senddataHandler
  split
  · next hsent =>
    rw [senddataResponses, if_pos hsent, hneg, hlive]
    cases posIn A
    · exact h
    · exact h.ackData
  · next hsent =>
    rw [senddataTransmit, if_neg hsent]
    exact (h.transmitRecords E.reg.batch).keep rfl rfl rfl

/-- The Scratchpad handler, with no SYN or NACK drained and the deadline ahead; a restart by a DC1 sends
again whatever was pending (R257, R258, R260). -/
theorem Converged.scratchpadHandler (h : Converged c p T E) (hneg : negIn A = false)
    (hlive : expired E.reg now = false) : Converged c p T (scratchpadHandler c p now A E) := by
  unfold Machine.scratchpadHandler
  split
  · rw [scratchpadRun_restart]
    exact (h.keep (E' := restartScratchpad c E) rfl rfl rfl).sendOrFinish
  · unfold scratchpadRun
    split
    · rw [hneg, hlive]
      cases posIn A
      · exact h
      · exact h.spAck
    · exact h.sendOrFinish

theorem Converged.runHandler (h : Converged c p T E) (hneg : negIn A = false)
    (hlive : expired E.reg now = false) : Converged c p T (runHandler c p now A E) := by
  unfold Machine.runHandler
  split
  · exact h.idleHandler
  · exact h.rtsHandler
  · exact h.senddataHandler hneg hlive
  · exact h.scratchpadHandler hneg hlive

/-- A tick with no SYN or NACK drained and the deadline ahead keeps a converged endpoint converged (R157). -/
theorem Converged.tickEndpoint (h : Converged c p T E) (hneg : negIn (acceptedOf c p E.drained) = false)
    (hlive : expired E.reg now = false) : Converged c p T (tickEndpoint c p now E) := by
  obtain ⟨K, -, hreg, -, harr, htick, -, htickArr⟩ := tick_eq_handler c p now E
  have hK : Converged c p T K := h.keep (by rw [hreg]) (by rw [hreg]) harr
  have hliveK : expired K.reg now = false := by rw [hreg]; exact hlive
  exact (hK.runHandler hneg hliveK).keep (by rw [htick]) (by rw [htick]) htickArr

end Sys2Proof.Machine

open Sys2Proof Sys2Proof.Machine

/-- Settles O56: `Converged` holds before the tick by the premises, and the tick keeps it. -/
theorem preferredLayoutStaysWithoutANegative : Obligations.PreferredLayoutStaysWithoutANegative := by
  intro s ch p E now T he hpref hlast hneg hquiet hdead
  obtain ⟨hexec, hep⟩ := exec_tickEndpoint he now
  have hlive : expired E.reg now = false := by
    refine eq_false_of_ne_true fun hexp => ?_
    obtain ⟨d, hd, hle⟩ := expired_iff.1 hexp
    exact absurd (hdead d hd) (Nat.not_lt.2 hle)
  have hE : Converged s.cfg p T E := ⟨hpref, hlast, hquiet⟩
  have hE1 : Converged s.cfg p T (tickEndpoint s.cfg p now E) := hE.tickEndpoint hneg hlive
  exact ⟨_, _, hexec, hep, hE1.preferred, hE1.lastTag⟩

/-- Settles O18: the four fields of layout A side by side are the shift expression, and cutting an
operand to its field is masking it. -/
theorem encodeAPacksItsFields : Obligations.EncodeAPacksItsFields := by
  intro s color line attr col
  refine ⟨encodeA color line attr col, rfl, ?_⟩
  simp only [encodeA, toNat_subA, toNat_ofNat_eq_and, Nat.reducePow, Nat.reduceSub]

/-- Settles O19: the same of layout B, whose top bit is a constant 0. -/
theorem encodeBPacksItsFields : Obligations.EncodeBPacksItsFields := by
  intro s color count function line
  refine ⟨encodeB color count function line, rfl, ?_, getLsbD_subB_15 ..⟩
  simp only [encodeB, toNat_subB, toNat_ofNat_eq_and, Nat.reducePow, Nat.reduceSub]

/-- Settles O20: each tag's arm answers its layout's encoding; the count of layout B is the table's entry
or k mod 16. -/
theorem cntrlSubFollowsTheTag : Obligations.CntrlSubFollowsTheTag := by
  intro s rec col k
  refine ⟨⟨_, rfl, rfl⟩, fun hend => ⟨_, rfl, ?_⟩, fun n hentry => ⟨_, rfl, ?_⟩⟩
  · rw [cntrlSub, cntrlBCount_of_le hend]; rfl
  · rw [cntrlSub, cntrlBCount_of_entry hentry]; rfl

/-- Settles O21: select_order is a question to the endpoint, the preferred tag or the initial
order's first deciding its answer. -/
theorem selectOrderPutsThePreferredFirst : Obligations.SelectOrderPutsThePreferredFirst := by
  intro s ch p E he
  have hans : exec (.selectOrder ch) s = .next (s.answer (.tags (selectOrder s.cfg E.reg))) := by
    simp only [exec, execSelectOrder, askEp_eq he]
  rw [hans]
  cases hpref : E.reg.preferred with
  | none => rw [selectOrder_of_none hpref]; cases s.cfg.firstTag <;> rfl
  | some T => rw [selectOrder_of_preferred hpref]; cases T <;> rfl
end

section
/-! SUPPORT. The Record Sender (spec/42_record_sender.md): the DATA words of a record, what the words of a
Peek say, and send_record case by case. -/

namespace Sys2Proof.Machine

variable {c : Config} {p : EpConfig} {rec : TextRecord} {idx : OneBased} {isLast : Bool} {tag : Tag} {E : Ep}

/-! ### A record's DATA words -/

/-- k words of three characters hold the text, and one word fewer would not (R172). -/
theorem dataCount_bounds (c : Config) (p : EpConfig) (rec : TextRecord) :
    (padText c p rec).length ≤ 3 * dataCount c p rec ∧ 3 * dataCount c p rec < (padText c p rec).length + 3 := by
  unfold dataCount ceilDiv
  omega

@[simp] theorem length_dataWords (label : Nat) (text : List Char7) (k : Nat) :
    (dataWords c label text k).length = k := by
  simp [dataWords]

/-- Word j carries characters 3j to 3j + 2 (R173, R176). -/
theorem getElem?_dataWords (label : Nat) (text : List Char7) {j k : Nat} (hj : j < k) :
    (dataWords c label text k)[j]? = some (dataWord c.labelMask label
      (charAt text (3 * j)) (charAt text (3 * j + 1)) (charAt text (3 * j + 2))) := by
  simp [dataWords, hj]

/-! ### The boundary of send_record -/

theorem recordIndex_of_pos {n : Int} (h : 1 ≤ n) : recordIndex n = some ⟨n.toNat - 1⟩ := if_pos h

theorem recordIndex_of_nonpos {n : Int} (h : n ≤ 0) : recordIndex n = none := if_neg (by omega)

/-- With a positive index send_record is the adaptive dispatch on its endpoint (R170, R180). -/
theorem exec_sendRecord {s : State} {ch : Nat} {n : Int} {E' : Ep} {r : SendResult} (he : s.ep? ch = some (p, E))
    (hn : 1 ≤ n) (hsend : sendRecord s.cfg p rec ⟨n.toNat - 1⟩ isLast E = (E', r)) :
    exec (.sendRecord ch rec n isLast) s = .next ((s.setEp ch E').answer (.result r)) := by
  simp only [exec, execSendRecord, recordIndex_of_pos hn, onEp_eq he, hsend]

/-! ### The verdict of a Peek -/

section Verdict
variable {seen : List Arrival}

theorem verdict_negative (hneg : negIn (acceptedOf c p (seen.map Arrival.word)) = true) :
    verdict c p seen = .negative := if_pos hneg

theorem verdict_positive (hneg : ¬ negIn (acceptedOf c p (seen.map Arrival.word)) = true)
    (hpos : posIn (acceptedOf c p (seen.map Arrival.word)) = true) : verdict c p seen = .positive :=
  (if_neg hneg).trans (if_pos hpos)

theorem verdict_silent (hneg : ¬ negIn (acceptedOf c p (seen.map Arrival.word)) = true)
    (hpos : ¬ posIn (acceptedOf c p (seen.map Arrival.word)) = true) : verdict c p seen = .silent :=
  (if_neg hneg).trans (if_neg hpos)

end Verdict

/-! ### The adaptive dispatch, one lemma per case of R180 -/

/-- Sending a frame takes no Peek. -/
@[simp] theorem emitFrame_peeked : (emitFrame c p rec idx isLast tag E).peeked = E.peeked := rfl

@[simp] theorem emitFrame_peek_peeked : (emitFrame c p rec idx isLast tag E).peek.peeked = E.peek.peeked := rfl

theorem sendRecord_uninspected (hoff : c.sameTickInspect = false) : sendRecord c p rec idx isLast E =
    (emitFrame c p rec idx isLast (firstTry c E.reg) E, .provisional) := by
  simp [sendRecord, hoff]

section Inspected
variable (hon : c.sameTickInspect = true)
include hon

theorem sendRecord_silent (hv : verdict c p E.peeked = .silent) : sendRecord c p rec idx isLast E =
    ((emitFrame c p rec idx isLast (firstTry c E.reg) E).peek, .provisional) := by
  simp [sendRecord, hon, hv]

theorem sendRecord_positive (hv : verdict c p E.peeked = .positive) : sendRecord c p rec idx isLast E =
    (lockTag (firstTry c E.reg) (emitFrame c p rec idx isLast (firstTry c E.reg) E).peek, .acked) := by
  simp [sendRecord, hon, hv]

section SecondAttempt
variable (hv : verdict c p E.peeked = .negative)
include hv

/-- The second attempt is made in the other layout, after the first Peek (R180, R184). -/
theorem sendRecord_negative : sendRecord c p rec idx isLast E =
    secondAttempt c p rec idx isLast (other (firstTry c E.reg))
      (emitFrame c p rec idx isLast (firstTry c E.reg) E).peek := by
  simp [sendRecord, hon, hv]

theorem sendRecord_negative_silent (hv2 : verdict c p E.peek.peeked = .silent) : sendRecord c p rec idx isLast E =
    ((emitFrame c p rec idx isLast (other (firstTry c E.reg))
      (emitFrame c p rec idx isLast (firstTry c E.reg) E).peek).peek, .provisional) := by
  simp [sendRecord_negative hon hv, secondAttempt, hv2]

theorem sendRecord_negative_positive (hv2 : verdict c p E.peek.peeked = .positive) :
    sendRecord c p rec idx isLast E = (lockTag (other (firstTry c E.reg))
      (emitFrame c p rec idx isLast (other (firstTry c E.reg))
        (emitFrame c p rec idx isLast (firstTry c E.reg) E).peek).peek, .acked) := by
  simp [sendRecord_negative hon hv, secondAttempt, hv2]

theorem sendRecord_negative_negative (hv2 : verdict c p E.peek.peeked = .negative) :
    sendRecord c p rec idx isLast E = ((emitFrame c p rec idx isLast (other (firstTry c E.reg))
      (emitFrame c p rec idx isLast (firstTry c E.reg) E).peek).peek, .rejected) := by
  simp [sendRecord_negative hon hv, secondAttempt, hv2]

end SecondAttempt

end Inspected

/-- Two attempts: both frames go out in order under one label, and the words of both Peeks stay queued
(R181, R182, R184). -/
theorem emitFrame_peek_twice (t1 t2 : Tag) :
    (emitFrame c p rec idx isLast t2 (emitFrame c p rec idx isLast t1 E).peek).peek =
      { reg := { E.reg with lastTag := some t2 }
        chan := { E.chan with
          outbound := E.chan.outbound ++ (frameWords c p (outLabel p E.reg) rec idx isLast t1 ++
            frameWords c p (outLabel p E.reg) rec idx isLast t2)
          inbound := E.chan.inbound ++ E.peeked ++ E.peek.peeked
          arriving := E.chan.arriving.tail.tail } } := by
  rw [← List.append_assoc]
  rfl

end Sys2Proof.Machine

open Sys2Proof Sys2Proof.Machine

/-- Settles O24: the verdicts of the two Peeks decide the case, and each case's next state is read off its
own lemma; after a negative first verdict both frames have gone out (`emitFrame_peek_twice`). -/
theorem sendRecordTriesBothLayouts : Obligations.SendRecordTriesBothLayouts := by
  intro s ch p E rec n isLast he hn t1 t2 F P1 P2 neg pos after inb1 arr1
  have ht1 : firstTry s.cfg E.reg = t1 := by simp only [t1, firstTry]; cases E.reg.preferred <;> rfl
  have ht2 : other t1 = t2 := by simp only [t2]; cases t1 <;> rfl
  refine ⟨fun hoff => ?uninspected, fun hon hneg hpos => ?silent, fun hon hneg hpos => ?acked,
    fun hon hneg hneg2 hpos2 => ?secondSilent, fun hon hneg hneg2 hpos2 => ?secondAcked,
    fun hon hneg hneg2 => ?rejected⟩ <;>
  refine exec_sendRecord he hn ?_
  case uninspected => rw [sendRecord_uninspected hoff, ht1]; rfl
  case silent => rw [sendRecord_silent hon (verdict_silent hneg hpos), ht1]; rfl
  case acked => rw [sendRecord_positive hon (verdict_positive hneg hpos), ht1]; rfl
  case secondSilent =>
    rw [sendRecord_negative_silent hon (verdict_negative hneg) (verdict_silent hneg2 hpos2), ht1, ht2,
      emitFrame_peek_twice]
    rfl
  case secondAcked =>
    rw [sendRecord_negative_positive hon (verdict_negative hneg) (verdict_positive hneg2 hpos2), ht1, ht2,
      emitFrame_peek_twice]
    rfl
  case rejected =>
    rw [sendRecord_negative_negative hon (verdict_negative hneg) (verdict_negative hneg2), ht1, ht2,
      emitFrame_peek_twice]
    rfl

/-- Settles O22: k and the DATA words are the model's own `dataCount` and `dataWords`; the sending is
emitFrame's on its endpoint. -/
theorem emitFrameSendsTheRecord : Obligations.EmitFrameSendsTheRecord := by
  intro s ch p E rec idx isLast tag he text col L
  obtain ⟨hhold, htight⟩ := dataCount_bounds s.cfg p rec
  exact ⟨dataCount s.cfg p rec, dataWords s.cfg L text (dataCount s.cfg p rec), hhold, htight,
    length_dataWords .., fun _ hj => getElem?_dataWords L text hj,
    doEp_eq he fun c p E => emitFrame c p rec idx isLast tag E⟩

/-- Settles O23: the index is checked before the channel is looked at (log 26). -/
theorem nonPositiveRecordIndexIsRefused : Obligations.NonPositiveRecordIndexIsRefused := by
  intro s ch rec n isLast hn
  simp only [exec, execSendRecord, recordIndex_of_nonpos hn, refuse]

/-- Settles O25: Peek is one operation of its endpoint, which answers what it peeked. -/
theorem peekReturnsTheArrivedWords : Obligations.PeekReturnsTheArrivedWords := by
  intro s ch p E he
  exact onEp_eq he fun _ _ E => (E.peek, .words E.peeked)
end

section
/-! SUPPORT. The Diff Queue (spec/43_diff_queue.md): what the bounds of R200 refuse, the two rows that
offer a Frame, which lines an ingest queues, and what a batch takes off the queue. -/

namespace Sys2Proof.Machine

/-! ### The bounds of a host Frame -/

section Bounds
variable {lines chars : Nat} {l : HostLine} {frame : HostFrame}

/-- The ways a host line can break R200, one for each bound. -/
theorem hostLineOk_eq_false_iff : hostLineOk chars l = false ↔
    chars < l.text.length ∨ (∃ x ∈ l.text, 0x7F < x) ∨ 7 < l.color ∨ l.col = 0 ∨ chars < l.col ∨ 7 < l.attr := by
  simp only [hostLineOk, ← Bool.not_eq_true, Bool.and_eq_true, not_and_or, or_assoc, decide_eq_true_eq,
    List.all_eq_true, not_forall, not_le, Nat.lt_one_iff, exists_prop]

theorem hostFrameOk_eq_false_iff : hostFrameOk lines chars frame = false ↔
    frame.length ≠ lines ∨ ∃ l ∈ frame, hostLineOk chars l = false := by
  simp [hostFrameOk, ← Bool.not_eq_true, imp_iff_not_or]

end Bounds

/-! ### The lines an ingest queues -/

section Changes
variable {old : Option Frame} {new F : Frame} {q : List Nat} {lines n : Nat}

theorem lineChanged_none : lineChanged none new n = true := rfl

theorem lineChanged_some_iff : lineChanged (some F) new n = true ↔
    (frameLine new n).text ≠ (frameLine F n).text ∨ (frameLine new n).color ≠ (frameLine F n).color ∨
      (frameLine new n).attr ≠ (frameLine F n).attr := differs_iff _ _

/-- No line of a Frame has changed against the Frame itself (R207). -/
theorem lineChanged_self : lineChanged (some F) F n = false := differs_self _

/-- The same Frame again adds nothing to the queue (R207). -/
theorem addedLines_self : addedLines lines (some F) F q = [] :=
  List.eq_nil_iff_forall_not_mem.2 fun i hi => by
    obtain ⟨-, -, hchanged, -⟩ := mem_addedLines.1 hi
    rw [lineChanged_self] at hchanged
    cases hchanged

/-- With no stored Frame and nothing pending every line is added, in ascending order (R208). -/
theorem addedLines_none_nil : addedLines lines none new [] = List.range' 1 lines := by
  simp [addedLines, lineChanged_none]

end Changes

section Ingest
variable {c : Config} {new : Frame} {E : Ep}

/-- What an ingest writes: the added lines at the queue's tail, and the stored Frame (R202). -/
theorem ingest_eq : ingest c new E = { E with reg := { E.reg with
    queue     := E.reg.queue ++ addedLines c.frameLines E.reg.prevFrame new E.reg.queue
    prevFrame := some new } } := by
  rw [← queueChanges_eq]
  rfl

/-- An ingest of the Frame just ingested leaves the endpoint as it is (R207). -/
theorem ingest_ingest : ingest c new (ingest c new E) = ingest c new E := by
  simp [ingest_eq, addedLines_self]

/-- The first-ever ingest queues all the lines (R208). -/
theorem ingest_queue_of_first (hframe : E.reg.prevFrame = none) (hqueue : E.reg.queue = []) :
    (ingest c new E).reg.queue = List.range' 1 c.frameLines := by
  simp [ingest_eq, hframe, hqueue, addedLines_none_nil]

end Ingest

/-! ### The rows that offer a Frame -/

section Supply
variable {s : State} {ch : Nat} {p : EpConfig} {E : Ep} {frame : HostFrame} {i : Instr}

/-- ingest and host_supply both offer the Frame to the endpoint (R201). -/
theorem exec_supply (hi : i = .ingest ch frame ∨ i = .hostSupply ch frame) : exec i s = supplyFrame s ch frame := by
  rcases hi with rfl | rfl <;> rfl

/-- An endpoint's operation after an answered one: the second write and the second answer stand. -/
theorem setEp_answer_setEp_answer (s : State) (ch : Nat) (E E' : Ep) (r r' : Ret) :
    (((s.setEp ch E).answer r).setEp ch E').answer r' = (s.setEp ch E').answer r' := by
  simp [State.setEp, State.answer]

theorem supplyFrame_of_no_ep (he : s.ep? ch = none) : supplyFrame s ch frame = .refused .badChannel := by
  simp [supplyFrame, he, refuse]

theorem supplyFrame_of_bad (he : s.ep? ch = some (p, E))
    (hbad : hostFrameOk s.cfg.frameLines s.cfg.lineChars frame = false) :
    supplyFrame s ch frame = .refused .badFrame := by
  simp [supplyFrame, he, hbad, refuse]

theorem supplyFrame_of_ok (he : s.ep? ch = some (p, E))
    (hok : hostFrameOk s.cfg.frameLines s.cfg.lineChars frame = true) :
    supplyFrame s ch frame = .next ((s.setEp ch (ingest s.cfg (renderFrame frame) E)).answer .nothing) := by
  simp [supplyFrame, he, hok, doEp_eq he]

/-- ingest of a legal Frame, and the endpoint it leaves (R202). -/
theorem exec_ingest (he : s.ep? ch = some (p, E))
    (hok : hostFrameOk s.cfg.frameLines s.cfg.lineChars frame = true) :
    exec (.ingest ch frame) s = .next ((s.setEp ch (ingest s.cfg (renderFrame frame) E)).answer .nothing) ∧
    ((s.setEp ch (ingest s.cfg (renderFrame frame) E)).answer .nothing).ep? ch =
      some (p, ingest s.cfg (renderFrame frame) E) :=
  ⟨(exec_supply (.inl rfl)).trans (supplyFrame_of_ok he hok), (State.answer_ep _ _ _).trans (ep_setEp_self he _)⟩

end Supply

/-! ### Questions and batches -/

section Batch
variable {s : State} {ch : Nat} {p : EpConfig} {E : Ep} {r : Regs} {F : Frame} {l : LineRender} {i j n : Nat}

theorem exec_pendingCount (he : s.ep? ch = some (p, E)) :
    exec (.pendingCount ch) s = .next (s.answer (.count E.reg.queue.length)) :=
  askEp_eq he fun _ _ E => .count (pendingCount E.reg)

/-- The three cases of R205, in the order of its text. -/
theorem exec_getPlannedRecordCount (he : s.ep? ch = some (p, E)) (cap : Nat) :
    exec (.getPlannedRecordCount ch cap) s = .next (s.answer (.count
      (if E.reg.queue.length = 0 then 0
       else if E.reg.everDrained = false then min E.reg.queue.length cap
       else 1))) := by
  have hask : exec (.getPlannedRecordCount ch cap) s = .next (s.answer (.count (plannedCount E.reg cap))) :=
    askEp_eq he fun _ _ E => .count (plannedCount E.reg cap)
  rw [hask, plannedCount]
  cases E.reg.everDrained <;> rfl

theorem exec_prepareBatch (he : s.ep? ch = some (p, E)) : exec (.prepareBatch ch n) s =
    .next ((s.setEp ch { E with reg := popBatch E.reg n }).answer (.records (batchRecords E.reg n))) :=
  onEp_eq he fun _ _ E => (E.mapReg fun r => popBatch r n, .records (batchRecords E.reg n))

theorem length_batchRecords : (batchRecords r n).length = min n r.queue.length := by
  simp [batchRecords]

/-- The record of a line that the stored Frame holds (R206). -/
theorem recordOfLine_eq (hframe : r.prevFrame = some F) (hi : 1 ≤ i) (hl : F[i - 1]? = some l) :
    recordOfLine r i = { text := l.text, color := l.color, line := i, col := l.col, attr := l.attr } := by
  simp [recordOfLine, storedLine, hframe, frameLine_eq hi hl]

/-- Record j of a batch is of the line at place j of the queue (R206). -/
theorem getElem?_batchRecords (hj : j < n) : (batchRecords r n)[j]? = r.queue[j]?.map (recordOfLine r) := by
  simp [batchRecords, List.getElem?_take_of_lt hj]

/-- `everDrained` is set where there was something to pop and nothing is left (R206, D51). -/
theorem popBatch_eq : popBatch r n = { r with
    queue       := r.queue.drop n
    everDrained := if 0 < n ∧ r.queue ≠ [] ∧ r.queue.length ≤ n then true else r.everDrained } := by
  have hpop : (r.queue.take n ≠ [] ∧ r.queue.drop n = []) ↔ 0 < n ∧ r.queue ≠ [] ∧ r.queue.length ≤ n := by
    simp [List.take_eq_nil_iff, Nat.pos_iff_ne_zero, and_assoc]
  simp only [popBatch, ← hpop, ← Bool.decide_and]
  split
  · next h => rw [decide_eq_true h, Bool.or_true]
  · next h => rw [decide_eq_false h, Bool.or_false]

end Batch

end Sys2Proof.Machine

open Sys2Proof Sys2Proof.Machine

/-- Settles O26: the added lines are the model's `addedLines`, which ascend by construction and are
characterised by `mem_addedLines`; a line is changed as the stored Frame says, where there is one. -/
theorem ingestQueuesTheChangedLines : Obligations.IngestQueuesTheChangedLines := by
  intro s ch p E frame i he hi new changed
  have hchanged : ∀ n, lineChanged E.reg.prevFrame new n = true ↔ changed n := fun n => by
    simp only [changed]
    cases E.reg.prevFrame with
    | none => exact iff_of_true lineChanged_none trivial
    | some F => exact lineChanged_some_iff
  rw [exec_supply hi]
  refine ⟨supplyFrame_of_bad he, fun hok =>
    ⟨addedLines s.cfg.frameLines E.reg.prevFrame new E.reg.queue, ?_, addedLines_pairwise .., fun n => ?_⟩⟩
  · rw [supplyFrame_of_ok he hok, ingest_eq]
  · rw [mem_addedLines, hchanged]

/-- Settles O28: the first ingest stores the Frame, so the second leaves the endpoint as it is
(`ingest_ingest`), and writing back what is there changes nothing. -/
theorem secondIngestOfAFrameQueuesNothing : Obligations.SecondIngestOfAFrameQueuesNothing := by
  intro s ch p E frame he hok
  obtain ⟨hexec, hep⟩ := exec_ingest he hok
  obtain ⟨hexec2, -⟩ := exec_ingest hep hok
  refine ⟨_, _, hexec, hep, hexec2.trans ?_⟩
  rw [setEp_answer_setEp_answer, State.answer_cfg, State.setEp_cfg, ingest_ingest]

/-- Settles O27: the channel is checked first (log 26), and each bound of R200 makes the Frame illegal. -/
theorem badFrameIsRefused : Obligations.BadFrameIsRefused := by
  intro s ch frame i hi
  rw [exec_supply hi]
  refine ⟨supplyFrame_of_no_ep, fun p E he hbad => supplyFrame_of_bad he ?_⟩
  simpa only [hostFrameOk_eq_false_iff, hostLineOk_eq_false_iff] using hbad

/-- Settles O29: with nothing stored and nothing pending the queue becomes the range 1..FRAME_LINES. -/
theorem firstIngestQueuesEveryLine : Obligations.FirstIngestQueuesEveryLine := by
  intro s ch p E frame he h14 hok hframe hqueue
  obtain ⟨hexec, hep⟩ := exec_ingest he (h14.symm ▸ hok)
  exact ⟨_, _, hexec, hep, by rw [ingest_queue_of_first hframe hqueue, h14]; rfl⟩

/-- Settles O30: each question writes only its answer; after the first full drain the count is 1 (R205). -/
theorem queueQuestionsAnswer : Obligations.QueueQuestionsAnswer :=
  ⟨fun _ a b => ⟨differs a b, rfl, differs_iff a b⟩,
    fun _ _ _ _ he => ⟨exec_pendingCount he, exec_getPlannedRecordCount he⟩⟩

/-- Settles O31: the answer is `batchRecords`, of the queue's first lines in order; `popBatch_eq` says what
is left of the queue. -/
theorem prepareBatchPopsTheFirstLines : Obligations.PrepareBatchPopsTheFirstLines := by
  intro s ch p E n he
  refine ⟨batchRecords E.reg n, ?_, length_batchRecords, fun j i F l hj hline hframe hi hl => ?_⟩
  · rw [exec_prepareBatch he, popBatch_eq]
  · rw [getElem?_batchRecords hj, hline, Option.map_some, recordOfLine_eq hframe hi hl]
end

section
/-! SUPPORT. The rows of the transport state machine in sequence (spec/44_transport_fsm.md): every row is
the operation of one endpoint, so after any number of rows the state is the one before them with that
endpoint written, the answer aside (`EpAt`). The rows of a batch (R249) and of a tick (R220). -/

namespace Sys2Proof.Machine

variable {s t : State} {ch : Nat} {p : EpConfig} {E E' : Ep}

/-! ### A state with one endpoint written -/

/-- `t` is `s` with endpoint `ch` at `E`, whatever its answer is. -/
def EpAt (s : State) (ch : Nat) (E : Ep) (t : State) : Prop :=
  t.answer .nothing = (s.setEp ch E).answer .nothing

theorem EpAt.refl (he : s.ep? ch = some (p, E)) : EpAt s ch E s := by rw [EpAt, setEp_same he]

theorem EpAt.setEp : EpAt s ch E (s.setEp ch E) := rfl

theorem EpAt.write (r : Ret) : EpAt s ch E ((s.setEp ch E).answer r) := rfl

section Row
variable (h : EpAt s ch E t)
include h

theorem EpAt.cfg : t.cfg = s.cfg := by
  have hc := congrArg State.cfg h
  exact hc

theorem EpAt.ep {E0 : Ep} (he : s.ep? ch = some (p, E0)) : t.ep? ch = some (p, E) :=
  (congrArg (fun u => u.ep? ch) h).trans (ep_setEp_self he E)

theorem EpAt.setEp_answer (E' : Ep) (r : Ret) : (t.setEp ch E').answer r = (s.setEp ch E').answer r := by
  have hw := congrArg (fun u => (u.setEp ch E').answer r) h
  exact hw.trans (setEp_answer_setEp_answer s ch E E' .nothing r)

/-- An operation of the endpoint that `t` has there, as a write to `s`. -/
theorem EpAt.onEp {E0 : Ep} (he : s.ep? ch = some (p, E0)) (f : Config → EpConfig → Ep → Ep × Ret) :
    onEp t ch f = .next ((s.setEp ch (f s.cfg p E).1).answer (f s.cfg p E).2) := by
  rw [onEp_eq (h.ep he), h.cfg, h.setEp_answer]

theorem EpAt.doEp {E0 : Ep} (he : s.ep? ch = some (p, E0)) (f : Config → EpConfig → Ep → Ep) :
    doEp t ch f = .next ((s.setEp ch (f s.cfg p E)).answer .nothing) :=
  h.onEp he _

/-- Two operations that make the same of the endpoint, one in `s` and one in `t`, have the same outcome. -/
theorem EpAt.same {E0 : Ep} (he : s.ep? ch = some (p, E0)) {f g : Config → EpConfig → Ep → Ep}
    (hfg : f s.cfg p E0 = g s.cfg p E) : ∃ u, Machine.doEp s ch f = .next u ∧ Machine.doEp t ch g = .next u :=
  ⟨_, doEp_eq he f, (h.doEp he g).trans (by rw [hfg])⟩

end Row

/-- The same in one state. -/
theorem doEp_same (he : s.ep? ch = some (p, E)) {f g : Config → EpConfig → Ep → Ep}
    (hfg : f s.cfg p E = g s.cfg p E) : ∃ u, doEp s ch f = .next u ∧ doEp s ch g = .next u :=
  (EpAt.refl he).same he hfg

/-- An operation by what it makes of the endpoint. -/
theorem doEp_of_eq (he : s.ep? ch = some (p, E)) {f : Config → EpConfig → Ep → Ep} (hf : f s.cfg p E = E') :
    doEp s ch f = .next ((s.setEp ch E').answer .nothing) := by
  rw [doEp_eq he, hf]

/-- An operation that changes nothing of the endpoint only answers. -/
theorem doEp_idle (he : s.ep? ch = some (p, E)) {f : Config → EpConfig → Ep → Ep} (hf : f s.cfg p E = E) :
    doEp s ch f = .next (s.answer .nothing) := by
  rw [doEp_of_eq he hf, setEp_same he]

theorem execAll_cons {i : Instr} (h : exec i s = .next t) (is : List Instr) :
    execAll (i :: is) s = execAll is t := by
  simp only [execAll, h]

theorem execAll_append_of {xs : List Instr} (h : execAll xs s = .next t) (ys : List Instr) :
    execAll (xs ++ ys) s = execAll ys t := by
  simp only [execAll_append, h]

/-! ### The rows of a batch -/

/-- The send_record rows of a batch: each record with its index, the last one flagged (R249). -/
def sendRows (ch : Nat) (rs : List (OneBased × TextRecord)) : List Instr :=
  rs.mapIdx fun j x => .sendRecord ch x.2 (x.1.before + 1) (decide (j + 1 = rs.length))

theorem sendRows_cons_cons (x y : OneBased × TextRecord) (rs : List (OneBased × TextRecord)) :
    sendRows ch (x :: y :: rs) = .sendRecord ch x.2 (x.1.before + 1) false :: sendRows ch (y :: rs) := by
  simp [sendRows]

/-- The row of a numbered record is the adaptive dispatch (R180). -/
theorem EpAt.exec_sendRecord {E0 : Ep} (h : EpAt s ch E t) (he : s.ep? ch = some (p, E0)) (rec : TextRecord)
    (idx : OneBased) (isLast : Bool) :
    exec (.sendRecord ch rec (idx.before + 1) isLast) t =
      .next ((s.setEp ch (sendRecord s.cfg p rec idx isLast E).1).answer
        (.result (sendRecord s.cfg p rec idx isLast E).2)) := by
  have hidx : recordIndex (idx.before + 1) = some idx := by
    rw [recordIndex_of_pos (by omega)]
    rfl
  simp only [exec, execSendRecord, hidx]
  exact h.onEp he fun c p E => ((sendRecord c p rec idx isLast E).1, .result (sendRecord c p rec idx isLast E).2)

/-- The rows of a batch do what transmitBatch does (R249), by induction over the batch. -/
theorem EpAt.execAll_sendRows {E0 : Ep} (he : s.ep? ch = some (p, E0)) (rs : List (OneBased × TextRecord))
    (h : EpAt s ch E t) :
    ∃ u, execAll (sendRows ch rs) t = .next u ∧ EpAt s ch (transmitRecords s.cfg p rs E) u := by
  induction rs generalizing E t with
  | nil => exact ⟨t, rfl, h⟩
  | cons x rs ih =>
    obtain ⟨idx, rec⟩ := x
    cases rs with
    | nil => exact ⟨_, execAll_cons (h.exec_sendRecord he rec idx true) [], .write _⟩
    | cons y rs =>
      rw [sendRows_cons_cons, execAll_cons (h.exec_sendRecord he rec idx false)]
      exact ih (.write _)

/-! ### The rows of a tick -/

/-- The keypress row of every accepted DC1 of a drained batch (R220 step 3). -/
def keyRows (c : Config) (p : EpConfig) (ch : Nat) (B : List Word) : List Instr :=
  (B.filter fun w => decide (classify c p w = some ⟨.dc1, w⟩)).map fun w => .keypress ch w

/-- The keypress of each DC1 of the batch, in its order (R82). -/
theorem keypresses_acceptedOf (c : Config) (p : EpConfig) (B : List Word) (E : Ep) :
    keypresses c p (acceptedOf c p B) E =
      (B.filter fun w => decide (classify c p w = some ⟨.dc1, w⟩)).foldl (fun E w => keypress c p w E) E := by
  have hkeys := keysOf_acceptedOf c p B
  rw [keypresses, ← keysOf, hkeys, List.foldl_map]

theorem EpAt.execAll_keyRows {E0 : Ep} (h : EpAt s ch E t) (he : s.ep? ch = some (p, E0)) (B : List Word) :
    ∃ u, execAll (keyRows s.cfg p ch B) t = .next u ∧
      EpAt s ch (keypresses s.cfg p (acceptedOf s.cfg p B) E) u := by
  obtain ⟨u, hrun, hu⟩ := execAll_keypresses ch _ t E (h.ep he)
  rw [h.cfg, h.setEp_answer, ← keypresses_acceptedOf] at hu
  exact ⟨u, hrun, hu⟩

/-- The row of the handler of an endpoint's state (R220 step 5). -/
def handlerRow (ch : Nat) (now : Time) (B : List Word) (r : Regs) : Instr :=
  match r.state with
  | .idle => .idleHandler ch B
  | .rts => if r.rtsSent then .ctsHandler ch B else .rtsHandler ch
  | .sendData => if r.sdSent then .senddataResponses ch now B else .senddataTransmit ch now
  | .scratchpad => .scratchpadHandler ch now B

/-- Keypresses leave the registers that choose the handler (R222). -/
theorem handlerRow_keypresses (now : Time) (B : List Word) (c : Config) (A : List Rx) :
    handlerRow ch now B (keypresses c p A E).reg = handlerRow ch now B E.reg := by
  rw [keypresses_eq]
  rfl

theorem EpAt.exec_handlerRow {E0 : Ep} (h : EpAt s ch E t) (he : s.ep? ch = some (p, E0)) (now : Time)
    (B : List Word) : exec (handlerRow ch now B E.reg) t =
      .next ((s.setEp ch (runHandler s.cfg p now (acceptedOf s.cfg p B) E)).answer .nothing) := by
  rw [← h.setEp_answer, ← h.cfg]
  exact Machine.exec_handlerRow (h.ep he) now B

theorem EpAt.exec_heartbeat {E0 : Ep} (h : EpAt s ch E t) (he : s.ep? ch = some (p, E0)) (now : Time) :
    exec (.heartbeat ch now) t = .next ((s.setEp ch (heartbeat s.cfg p now E)).answer .nothing) :=
  h.doEp he fun c p E => heartbeat c p now E

/-- The rows of a tick after its drain (R220 steps 3 to 6). -/
theorem EpAt.execAll_tickRows {E0 : Ep} (h : EpAt s ch E t) (he : s.ep? ch = some (p, E0)) (now : Time)
    (B : List Word) :
    execAll (keyRows s.cfg p ch B ++ [handlerRow ch now B E.reg, .heartbeat ch now]) t =
      .next ((s.setEp ch (heartbeat s.cfg p now (runHandler s.cfg p now (acceptedOf s.cfg p B)
        (keypresses s.cfg p (acceptedOf s.cfg p B) E)))).answer .nothing) := by
  obtain ⟨u, hkeys, hu⟩ := h.execAll_keyRows he B
  have hhandler := hu.exec_handlerRow he now B
  rw [handlerRow_keypresses] at hhandler
  rw [execAll_append_of hkeys, execAll_cons hhandler]
  exact execAll_cons ((EpAt.write .nothing).exec_heartbeat he now) []

end Sys2Proof.Machine

open Sys2Proof Sys2Proof.Machine

/-- Settles O38: the rows of the batch, one after another, are its transmission (`execAll_sendRows`). -/
theorem transmitBatchSendsTheRecordsInOrder : Obligations.TransmitBatchSendsTheRecordsInOrder := by
  intro s ch p E he
  obtain ⟨t, hrun, hat⟩ := (EpAt.refl he).execAll_sendRows he E.reg.batch
  refine ⟨t, hrun, ?_⟩
  exact (doEp_eq he fun c p E => transmitBatch c p E).trans (congrArg _ hat.symm)

/-- Settles O48: the rows of the tick, from the drained endpoint on (`execAll_tickRows`). -/
theorem tickRunsThePipelineInOrder : Obligations.TickRunsThePipelineInOrder := by
  intro s ch p E now he B keys handler
  exact ⟨_, (EpAt.setEp (E := E.drain)).execAll_tickRows he now B, (exec_tickEndpoint he now).1⟩
end

section
/-! SUPPORT. The handlers of the transport state machine case by case (spec/44_transport_fsm.md sections 2
to 6): what each is, under the condition its rule tests; from these the transition table (R263). -/

namespace Sys2Proof.Machine

variable {c : Config} {p : EpConfig} {now : Time} {A : List Rx} {E : Ep} {r : Rx}

/-! ### Idle (R230) -/

theorem idleHandler_enq (h : firstOf .enq A = some r) : idleHandler c A E = acceptEnq r.word E := by
  simp only [idleHandler, h]

theorem idleToScratchpad_dirty (hd : E.reg.spDirty = true) : idleToScratchpad c E = enterScratchpad c E := if_pos hd

theorem idleToScratchpad_clean (hd : E.reg.spDirty = false) : idleToScratchpad c E = E := by
  rw [idleToScratchpad, hd]
  rfl

theorem idleHandler_noEnq (h : firstOf .enq A = none) : idleHandler c A E = idleToScratchpad c E := by
  simp only [idleHandler, h]

/-! ### RTS (R240 to R243) -/

theorem rtsHandler_unsent (h : E.reg.rtsSent = false) : rtsHandler c p A E = rtsTransmit c p E := by
  simp [rtsHandler, h]

theorem rtsHandler_sent (h : E.reg.rtsSent = true) : rtsHandler c p A E = ctsHandler A E := if_pos h

/-- Nothing is sent a second time, nor while there is nothing to request (R241). -/
theorem rtsTransmit_quiet (h : E.reg.rtsSent = true ∨ rtsCount c E.reg = 0) : rtsTransmit c p E = E := by
  rcases h with h | h <;> simp [rtsTransmit, h]

theorem rtsTransmit_sends (hs : E.reg.rtsSent = false) (hc : rtsCount c E.reg ≠ 0) : rtsTransmit c p E =
    { reg := { E.reg with reqCount := rtsCount c E.reg, rtsSent := true }
      chan := { E.chan with outbound := E.chan.outbound ++ [ctlWord c.labelMask (outLabel p E.reg) codeRTS
        (rtsArg E.reg.mode (BitVec.ofNat 6 (rtsCount c E.reg)))] } } := by
  rw [rtsTransmit, if_neg (by simp [hs]), if_neg hc]
  rfl

theorem rtsTransmit_state : (rtsTransmit c p E).reg.state = E.reg.state := by
  unfold rtsTransmit
  split
  · rfl
  · split <;> rfl

/-- Without an RTS sent or a CTS drained nothing happens (R242). -/
theorem ctsHandler_quiet (h : E.reg.rtsSent = false ∨ firstOf .cts A = none) : ctsHandler A E = E := by
  rcases h with h | h
  · simp [ctsHandler, h]
  · simp [ctsHandler, h]

theorem ctsHandler_cts (hs : E.reg.rtsSent = true) (h : firstOf .cts A = some r) :
    ctsHandler A E = acceptCts r.word E := by
  simp [ctsHandler, hs, h]

theorem batchRecords_eq_nil_iff {r : Regs} {n : Nat} : batchRecords r n = [] ↔ n = 0 ∨ r.queue = [] := by
  simp [batchRecords]

/-- Nothing to send: Idle, with what the pop left (R243). -/
theorem acceptCts_empty {w : Word} (h : batchRecords E.reg (min E.reg.reqCount (ctsMax w)) = []) :
    acceptCts w E = E.mapReg fun r => { popBatch r (min E.reg.reqCount (ctsMax w)) with state := .idle } := if_pos h

/-- SendData with the records numbered from 1 (R242). -/
theorem acceptCts_batch {w : Word} (h : batchRecords E.reg (min E.reg.reqCount (ctsMax w)) ≠ []) :
    acceptCts w E = E.mapReg fun r => { popBatch r (min E.reg.reqCount (ctsMax w)) with
      batch := numbered (batchRecords r (min E.reg.reqCount (ctsMax w))), state := .sendData, sdSent := false
      repeatCount := 0, deadline := none } := if_neg h

/-! ### SendData (R247 to R252) -/

theorem senddataTransmit_sent (h : E.reg.sdSent = true) : senddataTransmit c p now E = E := if_pos h

theorem senddataTransmit_unsent (h : E.reg.sdSent = false) : senddataTransmit c p now E =
    armDeadline c now ((transmitBatch c p E).mapReg fun r => { r with sdSent := true, repeatCount := 0 }) := by
  rw [senddataTransmit, if_neg (by simp [h])]

theorem senddataHandler_unsent (h : E.reg.sdSent = false) :
    senddataHandler c p now A E = senddataTransmit c p now E := by
  rw [senddataHandler, if_neg (by simp [h])]

theorem senddataHandler_sent (h : E.reg.sdSent = true) :
    senddataHandler c p now A E = senddataResponses c p now A E := if_pos h

theorem senddataResponses_unsent (h : E.reg.sdSent = false) : senddataResponses c p now A E = E := by
  simp [senddataResponses, h]

section Responses
variable (h : E.reg.sdSent = true)
include h

theorem senddataResponses_failed (hf : Failed now A E.reg) :
    senddataResponses c p now A E = retry c p now E := by
  rcases hf with hneg | ⟨hpos, hexp⟩
  · simp [senddataResponses, h, hneg]
  · simp [senddataResponses, h, hpos, hexp]

theorem senddataResponses_ack (hneg : negIn A = false) (hpos : posIn A = true) :
    senddataResponses c p now A E = ackData E := by
  simp [senddataResponses, h, hneg, hpos]

theorem senddataResponses_quiet (hf : ¬ Failed now A E.reg) (hpos : posIn A = false) :
    senddataResponses c p now A E = E := by
  obtain ⟨hneg, hlive⟩ := not_or.1 hf
  have hexp : expired E.reg now = false := by simpa [hpos] using hlive
  simp [senddataResponses, h, hneg, hpos, hexp]

end Responses

theorem retry_within (h : E.reg.repeatCount < c.maxRetries) : retry c p now E = armDeadline c now
    (transmitBatch c p (E.mapReg fun r => { flipPreferred r with repeatCount := r.repeatCount + 1 })) := if_pos h

/-! ### Scratchpad (R257 to R261) -/

theorem sendOrFinish_finish (h : E.reg.spBuf.length ≤ E.reg.spPos) :
    sendOrFinish c p now E = finishScratchpad E := if_pos h

theorem sendOrFinish_send (h : E.reg.spPos < E.reg.spBuf.length) :
    sendOrFinish c p now E = sendChar c p now E := if_neg (Nat.not_le.2 h)

theorem spRetry_within (h : E.reg.repeatCount < c.maxRetries) : spRetry c p now E =
    sendChar c p now (E.mapReg fun r => { flipPreferred r with repeatCount := r.repeatCount + 1 }) := if_pos h

/-- A DC1 starts the sequence over and its first character goes out (R257, R258). -/
theorem scratchpadHandler_dc1 (h : dc1In A = true) :
    scratchpadHandler c p now A E = sendOrFinish c p now (restartScratchpad c E) := by
  rw [scratchpadHandler, if_pos h, scratchpadRun_restart]

section NoDc1
variable (hdc1 : dc1In A = false)
include hdc1

theorem scratchpadHandler_unsent (h : E.reg.spSent = false) :
    scratchpadHandler c p now A E = sendOrFinish c p now E := by
  simp [scratchpadHandler, hdc1, scratchpadRun, h]

variable (h : E.reg.spSent = true)
include h

theorem scratchpadHandler_failed (hf : Failed now A E.reg) :
    scratchpadHandler c p now A E = spRetry c p now E := by
  rcases hf with hneg | ⟨hpos, hexp⟩
  · simp [scratchpadHandler, hdc1, scratchpadRun, h, hneg]
  · simp [scratchpadHandler, hdc1, scratchpadRun, h, hpos, hexp]

theorem scratchpadHandler_ack (hneg : negIn A = false) (hpos : posIn A = true) :
    scratchpadHandler c p now A E = spAck c p now E := by
  simp [scratchpadHandler, hdc1, scratchpadRun, h, hneg, hpos]

theorem scratchpadHandler_quiet (hf : ¬ Failed now A E.reg) (hpos : posIn A = false) :
    scratchpadHandler c p now A E = E := by
  obtain ⟨hneg, hlive⟩ := not_or.1 hf
  have hexp : expired E.reg now = false := by simpa [hpos] using hlive
  simp [scratchpadHandler, hdc1, scratchpadRun, h, hneg, hpos, hexp]

end NoDc1

/-! ### The handler of the tick (R222) -/

theorem runHandler_idle (h : E.reg.state = .idle) : runHandler c p now A E = idleHandler c A E := by
  simp only [runHandler, h]

theorem runHandler_rts (h : E.reg.state = .rts) : runHandler c p now A E = rtsHandler c p A E := by
  simp only [runHandler, h]

theorem runHandler_sendData (h : E.reg.state = .sendData) :
    runHandler c p now A E = senddataHandler c p now A E := by
  simp only [runHandler, h]

theorem runHandler_scratchpad (h : E.reg.state = .scratchpad) :
    runHandler c p now A E = scratchpadHandler c p now A E := by
  simp only [runHandler, h]

/-! ### The transition table (R263), one theorem per state -/

theorem idleHandler_transitions (h : E.reg.state = .idle) :
    ((∃ r ∈ A, r.kind = .enq) → (idleHandler c A E).reg.state = .rts) ∧
    ((¬ ∃ r ∈ A, r.kind = .enq) → E.reg.spDirty = true → (idleHandler c A E).reg.state = .scratchpad) ∧
    ((¬ ∃ r ∈ A, r.kind = .enq) → E.reg.spDirty = false → (idleHandler c A E).reg.state = .idle) := by
  rw [← firstOf_eq_none]
  refine ⟨fun henq => ?_, fun hno hd => ?_, fun hno hd => ?_⟩
  · cases hfirst : firstOf .enq A with
    | none => exact absurd henq (firstOf_eq_none.1 hfirst)
    | some r => rw [idleHandler_enq hfirst]; rfl
  · rw [idleHandler_noEnq hno, idleToScratchpad_dirty hd]; rfl
  · rw [idleHandler_noEnq hno, idleToScratchpad_clean hd, h]

theorem acceptCts_transitions (w : Word) :
    (acceptCts w E).reg.state = .idle ∧ (E.reg.reqCount = 0 ∨ ctsMax w = 0 ∨ E.reg.queue = []) ∨
    (acceptCts w E).reg.state = .sendData ∧ 0 < E.reg.reqCount ∧ 0 < ctsMax w ∧ E.reg.queue ≠ [] ∧
      (acceptCts w E).reg.batch ≠ [] := by
  by_cases hrecs : batchRecords E.reg (min E.reg.reqCount (ctsMax w)) = []
  · rw [acceptCts_empty hrecs]
    rw [batchRecords_eq_nil_iff, Nat.min_eq_zero_iff, or_assoc] at hrecs
    exact .inl ⟨rfl, hrecs⟩
  · rw [acceptCts_batch hrecs]
    have hbatch : numbered (batchRecords E.reg (min E.reg.reqCount (ctsMax w))) ≠ [] := by
      simpa [numbered] using hrecs
    rw [batchRecords_eq_nil_iff, Nat.min_eq_zero_iff, or_assoc, not_or, not_or] at hrecs
    obtain ⟨hreq, hmax, hqueue⟩ := hrecs
    exact .inr ⟨rfl, Nat.pos_of_ne_zero hreq, Nat.pos_of_ne_zero hmax, hqueue, hbatch⟩

theorem rtsHandler_transitions (h : E.reg.state = .rts) :
    (E.reg.rtsSent = true → ∀ r, firstOf .cts A = some r →
      ((rtsHandler c p A E).reg.state = .idle ∧
        (E.reg.reqCount = 0 ∨ ctsMax r.word = 0 ∨ E.reg.queue = []) ∨
       (rtsHandler c p A E).reg.state = .sendData ∧ 0 < E.reg.reqCount ∧ 0 < ctsMax r.word ∧
        E.reg.queue ≠ [] ∧ (rtsHandler c p A E).reg.batch ≠ [])) ∧
    ((E.reg.rtsSent = false ∨ ¬ ∃ r ∈ A, r.kind = .cts) → (rtsHandler c p A E).reg.state = .rts) := by
  refine ⟨fun hs r hr => ?_, fun hquiet => ?_⟩
  · rw [rtsHandler_sent hs, ctsHandler_cts hs hr]
    exact acceptCts_transitions r.word
  · cases hs : E.reg.rtsSent with
    | false => rw [rtsHandler_unsent hs, rtsTransmit_state, h]
    | true =>
      rw [rtsHandler_sent hs, ctsHandler_quiet (hquiet.imp_right firstOf_eq_none.2), h]

theorem senddataHandler_transitions (h : E.reg.state = .sendData) :
    (E.reg.sdSent = true → Failed now A E.reg → c.maxRetries ≤ E.reg.repeatCount →
      (senddataHandler c p now A E).reg.state = .idle ∧ (senddataHandler c p now A E).reg.lock = none) ∧
    (E.reg.sdSent = true → ¬ negIn A = true → posIn A = true → E.reg.mode = .data → E.reg.queue ≠ [] →
      (senddataHandler c p now A E).reg.state = .rts) ∧
    (E.reg.sdSent = true → ¬ negIn A = true → posIn A = true → (E.reg.mode = .menu ∨ E.reg.queue = []) →
      (senddataHandler c p now A E).reg.state = .idle) ∧
    ((E.reg.sdSent = false ∨ (Failed now A E.reg ∧ ¬ c.maxRetries ≤ E.reg.repeatCount) ∨
        (¬ Failed now A E.reg ∧ ¬ posIn A = true)) →
      (senddataHandler c p now A E).reg.state = .sendData) := by
  obtain ⟨hwithin, hspent⟩ := retry_cases c p now E
  obtain ⟨-, hmore, hlast⟩ := ackData_cases E
  cases hs : E.reg.sdSent with
  | false =>
    refine ⟨nofun, nofun, nofun, fun _ => ?_⟩
    rw [senddataHandler_unsent hs, (senddataTransmit_fields c p now E).1, h]
  | true =>
    rw [senddataHandler_sent hs]
    refine ⟨fun _ hf hle => ?_, fun _ hneg hpos hm hq => ?_, fun _ hneg hpos hend => ?_, ?_⟩
    · rw [senddataResponses_failed hs hf, hspent hle]
      exact ⟨rfl, rfl⟩
    · rw [senddataResponses_ack hs (eq_false_of_ne_true hneg) hpos, hmore hm hq]
    · rw [senddataResponses_ack hs (eq_false_of_ne_true hneg) hpos, hlast hend]
    · rintro (hno | ⟨hf, hlt⟩ | ⟨hf, hpos⟩)
      · cases hno
      · rw [senddataResponses_failed hs hf, (hwithin (Nat.not_le.1 hlt)).1, h]
      · rw [senddataResponses_quiet hs hf (eq_false_of_ne_true hpos), h]

theorem scratchpadHandler_transitions (h : E.reg.state = .scratchpad) :
    (dc1In A = true →
      ((scratchpadHandler c p now A E).reg.state = .idle ∧ (scratchpadHandler c p now A E).reg.spBuf = [] ∨
       (scratchpadHandler c p now A E).reg.state = .scratchpad ∧
        (scratchpadHandler c p now A E).reg.spBuf ≠ [])) ∧
    (¬ dc1In A = true → E.reg.spSent = false →
      (E.reg.spBuf.length ≤ E.reg.spPos → (scratchpadHandler c p now A E).reg.state = .idle) ∧
      (E.reg.spPos < E.reg.spBuf.length → (scratchpadHandler c p now A E).reg.state = .scratchpad)) ∧
    (¬ dc1In A = true → E.reg.spSent = true → Failed now A E.reg → c.maxRetries ≤ E.reg.repeatCount →
      (scratchpadHandler c p now A E).reg.state = .idle ∧ (scratchpadHandler c p now A E).reg.lock = none) ∧
    (¬ dc1In A = true → E.reg.spSent = true → ¬ negIn A = true → posIn A = true →
      (E.reg.spBuf.length ≤ E.reg.spPos + 1 → (scratchpadHandler c p now A E).reg.state = .idle) ∧
      (E.reg.spPos + 1 < E.reg.spBuf.length → (scratchpadHandler c p now A E).reg.state = .scratchpad)) ∧
    (¬ dc1In A = true → E.reg.spSent = true →
      ((Failed now A E.reg ∧ ¬ c.maxRetries ≤ E.reg.repeatCount) ∨
        (¬ Failed now A E.reg ∧ ¬ posIn A = true)) →
      (scratchpadHandler c p now A E).reg.state = .scratchpad) := by
  obtain ⟨hwithin, hspent⟩ := spRetry_cases c p now E
  refine ⟨fun hdc1 => ?dc1, fun hdc1 hs => ?unsent, fun hdc1 hs hf hle => ?spent,
    fun hdc1 hs hneg hpos => ?ack, fun hdc1 hs => ?kept⟩
  case dc1 =>
    obtain ⟨-, hbuf, hfinish, hsend⟩ := sendOrFinish_cases c p now (restartScratchpad c E)
    rw [scratchpadHandler_dc1 hdc1, hbuf]
    rcases Nat.eq_zero_or_pos (restartScratchpad c E).reg.spBuf.length with hnil | hpos
    · exact .inl ⟨hfinish hnil.le, List.length_eq_zero_iff.1 hnil⟩
    · exact .inr ⟨(hsend hpos).trans h, List.length_pos_iff.1 hpos⟩
  case unsent =>
    obtain ⟨-, -, hfinish, hsend⟩ := sendOrFinish_cases c p now E
    rw [scratchpadHandler_unsent (eq_false_of_ne_true hdc1) hs]
    exact ⟨hfinish, fun hlt => (hsend hlt).trans h⟩
  case spent =>
    rw [scratchpadHandler_failed (eq_false_of_ne_true hdc1) hs hf, hspent hle]
    exact ⟨rfl, rfl⟩
  case ack =>
    rw [scratchpadHandler_ack (eq_false_of_ne_true hdc1) hs (eq_false_of_ne_true hneg) hpos]
    obtain ⟨-, -, hfinish, hsend⟩ := sendOrFinish_cases c p now
      (E.mapReg fun r => { lockIn r with spPos := r.spPos + 1, spSent := false, repeatCount := 0 })
    exact ⟨hfinish, fun hlt => (hsend hlt).trans h⟩
  case kept =>
    rintro (⟨hf, hlt⟩ | ⟨hf, hpos⟩)
    · rw [scratchpadHandler_failed (eq_false_of_ne_true hdc1) hs hf, (hwithin (Nat.not_le.1 hlt)).1, h]
    · rw [scratchpadHandler_quiet (eq_false_of_ne_true hdc1) hs hf (eq_false_of_ne_true hpos), h]

end Sys2Proof.Machine

open Sys2Proof Sys2Proof.Machine

/-- Settles O51: the tick's next state is its handler's, and the keypresses write none of the registers the
table reads but `spDirty`, which a DC1 sets. -/
theorem transitionsFollowTheTable : Obligations.TransitionsFollowTheTable := by
  intro s ch p E now he A has neg failed spent
  obtain ⟨hexec, hep⟩ := exec_tickEndpoint he now
  refine ⟨_, _, hexec, hep, ?_⟩
  obtain ⟨K, -, hreg, -, -, htick, -, -⟩ := tick_eq_handler s.cfg p now E
  have hneg : neg ↔ negIn A = true := negIn_iff.symm
  have hack : has .ack ↔ posIn A = true := posIn_iff.symm
  have hdc1 : has .dc1 ↔ dc1In A = true := dc1In_iff.symm
  have hfailed : failed ↔ Failed now A E.reg := or_assoc.trans failed_iff.symm
  rw [htick]
  cases hs : E.reg.state with
  | idle =>
    have hK : K.reg.state = .idle := by rw [hreg]; exact hs
    obtain ⟨henq, hdirty, hclean⟩ := idleHandler_transitions (c := s.cfg) (A := A) hK
    rw [runHandler_idle hK]
    rw [hreg] at hdirty hclean
    refine ⟨henq, fun hno hd => hdirty hno ?_, fun hno hd hkey => hclean hno ?_⟩
    · exact (Bool.or_eq_true _ _).mpr (hd.imp_right hdc1.1)
    · exact (Bool.or_eq_false_iff).mpr ⟨hd, eq_false_of_ne_true (mt hdc1.2 hkey)⟩
  | rts =>
    have hK : K.reg.state = .rts := by rw [hreg]; exact hs
    have htable := rtsHandler_transitions (c := s.cfg) (p := p) (A := A) hK
    rw [hreg] at htable
    rw [runHandler_rts hK]
    exact htable
  | sendData =>
    have hK : K.reg.state = .sendData := by rw [hreg]; exact hs
    have htable := senddataHandler_transitions (c := s.cfg) (p := p) (now := now) (A := A) hK
    rw [hreg] at htable
    rw [runHandler_sendData hK]
    simp only [hneg, hack, hfailed]
    exact htable
  | scratchpad =>
    have hK : K.reg.state = .scratchpad := by rw [hreg]; exact hs
    have htable := scratchpadHandler_transitions (c := s.cfg) (p := p) (now := now) (A := A) hK
    rw [hreg] at htable
    rw [runHandler_scratchpad hK]
    simp only [hneg, hack, hdc1, hfailed]
    exact htable
end

section
/-! SUPPORT. What a tick reads and sends: of the drained words the accepted ones only (R221, R310), and
first of all words the ACK of every keypress (R225). -/

namespace Sys2Proof.Machine

variable {c : Config} {p : EpConfig} {now : Time} {E E1 E2 : Ep}

/-- A heartbeat hands no key over and only appends to the channel (R275). -/
theorem heartbeat_out (c : Config) (p : EpConfig) (now : Time) (E : Ep) :
    (heartbeat c p now E).chan.keys = E.chan.keys ∧
    ∃ ws, (heartbeat c p now E).chan.outbound = E.chan.outbound ++ ws := by
  unfold heartbeat
  split
  · exact ⟨rfl, _, rfl⟩
  · exact ⟨rfl, [], (List.append_nil _).symm⟩

/-- The words and the keys of a tick: those of its keypresses, then the handler's and the heartbeat's
words (R220, R225). -/
theorem tickEndpoint_out (c : Config) (p : EpConfig) (now : Time) (E : Ep) :
    (tickEndpoint c p now E).chan.keys =
      E.chan.keys ++ (keysOf (acceptedOf c p E.drained)).map (fun r => dc1Key r.word) ∧
    ∃ more, (tickEndpoint c p now E).chan.outbound = E.chan.outbound ++
      List.replicate (keysOf (acceptedOf c p E.drained)).length
        (ctlWord c.labelMask (outLabel p E.reg) codeACK 0#10) ++ more := by
  have hkeys := keypresses_eq c p (acceptedOf c p E.drained) E.drain
  generalize hK : keypresses c p (acceptedOf c p E.drained) E.drain = K at hkeys
  have hhandler : Handled K (runHandler c p now (acceptedOf c p E.drained) K) := runHandler_handled
  obtain ⟨ws, hws, -⟩ := hhandler.out
  obtain ⟨hbKeys, hbWords, hb⟩ := heartbeat_out c p now (runHandler c p now (acceptedOf c p E.drained) K)
  have htick : tickEndpoint c p now E =
      heartbeat c p now (runHandler c p now (acceptedOf c p E.drained) K) := by rw [← hK]; rfl
  rw [htick]
  refine ⟨?_, ws ++ hbWords, ?_⟩
  · rw [hbKeys, hhandler.keys, hkeys]
    rfl
  · rw [hb, hws, hkeys, List.append_assoc]
    rfl

/-- The accepted words are read off the queue word by word, whatever the timestamps (R310). -/
theorem acceptedOf_drained (c : Config) (p : EpConfig) (E : Ep) :
    acceptedOf c p E.drained = E.chan.inbound.filterMap fun a => classify c p a.word :=
  List.filterMap_map

/-- A tick depends on the inbound queue through its accepted words only (R221, R294). -/
theorem tickEndpoint_congr (hdrain : E1.drain = E2.drain)
    (hA : acceptedOf c p E1.drained = acceptedOf c p E2.drained) :
    tickEndpoint c p now E1 = tickEndpoint c p now E2 := by
  simp only [tickEndpoint, hdrain, hA]

/-- The drained endpoint is its registers and the channel but for its inbound queue. -/
theorem drain_congr (hreg : E1.reg = E2.reg) (harr : E1.chan.arriving = E2.chan.arriving)
    (hout : E1.chan.outbound = E2.chan.outbound) (hkeys : E1.chan.keys = E2.chan.keys) :
    E1.drain = E2.drain := by
  simp only [Ep.drain, hreg, harr, hout, hkeys]

end Sys2Proof.Machine

open Sys2Proof Sys2Proof.Machine

/-- Settles O53: the keypresses come first in the tick, and nothing after them hands a key over or takes a
word back (`tickEndpoint_out`). -/
theorem keypressesAreAcknowledgedInEveryState : Obligations.KeypressesAreAcknowledgedInEveryState := by
  intro s ch p E now he D
  obtain ⟨hexec, hep⟩ := exec_tickEndpoint he now
  obtain ⟨hkeys, more, hout⟩ := tickEndpoint_out s.cfg p now E
  have hD : keysOf (acceptedOf s.cfg p E.drained) = D.map fun w => ⟨.dc1, w⟩ := keysOf_acceptedOf s.cfg p E.drained
  rw [hD, List.map_map] at hkeys
  rw [hD, List.length_map] at hout
  refine ⟨_, _, more, hexec, hep, ?_, hout⟩
  simpa only [Function.comp_def, dc1Key_eq] using hkeys

/-- Settles O55: the two endpoints drained are the same, and so are their accepted words. -/
theorem ignoredWordsAndTimestampsChangeNothing : Obligations.IgnoredWordsAndTimestampsChangeNothing := by
  intro s1 s2 ch p E1 E2 now he1 he2 hcfg hreg harr hout hkeys hwords
  obtain ⟨hexec1, hep1⟩ := exec_tickEndpoint he1 now
  obtain ⟨hexec2, hep2⟩ := exec_tickEndpoint he2 now
  have htick : tickEndpoint s1.cfg p now E1 = tickEndpoint s1.cfg p now E2 :=
    tickEndpoint_congr (drain_congr hreg harr hout hkeys) (by simpa only [acceptedOf_drained] using hwords)
  refine ⟨_, _, tickEndpoint s1.cfg p now E1, hexec1, hexec2, hep1, ?_⟩
  rw [htick, hcfg]
  exact hep2
end

section
/-! SUPPORT. Words that arrive between ticks, and what the ticks of a session make of the registers: one
theorem per stage of the handshake (R264), and the count of retries over any number of them (R265). -/

namespace Sys2Proof.Machine

/-! ### A word arrives -/

/-- The endpoint with a word more in its inbound queue (R51). -/
def Ep.arrive (E : Ep) (a : Arrival) : Ep :=
  { E with chan := { E.chan with inbound := E.chan.inbound ++ [a] } }

variable {s t : State} {ch : Nat} {c : Config} {p : EpConfig} {E E0 : Ep} {now stamp : Time} {w : Word} {k : RxKind}

@[simp] theorem Ep.arrive_reg (a : Arrival) : (E.arrive a).reg = E.reg := rfl
@[simp] theorem Ep.arrive_drained (a : Arrival) : (E.arrive a).drained = E.drained ++ [a.word] := by
  simp [Ep.arrive, Ep.drained]

/-- A classified word has its kind by its code (R100). -/
theorem rxKindOf_of_classify (h : classify c p w = some ⟨k, w⟩) : rxKindOf w = some k := by
  unfold classify at h
  split at h
  · obtain ⟨k', hk, heq⟩ := Option.map_eq_some_iff.1 h
    cases heq
    exact hk
  · cases h

/-- A word of one of the six kinds decodes, whatever stands for a word that does not (R100, R118). -/
theorem exec_decoded_inbound (hk : rxKindOf w = some k) (d : Instr) :
    exec ((decode (.inbound ch stamp) w).toOption.getD d) s = deliver s ch ⟨w, stamp⟩ := by
  obtain ⟨i, hi⟩ | herr := decodeInbound_total ch stamp w
  · obtain ⟨hw, hctx⟩ := encode_decodeInbound hi
    rw [decode, hi]
    exact exec_inbound hctx hw
  · rw [decodeInbound, hk] at herr
    cases k <;> cases herr

section Sequence
variable (h : EpAt s ch E t) (he : s.ep? ch = some (p, E0)) (is : List Instr)
include h he

theorem EpAt.execAll_arrive (hc : classify s.cfg p w = some ⟨k, w⟩) (d : Instr) :
    execAll ((decode (.inbound ch stamp) w).toOption.getD d :: is) t =
      execAll is ((s.setEp ch (E.arrive ⟨w, stamp⟩)).answer .nothing) :=
  execAll_cons ((exec_decoded_inbound (rxKindOf_of_classify hc) d).trans
    (h.doEp he fun _ _ E => E.arrive ⟨w, stamp⟩)) is

theorem EpAt.execAll_tick (now : Time) : execAll (.tickEndpoint ch now :: is) t =
    execAll is ((s.setEp ch (tickEndpoint s.cfg p now E)).answer .nothing) := by
  have hexec : exec (.tickEndpoint ch now) t = _ := h.doEp he fun c p E => tickEndpoint c p now E
  exact execAll_cons hexec is

end Sequence

/-! ### The registers at the handler -/

/-- `K` has the registers of `E`, `spDirty` aside: what the keypresses of a tick leave (R225). -/
structure Keyed (E K : Ep) : Prop where
  reg : K.reg = { E.reg with spDirty := K.reg.spDirty }

section Keyed
variable {K : Ep} (h : Keyed E K)
include h

theorem Keyed.state : K.reg.state = E.reg.state := by rw [h.reg]
theorem Keyed.lock : K.reg.lock = E.reg.lock := by rw [h.reg]
theorem Keyed.mode : K.reg.mode = E.reg.mode := by rw [h.reg]
theorem Keyed.reqCount : K.reg.reqCount = E.reg.reqCount := by rw [h.reg]
theorem Keyed.rtsSent : K.reg.rtsSent = E.reg.rtsSent := by rw [h.reg]
theorem Keyed.batch : K.reg.batch = E.reg.batch := by rw [h.reg]
theorem Keyed.sdSent : K.reg.sdSent = E.reg.sdSent := by rw [h.reg]
theorem Keyed.repeatCount : K.reg.repeatCount = E.reg.repeatCount := by rw [h.reg]
theorem Keyed.queue : K.reg.queue = E.reg.queue := by rw [h.reg]
theorem Keyed.everDrained : K.reg.everDrained = E.reg.everDrained := by rw [h.reg]

end Keyed

/-- The registers after a tick are its handler's, the heartbeat time aside (R220). -/
theorem tick_reg (c : Config) (p : EpConfig) (now : Time) (E : Ep) :
    ∃ K, Keyed E K ∧ (tickEndpoint c p now E).reg =
      { (runHandler c p now (acceptedOf c p E.drained) K).reg with
        lastHb := (tickEndpoint c p now E).reg.lastHb } := by
  obtain ⟨K, -, hreg, -, -, htick, -, -⟩ := tick_eq_handler c p now E
  exact ⟨K, ⟨by rw [hreg]⟩, htick⟩

/-! ### Retries (R251, R252, R265) -/

/-- The endpoint waits in SendData for an answer to `E0`'s batch, after `n` retries, the lock held. -/
structure Waiting (E0 : Ep) (n : Nat) (E : Ep) : Prop where
  state       : E.reg.state = .sendData
  sdSent      : E.reg.sdSent = true
  repeatCount : E.reg.repeatCount = n
  lock        : E.reg.lock = E0.reg.lock
  batch       : E.reg.batch = E0.reg.batch

/-- In SendData a tick that drains a SYN or NACK is a retry of the batch sent (R248). -/
theorem tick_eq_retry (hs : E.reg.state = .sendData) (hsent : E.reg.sdSent = true)
    (hneg : negIn (acceptedOf c p E.drained) = true) :
    ∃ K, Keyed E K ∧
      (tickEndpoint c p now E).reg =
        { (retry c p now K).reg with lastHb := (tickEndpoint c p now E).reg.lastHb } := by
  obtain ⟨K, hK, htick⟩ := tick_reg c p now E
  have hsK : K.reg.state = .sendData := hK.state.trans hs
  have hsentK : K.reg.sdSent = true := hK.sdSent.trans hsent
  rw [runHandler_sendData hsK, senddataHandler_sent hsentK, senddataResponses_failed hsentK (.inl hneg)] at htick
  exact ⟨K, hK, htick⟩

/-- Within the budget a SYN or NACK leads to one retry more. -/
theorem Waiting.tick_within {n : Nat} (h : Waiting E0 n E) (hneg : negIn (acceptedOf c p E.drained) = true)
    (hn : n < c.maxRetries) : Waiting E0 (n + 1) (tickEndpoint c p now E) := by
  obtain ⟨K, hK, htick⟩ := tick_eq_retry (now := now) h.state h.sdSent hneg
  have hcount : K.reg.repeatCount = n := hK.repeatCount.trans h.repeatCount
  obtain ⟨hstate, hlock, hbatch, hsent, hrep⟩ := (retry_cases c p now K).1 (hcount ▸ hn)
  constructor <;> rw [htick]
  · exact hstate.trans (hK.state.trans h.state)
  · exact hsent.trans (hK.sdSent.trans h.sdSent)
  · exact hrep.trans (congrArg (· + 1) hcount)
  · exact hlock.trans (hK.lock.trans h.lock)
  · exact hbatch.trans (hK.batch.trans h.batch)

/-- With the budget spent a SYN or NACK ends the session (R252). -/
theorem Waiting.tick_spent {n : Nat} (h : Waiting E0 n E) (hneg : negIn (acceptedOf c p E.drained) = true)
    (hn : c.maxRetries ≤ n) :
    (tickEndpoint c p now E).reg.state = .idle ∧ (tickEndpoint c p now E).reg.lock = none ∧
    (tickEndpoint c p now E).reg.batch = [] := by
  obtain ⟨K, hK, htick⟩ := tick_eq_retry (now := now) h.state h.sdSent hneg
  have hcount : K.reg.repeatCount = n := hK.repeatCount.trans h.repeatCount
  rw [htick, (retry_cases c p now K).2 (hcount ▸ hn)]
  exact ⟨rfl, rfl, rfl⟩

/-- A word that counts against the batch (R223). -/
def Negative (c : Config) (p : EpConfig) (w : Word) : Prop :=
  classify c p w = some ⟨.nack, w⟩ ∨ classify c p w = some ⟨.syn, w⟩

/-- A SYN or NACK that arrived is drained, whatever else is in the queue (R51, R223). -/
theorem Negative.negIn_arrive (h : Negative c p w) :
    negIn (acceptedOf c p (E.arrive ⟨w, stamp⟩).drained) = true := by
  have hmem : w ∈ (E.arrive ⟨w, stamp⟩).drained := by simp
  rw [negIn_iff]
  rcases h with h | h
  · exact .inr (mem_acceptedOf.2 ⟨w, hmem, h⟩)
  · exact .inl (mem_acceptedOf.2 ⟨w, hmem, h⟩)

/-- Rounds of a word that arrives, read with its timestamp, and a tick at that time. -/
def rounds (ch : Nat) (ks : List (Word × Time)) : List Instr :=
  ks.flatMap fun x => [(decode (.inbound ch x.2) x.1).toOption.getD (.enterRTS ch), .tickEndpoint ch x.2]

theorem EpAt.execAll_round (h : EpAt s ch E t) (he : s.ep? ch = some (p, E0)) {x : Word × Time}
    (hx : Negative s.cfg p x.1) (ks : List (Word × Time)) : execAll (rounds ch (x :: ks)) t =
      execAll (rounds ch ks) ((s.setEp ch (tickEndpoint s.cfg p x.2 (E.arrive ⟨x.1, x.2⟩))).answer .nothing) := by
  have hrun {k} (hc : classify s.cfg p x.1 = some ⟨k, x.1⟩) :=
    (h.execAll_arrive he (stamp := x.2) (.tickEndpoint ch x.2 :: rounds ch ks) hc (.enterRTS ch)).trans
      ((EpAt.write .nothing).execAll_tick he (rounds ch ks) x.2)
  exact hx.elim hrun hrun

theorem Waiting.arrive {n : Nat} (h : Waiting E0 n E) (a : Arrival) : Waiting E0 n (E.arrive a) :=
  ⟨h.state, h.sdSent, h.repeatCount, h.lock, h.batch⟩

/-- As many rounds as the budget still allows count that many retries more (R265), by induction over
the rounds. -/
theorem Waiting.rounds_within (he : s.ep? ch = some (p, E0)) {n : Nat} {E1 : Ep} (ks : List (Word × Time))
    (h : Waiting E1 n E) (hat : EpAt s ch E t) (hks : ∀ x ∈ ks, Negative s.cfg p x.1)
    (hn : n + ks.length ≤ s.cfg.maxRetries) :
    ∃ u E', execAll (rounds ch ks) t = .next u ∧ EpAt s ch E' u ∧ Waiting E1 (n + ks.length) E' := by
  induction ks generalizing n E t with
  | nil => exact ⟨t, E, rfl, hat, h⟩
  | cons x ks ih =>
    obtain ⟨hx, hks⟩ := List.forall_mem_cons.1 hks
    have hlen : n + (x :: ks).length = n + 1 + ks.length := by simp only [List.length_cons]; omega
    rw [hlen] at hn ⊢
    rw [hat.execAll_round he hx]
    exact ih ((h.arrive ⟨x.1, x.2⟩).tick_within hx.negIn_arrive (by omega)) (.write _) hks hn

/-! ### The handshake (R264), one stage per tick -/

/-- Nothing is queued and no coming Peek finds a word. -/
structure Silent (E : Ep) : Prop where
  inbound  : E.chan.inbound = []
  arriving : ∀ P ∈ E.chan.arriving, P = []

/-- A tick drains the queue, and where no Peek finds a word nothing joins it (R181, R220). -/
theorem tick_silent (h : ∀ P ∈ E.chan.arriving, P = []) : Silent (tickEndpoint c p now E) := by
  obtain ⟨K, -, -, hin, harr, -, htickIn, htickArr⟩ := tick_eq_handler c p now E
  have hhandler : Handled K (runHandler c p now (acceptedOf c p E.drained) K) := runHandler_handled
  obtain ⟨n, hn, hleft⟩ := hhandler.peeks
  constructor
  · rw [htickIn, hn, hin, harr, List.nil_append, List.flatten_eq_nil_iff]
    exact fun P hP => h P (List.mem_of_mem_take hP)
  · rw [htickArr, hleft, harr]
    exact fun P hP => h P (List.mem_of_mem_drop hP)

theorem Silent.drained (h : Silent E) : E.drained = [] := congrArg _ h.inbound

/-- The word that arrives at a silent endpoint is all that the next tick reads. -/
theorem Silent.acceptedOf_arrive (h : Silent E) (hc : classify c p w = some ⟨k, w⟩) :
    acceptedOf c p (E.arrive ⟨w, stamp⟩).drained = [⟨k, w⟩] := by
  simp [acceptedOf, h.drained, hc]

section Stages
variable {r : Rx}

/-- The tick that accepts an ENQ (R230, R231). -/
theorem tick_enq (hs : E.reg.state = .idle) (hA : firstOf .enq (acceptedOf c p E.drained) = some r) :
    (tickEndpoint c p now E).reg.state = .rts ∧ (tickEndpoint c p now E).reg.rtsSent = false ∧
    (tickEndpoint c p now E).reg.mode = enqMode r.word ∧
    (tickEndpoint c p now E).reg.queue = E.reg.queue ∧
    (tickEndpoint c p now E).reg.everDrained = E.reg.everDrained := by
  obtain ⟨K, hK, htick⟩ := tick_reg c p now E
  rw [runHandler_idle (hK.state.trans hs), idleHandler_enq hA] at htick
  rw [htick]
  exact ⟨rfl, rfl, rfl, hK.queue, hK.everDrained⟩

/-- The tick that sends the RTS (R240). -/
theorem tick_rts (hs : E.reg.state = .rts) (hsent : E.reg.rtsSent = false) (hc : rtsCount c E.reg ≠ 0) :
    (tickEndpoint c p now E).reg.state = .rts ∧ (tickEndpoint c p now E).reg.rtsSent = true ∧
    (tickEndpoint c p now E).reg.reqCount = rtsCount c E.reg ∧
    (tickEndpoint c p now E).reg.mode = E.reg.mode ∧
    (tickEndpoint c p now E).reg.queue = E.reg.queue := by
  obtain ⟨K, hK, htick⟩ := tick_reg c p now E
  have hcount : rtsCount c K.reg = rtsCount c E.reg := by rw [hK.reg]; rfl
  have hsK : K.reg.state = .rts := hK.state.trans hs
  have hsentK : K.reg.rtsSent = false := hK.rtsSent.trans hsent
  rw [runHandler_rts hsK, rtsHandler_unsent hsentK, rtsTransmit_sends hsentK (hcount ▸ hc)] at htick
  rw [htick]
  exact ⟨hsK, rfl, hcount, hK.mode, hK.queue⟩

/-- The tick that acts on a CTS for at least the `n` records requested, of `n` or more pending lines
(R242). -/
theorem tick_cts {n : Nat} (hs : E.reg.state = .rts) (hsent : E.reg.rtsSent = true)
    (hA : firstOf .cts (acceptedOf c p E.drained) = some r) (hreq : E.reg.reqCount = n)
    (hmax : n ≤ ctsMax r.word) (hpos : 1 ≤ n) (hq : n ≤ E.reg.queue.length) :
    (tickEndpoint c p now E).reg.state = .sendData ∧ (tickEndpoint c p now E).reg.sdSent = false ∧
    (tickEndpoint c p now E).reg.batch.length = n ∧
    (tickEndpoint c p now E).reg.mode = E.reg.mode := by
  obtain ⟨K, hK, htick⟩ := tick_reg c p now E
  have hsK : K.reg.state = .rts := hK.state.trans hs
  have hsentK : K.reg.rtsSent = true := hK.rtsSent.trans hsent
  have hn : min K.reg.reqCount (ctsMax r.word) = n := by
    rw [hK.reqCount, hreq]
    exact Nat.min_eq_left hmax
  have hlen : (batchRecords K.reg n).length = n := by
    rw [length_batchRecords, hK.queue]; exact Nat.min_eq_left hq
  have hne : batchRecords K.reg (min K.reg.reqCount (ctsMax r.word)) ≠ [] := by
    rw [hn]
    exact List.ne_nil_of_length_pos (by omega)
  rw [runHandler_rts hsK, rtsHandler_sent hsentK, ctsHandler_cts hsentK hA, acceptCts_batch hne, hn] at htick
  rw [htick]
  refine ⟨rfl, rfl, ?_, hK.mode⟩
  exact List.length_mapIdx.trans hlen

/-- The tick that transmits the batch (R247). -/
theorem tick_transmit (hs : E.reg.state = .sendData) (hsent : E.reg.sdSent = false) :
    (tickEndpoint c p now E).reg.state = .sendData ∧ (tickEndpoint c p now E).reg.sdSent = true ∧
    (tickEndpoint c p now E).reg.mode = E.reg.mode ∧
    (tickEndpoint c p now E).reg.queue = E.reg.queue := by
  obtain ⟨K, hK, htick⟩ := tick_reg c p now E
  have hsK : K.reg.state = .sendData := hK.state.trans hs
  have hsentK : K.reg.sdSent = false := hK.sdSent.trans hsent
  have hS := transmitBatch_sent (c := c) (p := p) K
  rw [runHandler_sendData hsK, senddataHandler_unsent hsentK, senddataTransmit_unsent hsentK] at htick
  rw [htick]
  exact ⟨hS.state.trans hsK, rfl, hS.mode.trans (hK.mode),
    hS.queue.trans (hK.queue)⟩

/-- The tick that acts on the ACK (R250). -/
theorem tick_ack (hs : E.reg.state = .sendData) (hsent : E.reg.sdSent = true)
    (hneg : negIn (acceptedOf c p E.drained) = false) (hpos : posIn (acceptedOf c p E.drained) = true) :
    (E.reg.mode = .data → E.reg.queue ≠ [] → (tickEndpoint c p now E).reg.state = .rts) ∧
    (E.reg.mode = .menu ∨ E.reg.queue = [] → (tickEndpoint c p now E).reg.state = .idle) := by
  obtain ⟨K, hK, htick⟩ := tick_reg c p now E
  have hsK : K.reg.state = .sendData := hK.state.trans hs
  have hsentK : K.reg.sdSent = true := hK.sdSent.trans hsent
  rw [runHandler_sendData hsK, senddataHandler_sent hsentK, senddataResponses_ack hsentK hneg hpos] at htick
  have hack := (ackData_cases K).2
  rw [hK.mode, hK.queue] at hack
  rw [htick]
  exact hack

end Stages

/-- The count an RTS requests with lines pending (R205, R240). -/
theorem rtsCount_eq {r : Regs} (hq : r.queue ≠ []) : rtsCount c r =
    if r.mode = .data ∧ r.everDrained = false then min r.queue.length c.recordCap else 1 := by
  unfold rtsCount plannedCount
  cases r.mode <;> cases r.everDrained <;> simp [hq]

theorem rtsCount_le_length {r : Regs} (hq : r.queue ≠ []) : rtsCount c r ≤ r.queue.length := by
  have hlen := List.length_pos_iff.2 hq
  rw [rtsCount_eq hq]
  split
  · exact Nat.min_le_left _ _
  · exact hlen

section Session
variable (h : EpAt s ch E t) (he : s.ep? ch = some (p, E0)) (hsilent : Silent E)
include h he hsilent

/-- From Idle to SendData with a batch of the requested number of records: ENQ, RTS and CTS (R231, R240,
R242). -/
theorem EpAt.execAll_request {enq cts : Word} {e1 e2 : Time} {n : Nat} (hidle : E.reg.state = .idle)
    (hq : E.reg.queue ≠ []) (hpos : 1 ≤ n)
    (hn : (if enqMode enq = .data ∧ E.reg.everDrained = false then min E.reg.queue.length s.cfg.recordCap else 1) = n)
    (henq : classify s.cfg p enq = some ⟨.enq, enq⟩) (hcts : classify s.cfg p cts = some ⟨.cts, cts⟩)
    (hmax : n ≤ ctsMax cts) (d1 d2 : Instr) (t1 t2 t3 : Time) :
    ∃ E3, execAll [(decode (.inbound ch e1) enq).toOption.getD d1, .tickEndpoint ch t1, .tickEndpoint ch t2,
        (decode (.inbound ch e2) cts).toOption.getD d2, .tickEndpoint ch t3] t =
          .next ((s.setEp ch E3).answer .nothing) ∧
      Silent E3 ∧ E3.reg.state = .sendData ∧ E3.reg.sdSent = false ∧ E3.reg.batch.length = n ∧
      E3.reg.mode = enqMode enq := by
  rw [h.execAll_arrive he _ henq, (EpAt.write _).execAll_tick he, (EpAt.write _).execAll_tick he,
    (EpAt.write _).execAll_arrive he _ hcts, (EpAt.write _).execAll_tick he]
  have hA1 : firstOf .enq (acceptedOf s.cfg p (E.arrive ⟨enq, e1⟩).drained) = some ⟨.enq, enq⟩ := by
    rw [hsilent.acceptedOf_arrive henq]; rfl
  have hsilent1 : Silent (tickEndpoint s.cfg p t1 (E.arrive ⟨enq, e1⟩)) := tick_silent hsilent.arriving
  obtain ⟨hs1, hsent1, hmode1, hq1, hdrained1⟩ := tick_enq (now := t1) (E := E.arrive ⟨enq, e1⟩) hidle hA1
  generalize tickEndpoint s.cfg p t1 (E.arrive ⟨enq, e1⟩) = E1 at *
  have hqueue1 : E1.reg.queue ≠ [] := hq1 ▸ hq
  have hcount : rtsCount s.cfg E1.reg = n := by
    rw [rtsCount_eq hqueue1, hmode1, hq1, hdrained1]
    exact hn
  have hsilent2 : Silent (tickEndpoint s.cfg p t2 E1) := tick_silent hsilent1.arriving
  obtain ⟨hs2, hsent2, hreq2, hmode2, hq2⟩ := tick_rts (c := s.cfg) (p := p) (now := t2) hs1 hsent1 (by omega)
  generalize tickEndpoint s.cfg p t2 E1 = E2 at *
  have hA2 : firstOf .cts (acceptedOf s.cfg p (E2.arrive ⟨cts, e2⟩).drained) = some ⟨.cts, cts⟩ := by
    rw [hsilent2.acceptedOf_arrive hcts]; rfl
  have hlen : n ≤ E2.reg.queue.length := by
    rw [hq2, ← hcount]
    exact rtsCount_le_length hqueue1
  obtain ⟨hs3, hsent3, hbatch3, hmode3⟩ := tick_cts (now := t3) (E := E2.arrive ⟨cts, e2⟩) hs2 hsent2 hA2
    (hreq2.trans hcount) hmax hpos hlen
  exact ⟨_, rfl, tick_silent hsilent2.arriving, hs3, hsent3, hbatch3, hmode3.trans (hmode2.trans hmode1)⟩

/-- From SendData to the session's end or its next RTS: the transmission and its ACK (R247, R250). -/
theorem EpAt.execAll_delivery {ack : Word} {e3 : Time} (hs : E.reg.state = .sendData)
    (hsent : E.reg.sdSent = false) (hack : classify s.cfg p ack = some ⟨.ack, ack⟩) (d : Instr) (t4 t5 : Time) :
    ∃ E5, execAll [.tickEndpoint ch t4, (decode (.inbound ch e3) ack).toOption.getD d, .tickEndpoint ch t5] t =
        .next ((s.setEp ch E5).answer .nothing) ∧
      (E.reg.mode = .data → E.reg.queue ≠ [] → E5.reg.state = .rts) ∧
      (E.reg.mode = .menu ∨ E.reg.queue = [] → E5.reg.state = .idle) := by
  rw [h.execAll_tick he, (EpAt.write _).execAll_arrive he _ hack, (EpAt.write _).execAll_tick he]
  have hsilent4 : Silent (tickEndpoint s.cfg p t4 E) := tick_silent hsilent.arriving
  obtain ⟨hs4, hsent4, hmode4, hq4⟩ := tick_transmit (c := s.cfg) (p := p) (now := t4) hs hsent
  generalize tickEndpoint s.cfg p t4 E = E4 at *
  have hA4 := hsilent4.acceptedOf_arrive hack (stamp := e3)
  have hend := tick_ack (c := s.cfg) (p := p) (now := t5) (E := E4.arrive ⟨ack, e3⟩) hs4 hsent4
    (by rw [hA4]; rfl) (by rw [hA4]; rfl)
  rw [Ep.arrive_reg, hmode4, hq4] at hend
  exact ⟨_, rfl, hend⟩

end Session

end Sys2Proof.Machine

open Sys2Proof Sys2Proof.Machine

/-- Settles O57: the rounds within the budget keep the endpoint waiting (`Waiting.rounds_within`); one more
round is after as many as the budget allows, and exhausts it. -/
theorem retriesAreBounded : Obligations.RetriesAreBounded := by
  intro ks s ch p E he hs hsent hzero hlen hks
  have hE : Waiting E 0 E := ⟨hs, hsent, hzero, rfl, rfl⟩
  rcases Nat.lt_or_ge s.cfg.maxRetries ks.length with hspent | hwithin
  · obtain ⟨init, x, rfl⟩ : ∃ init x, ks = init ++ [x] :=
      (List.eq_nil_or_concat' ks).resolve_left (by rintro rfl; exact absurd hspent (Nat.not_lt_zero _))
    rw [List.length_append, List.length_singleton] at hspent hlen
    obtain ⟨hinit, hx⟩ := List.forall_mem_append.1 hks
    obtain ⟨t, E1, hrun, hat, hE1⟩ := hE.rounds_within he init (.refl he) hinit (by omega)
    refine ⟨_, tickEndpoint s.cfg p x.2 (E1.arrive ⟨x.1, x.2⟩), ?_, (EpAt.write .nothing).ep he, ?_, fun _ => ?_⟩
    · exact (congrArg (execAll · s) List.flatMap_append).trans ((execAll_append_of hrun _).trans
        (hat.execAll_round he (hx x (List.mem_singleton_self x)) []))
    · intro hle
      rw [List.length_append, List.length_singleton] at hle
      omega
    · have hneg : Negative s.cfg p x.1 := hx x (List.mem_singleton_self x)
      exact (hE1.arrive ⟨x.1, x.2⟩).tick_spent hneg.negIn_arrive (by omega)
  · obtain ⟨t, E1, hrun, hat, hE1⟩ := hE.rounds_within he ks (.refl he) hks (by omega)
    rw [Nat.zero_add] at hE1
    exact ⟨t, E1, hrun, hat.ep he, fun _ => ⟨hE1.state, hE1.repeatCount, hE1.lock, hE1.batch⟩,
      fun hover => absurd hwithin (by omega)⟩

/-- Settles O58: the session up to SendData (`execAll_request`), which requests as many records as
an RTS in the ENQ's mode does (`rtsCount_eq`), and the session from there (`execAll_delivery`). -/
theorem handshakeIsLive : Obligations.HandshakeIsLive := by
  intro s ch p E enq cts ack e1 e2 e3 t1 t2 t3 t4 t5 he hidle hin hq hquiet requested hpos henq hcts hmax hack arrive
  have hmode : enqMode enq = .data ↔ enq.getLsbD 19 = true := by
    rw [enqMode_eq]; cases enq.getLsbD 19 <;> decide
  have hmenu : enqMode enq = .menu ↔ enq.getLsbD 19 = false := by
    rw [enqMode_eq]; cases enq.getLsbD 19 <;> decide
  have hcount : (if enqMode enq = .data ∧ E.reg.everDrained = false then
      min E.reg.queue.length s.cfg.recordCap else 1) = requested := by
    simp only [hmode, requested]
  rw [← ctsMax_eq] at hmax
  obtain ⟨E3, hrun3, hsilent3, hs3, hsent3, hbatch3, hmode3⟩ :=
    (EpAt.refl he).execAll_request he ⟨hin, hquiet⟩ hidle hq hpos hcount henq hcts hmax (.exhaust ch) (.exhaust ch)
      t1 t2 t3
  obtain ⟨E5, hrun5, hrts, hidle5⟩ :=
    (EpAt.write .nothing).execAll_delivery he hsilent3 hs3 hsent3 hack (.exhaust ch) t4 t5
  rw [hmode3, hmode] at hrts
  rw [hmode3, hmenu] at hidle5
  exact ⟨_, _, E3, E5, hrun3, (EpAt.write .nothing).ep he, hs3, hbatch3, hrun5,
    (EpAt.write .nothing).ep he, hidle5, hrts⟩
end

section
/-! SUPPORT. The rows of the transport state machine one by one (spec/44_transport_fsm.md sections 2 to 6):
what each operation writes, in the terms of its rule, and the drained batch as flags. -/

namespace Sys2Proof.Machine

variable {s : State} {ch : Nat} {c : Config} {p : EpConfig} {E : Ep} {now : Time} {B : List Word}

/-! ### What the operations write -/

/-- keypress as bits of the word (R102, R225). -/
theorem keypress_eq (c : Config) (p : EpConfig) (w : Word) (E : Ep) : keypress c p w E =
    { reg := { E.reg with spDirty := true }
      chan := { E.chan with
        outbound := E.chan.outbound ++ [ctlWord c.labelMask (outLabel p E.reg) codeACK 0#10]
        keys := E.chan.keys ++ [w.extractLsb' 11 7] } } := by
  rw [← dc1Key_eq]
  rfl

/-- acceptEnq as bits of the word (R101, R231). -/
theorem acceptEnq_eq (w : Word) (E : Ep) : acceptEnq w E = { E with reg := { E.reg with
    state := .rts, rtsSent := false, reqCount := 0
    lock := (match E.reg.lock with
      | some l => some l
      | none => some (w.extractLsb' 11 8))
    mode := if w.getLsbD 19 then .data else .menu } } := by
  rw [← enqTarget_eq, ← enqMode_eq]
  rfl

theorem scratchpadText_none {r : Regs} (h : r.prevFrame = none) : scratchpadText c r = [] := by
  simp only [scratchpadText, h]

/-- The snapshot is the line's text without its trailing spaces, where the Frame has the line (R53). -/
theorem scratchpadText_some {r : Regs} {F : Frame} {l : LineRender} (h : r.prevFrame = some F)
    (hline : 1 ≤ c.scratchpadLine) (hl : F[c.scratchpadLine - 1]? = some l) :
    (∃ n, l.text = scratchpadText c r ++ List.replicate n 0x20#7) ∧
      (scratchpadText c r).getLast? ≠ some 0x20#7 := by
  have htext : scratchpadText c r = stripSpaces l.text := by
    simp only [scratchpadText, h, frameLine_eq hline hl]
  rw [htext]
  exact stripSpaces_spec l.text

/-- ackData in a Data session with lines pending (R250). -/
theorem ackData_more (hmode : E.reg.mode = .data) (hq : E.reg.queue ≠ []) :
    ackData E = enterRTS (E.mapReg fun r => { lockIn r with batch := [], deadline := none }) :=
  if_pos ⟨hmode, List.length_pos_iff.2 hq⟩

/-- ackData at the session's end (R250). -/
theorem ackData_last (h : E.reg.mode = .menu ∨ E.reg.queue = []) :
    ackData E = E.mapReg fun r => { lockIn r with batch := [], deadline := none, state := .idle } := by
  refine if_neg fun ⟨hmode, hq⟩ => ?_
  rcases h with hmenu | hnil
  · exact absurd (hmenu.symm.trans hmode) (by decide)
  · exact List.length_pos_iff.1 hq hnil

/-- The scratchpad line's colour and attribute, 0 where no Frame is stored (R256). -/
theorem scratchpadRecord_none {r : Regs} (h : r.prevFrame = none) :
    (scratchpadRecord c r).color = 0 ∧ (scratchpadRecord c r).attr = 0 := by
  simp [scratchpadRecord, h]

theorem scratchpadRecord_some {r : Regs} {F : Frame} {l : LineRender} (h : r.prevFrame = some F)
    (hline : 1 ≤ c.scratchpadLine) (hl : F[c.scratchpadLine - 1]? = some l) :
    (scratchpadRecord c r).color = l.color ∧ (scratchpadRecord c r).attr = l.attr := by
  simp [scratchpadRecord, h, frameLine_eq hline hl]

/-- The character of the record: the buffer's at `spPos`, free past its end (R256; log 12). -/
def scratchpadChar (r : Regs) : Char7 :=
  match r.spBuf[r.spPos]? with
  | some x => x
  | none => Config.freeChar r.spBuf r.spPos

theorem scratchpadChar_eq {r : Regs} {x : Char7} (h : r.spBuf[r.spPos]? = some x) : scratchpadChar r = x := by
  simp only [scratchpadChar, h]

/-- The last tag sent, A where none was (R41, R250; log 10). -/
theorem triedTag_eq (r : Regs) : triedTag r = match r.lastTag with
    | some t => t
    | none => .A := by
  unfold triedTag
  cases r.lastTag <;> rfl

/-! ### The drained batch as flags (R223) -/

/-- A word of kind `k` is drained and accepted. -/
def Has (c : Config) (p : EpConfig) (B : List Word) (k : RxKind) : Prop := ∃ w ∈ B, classify c p w = some ⟨k, w⟩

theorem negIn_acceptedOf : negIn (acceptedOf c p B) = true ↔ Has c p B .syn ∨ Has c p B .nack := by
  rw [negIn_iff, mem_acceptedOf, mem_acceptedOf]; rfl

theorem posIn_acceptedOf : posIn (acceptedOf c p B) = true ↔ Has c p B .ack := by
  rw [posIn_iff, mem_acceptedOf]; rfl

theorem dc1In_acceptedOf : dc1In (acceptedOf c p B) = true ↔ Has c p B .dc1 := by
  rw [dc1In_iff, mem_acceptedOf]; rfl

section Responses
variable {r : Regs}

/-- SYN or NACK counts against what was sent (R223). -/
theorem failed_of_neg (h : Has c p B .syn ∨ Has c p B .nack) : Failed now (acceptedOf c p B) r :=
  .inl (negIn_acceptedOf.2 h)

/-- So does a reached deadline without an ACK (R248, R257). -/
theorem failed_of_late (hack : ¬ Has c p B .ack) (hlate : ∃ d, r.deadline = some d ∧ d ≤ now) :
    Failed now (acceptedOf c p B) r :=
  .inr ⟨eq_false_of_ne_true (mt posIn_acceptedOf.1 hack), expired_iff.2 hlate⟩

/-- And nothing else. -/
theorem not_failed (hneg : ¬ (Has c p B .syn ∨ Has c p B .nack))
    (hlate : ¬ ∃ d, r.deadline = some d ∧ d ≤ now) : ¬ Failed now (acceptedOf c p B) r
  | .inl h => hneg (negIn_acceptedOf.1 h)
  | .inr ⟨_, h⟩ => hlate (expired_iff.1 h)

theorem negIn_eq_false (hneg : ¬ (Has c p B .syn ∨ Has c p B .nack)) : negIn (acceptedOf c p B) = false :=
  eq_false_of_ne_true (mt negIn_acceptedOf.1 hneg)

theorem posIn_eq_false (hack : ¬ Has c p B .ack) : posIn (acceptedOf c p B) = false :=
  eq_false_of_ne_true (mt posIn_acceptedOf.1 hack)

end Responses

end Sys2Proof.Machine

open Sys2Proof Sys2Proof.Machine

/-- Settles O46: the handler's cases in R257's order; after a restart the new snapshot decides whether its
first character is sent or the sequence is complete. -/
theorem scratchpadHandlerInOrder : Obligations.ScratchpadHandlerInOrder := by
  intro s ch p E now B he has neg late same
  let A := acceptedOf s.cfg p B
  have hsame {i : Instr} {g : Config → EpConfig → Ep → Ep} {u : State} {E1 : Ep} (hu : EpAt s ch E1 u)
      (hi : exec i u = doEp u ch g) (h : scratchpadHandler s.cfg p now A E = g s.cfg p E1) : same i u := by
    have hboth := hu.same (f := fun c p E => scratchpadHandler c p now (acceptedOf c p B) E) he h
    rwa [← hi] at hboth
  refine ⟨fun hdc1 => ?restart, fun hdc1 hs hend => ?finish, fun hdc1 hs hlt => ?send, fun hdc1 hs hneg => ?negative,
    fun hdc1 hs hneg hack => ?ack, fun hdc1 hs hneg hack hlate => ?late, fun hdc1 hs hneg hack hlate => ?quiet⟩
  case restart =>
    have hrun := scratchpadHandler_dc1 (c := s.cfg) (p := p) (now := now) (E := E) (dc1In_acceptedOf.2 hdc1)
    refine ⟨_, restartScratchpad s.cfg E, doEp_eq he fun c _ E => restartScratchpad c E,
      (EpAt.write .nothing).ep he, fun hnil => ?_, fun hne => ?_⟩
    · refine hsame (g := fun _ _ E => finishScratchpad E) (.write .nothing) rfl (hrun.trans (sendOrFinish_finish ?_))
      rw [hnil]
      exact Nat.zero_le _
    · exact hsame (g := fun c p E => sendChar c p now E) (.write .nothing) rfl
        (hrun.trans (sendOrFinish_send (List.length_pos_iff.2 hne)))
  all_goals replace hdc1 : dc1In A = false := eq_false_of_ne_true (mt dc1In_acceptedOf.1 hdc1)
  case finish =>
    exact hsame (g := fun _ _ E => finishScratchpad E) (.refl he) rfl
      ((scratchpadHandler_unsent hdc1 hs).trans (sendOrFinish_finish hend))
  case send =>
    exact hsame (g := fun c p E => sendChar c p now E) (.refl he) rfl
      ((scratchpadHandler_unsent hdc1 hs).trans (sendOrFinish_send hlt))
  case negative =>
    exact hsame (g := fun c p E => spRetry c p now E) (.refl he) rfl
      (scratchpadHandler_failed hdc1 hs (failed_of_neg hneg))
  case ack =>
    exact hsame (g := fun c p E => spAck c p now E) (.refl he) rfl
      (scratchpadHandler_ack hdc1 hs (negIn_eq_false hneg) (posIn_acceptedOf.2 hack))
  case late =>
    exact hsame (g := fun c p E => spRetry c p now E) (.refl he) rfl
      (scratchpadHandler_failed hdc1 hs (failed_of_late hack hlate))
  case quiet =>
    exact doEp_idle (f := fun c p E => scratchpadHandler c p now (acceptedOf c p B) E) he
      (scratchpadHandler_quiet hdc1 hs (not_failed hneg hlate) (posIn_eq_false hack))

/-- Settles O32: keypress is one operation of its endpoint, its key code a slice of the word. -/
theorem keypressIsAcknowledged : Obligations.KeypressIsAcknowledged := by
  intro s ch p E w he
  exact doEp_of_eq (f := fun c p E => keypress c p w E) he (keypress_eq s.cfg p w E)

/-- Settles O33: acceptEnq is enterRTS with the lock and the mode of the ENQ's bits. -/
theorem acceptedEnqLocksAndEntersRts : Obligations.AcceptedEnqLocksAndEntersRts := by
  intro s ch p E w he
  exact ⟨doEp_eq he fun _ _ E => enterRTS E,
    doEp_of_eq (f := fun _ _ E => acceptEnq w E) he (acceptEnq_eq w E)⟩

/-- Settles O34: the first ENQ of the batch decides, and without one `spDirty`. -/
theorem idleHandlerTakesTheFirstEnq : Obligations.IdleHandlerTakesTheFirstEnq := by
  intro s ch p E batch he noEnq
  have hsame {g : Config → EpConfig → Ep → Ep} {ws : List Word}
      (h : idleHandler s.cfg (acceptedOf s.cfg p ws) E = g s.cfg p E) :=
    doEp_same (f := fun c p E => idleHandler c (acceptedOf c p ws) E) he h
  have hnone (hno : noEnq batch) : idleHandler s.cfg (acceptedOf s.cfg p batch) E = idleToScratchpad s.cfg E :=
    idleHandler_noEnq (firstOf_none hno)
  refine ⟨?_, fun hno hd => ?_, fun hno hd => ?_⟩
  · rintro pre w post rfl hw hpre
    have hfirst := firstOf_some (post := post) hw hpre
    exact hsame (g := fun _ _ E => acceptEnq w E) (idleHandler_enq (r := ⟨.enq, w⟩) hfirst)
  · exact hsame (g := fun c _ E => enterScratchpad c E) ((hnone hno).trans (idleToScratchpad_dirty hd))
  · exact doEp_idle (f := fun c p E => idleHandler c (acceptedOf c p batch) E) he
      ((hnone hno).trans (idleToScratchpad_clean hd))

/-- Settles O35: all three rows take the snapshot `scratchpadText`; the transition from Idle is guarded by
`spDirty`. -/
theorem scratchpadSnapshotIsTaken : Obligations.ScratchpadSnapshotIsTaken := by
  intro s ch p E he
  refine ⟨scratchpadText s.cfg E.reg, scratchpadText_none, fun F l => scratchpadText_some,
    doEp_eq he fun c _ E => enterScratchpad c E, doEp_eq he fun c _ E => restartScratchpad c E, ?_⟩
  have hexec : exec (.idleToScratchpad ch) s = doEp s ch fun c _ E => idleToScratchpad c E := rfl
  rw [hexec]
  split
  · next hd => exact doEp_of_eq he (idleToScratchpad_dirty hd)
  · next hd => exact doEp_idle he (idleToScratchpad_clean (eq_false_of_ne_true hd))

/-- Settles O36: the count is `rtsCount`, and the handler's first part is quiet or sends. -/
theorem rtsRequestsThePlannedCount : Obligations.RtsRequestsThePlannedCount := by
  intro s ch p E he count m
  have hcount : rtsCount s.cfg E.reg = count := by
    simp only [rtsCount, plannedCount, count]
    cases E.reg.mode <;> cases E.reg.everDrained <;> rfl
  have hmode : modeBit E.reg.mode = m := by simp only [m]; cases E.reg.mode <;> rfl
  have hexec : exec (.rtsHandler ch) s = doEp s ch fun c p E => rtsTransmit c p E := rfl
  rw [hexec]
  refine ⟨fun hquiet => doEp_idle he (rtsTransmit_quiet (hcount ▸ hquiet)), fun hs hc => ?_⟩
  have hsends := rtsTransmit_sends (p := p) hs (hcount ▸ hc)
  rw [hcount, rtsArg, hmode] at hsends
  exact doEp_of_eq he hsends

/-- Settles O37: the first CTS of the batch decides, and prepare_batch's answer is the batch it takes. -/
theorem ctsClampsAndPreparesTheBatch : Obligations.CtsClampsAndPreparesTheBatch := by
  intro s ch p E batch he
  have hexec : exec (.ctsHandler ch batch) s = doEp s ch fun c p E => ctsHandler (acceptedOf c p batch) E := rfl
  rw [hexec]
  refine ⟨fun hquiet => doEp_idle he (ctsHandler_quiet (hquiet.imp_right firstOf_none)), ?_⟩
  rintro pre w post hs rfl hw hpre
  have hcts := ctsHandler_cts hs (firstOf_some (post := post) hw hpre)
  rw [← ctsMax_eq]
  refine ⟨_, { E with reg := popBatch E.reg (min E.reg.reqCount (ctsMax w)) },
    batchRecords E.reg (min E.reg.reqCount (ctsMax w)), exec_prepareBatch he, (EpAt.write _).ep he, rfl,
    fun hnil => ?_, fun hne => ?_⟩
  · exact doEp_of_eq he (hcts.trans (acceptCts_empty hnil))
  · exact doEp_of_eq he (hcts.trans (acceptCts_batch hne))

/-- Settles O39: once per entry transmitBatch runs, and the registers of R247 are written to what it leaves. -/
theorem sendDataTransmitsOnceAndArmsTheDeadline : Obligations.SendDataTransmitsOnceAndArmsTheDeadline := by
  intro s ch p E now he
  have hexec : exec (.senddataTransmit ch now) s = doEp s ch fun c p E => senddataTransmit c p now E := rfl
  rw [hexec]
  refine ⟨fun hs => doEp_idle he (senddataTransmit_sent hs), fun hs => ?_⟩
  exact ⟨_, transmitBatch s.cfg p E, doEp_eq he fun c p E => transmitBatch c p E, (EpAt.write _).ep he,
    doEp_of_eq he (senddataTransmit_unsent hs)⟩

/-- Settles O40: the tag locked in is `triedTag`; the mode and the queue choose the next state. -/
theorem ackDataContinuesOrEndsTheSession : Obligations.AckDataContinuesOrEndsTheSession := by
  intro s ch p E he tag
  have htag : triedTag E.reg = tag := triedTag_eq E.reg
  rw [← htag]
  exact ⟨fun hmode hq => doEp_of_eq (f := fun _ _ E => ackData E) he (ackData_more hmode hq),
    fun hend => doEp_of_eq (f := fun _ _ E => ackData E) he (ackData_last hend)⟩

/-- Settles O41: within the budget the batch is transmitted from the flipped registers (`EpAt.setEp`); past it
retry is exhaust (`retry_cases`). -/
theorem retryFlipsAndResendsWithinTheBudget : Obligations.RetryFlipsAndResendsWithinTheBudget := by
  intro s ch p E now he alternate
  have halt : other (triedTag E.reg) = alternate := by
    simp only [alternate, triedTag_eq]
    cases E.reg.lastTag with
    | none => rfl
    | some t => cases t <;> rfl
  have hexec : exec (.retry ch now) s = _ := doEp_eq he fun c p E => retry c p now E
  have hexhaust : exec (.exhaust ch) s = _ := doEp_eq he fun _ _ E => exhaust E
  refine ⟨fun hlt => ?_, fun hle => ?_, hexhaust⟩
  · rw [← halt]
    exact ⟨_, _, (EpAt.setEp).doEp he fun c p E => transmitBatch c p E, (EpAt.write _).ep he,
      doEp_of_eq (f := fun c p E => retry c p now E) he (retry_within hlt)⟩
  · rw [hexec, hexhaust, (retry_cases s.cfg p now E).2 hle]

/-- Settles O42: the answer is `expired`. -/
theorem timeoutIsTheDeadlineReached : Obligations.TimeoutIsTheDeadlineReached := by
  intro s ch p E now he
  exact ⟨expired E.reg now, askEp_eq he fun _ _ E => .bit (expired E.reg now), expired_iff⟩

/-- Settles O43: R248's cases, a SYN or NACK and a late answer being one failure. -/
theorem sendDataResponsesInPriorityOrder : Obligations.SendDataResponsesInPriorityOrder := by
  intro s ch p E now B he has neg late
  have hsame {g : Config → EpConfig → Ep → Ep}
      (h : senddataResponses s.cfg p now (acceptedOf s.cfg p B) E = g s.cfg p E) :=
    doEp_same (f := fun c p E => senddataResponses c p now (acceptedOf c p B) E) he h
  refine ⟨fun hs hneg => ?negative, fun hs hneg hack => ?ack, fun hs hneg hack hlate => ?late, fun hquiet => ?quiet⟩
  case negative =>
    exact hsame (g := fun c p E => retry c p now E) (senddataResponses_failed hs (failed_of_neg hneg))
  case ack =>
    exact hsame (g := fun _ _ E => ackData E)
      (senddataResponses_ack hs (negIn_eq_false hneg) (posIn_acceptedOf.2 hack))
  case late =>
    exact hsame (g := fun c p E => retry c p now E) (senddataResponses_failed hs (failed_of_late hack hlate))
  case quiet =>
    refine doEp_idle (f := fun c p E => senddataResponses c p now (acceptedOf c p B) E) he ?_
    cases hs : E.reg.sdSent with
    | false => exact senddataResponses_unsent hs
    | true =>
      obtain ⟨hneg, hack, hlate⟩ := hquiet.resolve_left (by simp [hs])
      exact senddataResponses_quiet hs (not_failed hneg hlate) (posIn_eq_false hack)

/-- Settles O44: the record is `scratchpadRecord`, sent by the row of send_record with index 1. -/
theorem sendCharSendsOneCharacter : Obligations.SendCharSendsOneCharacter := by
  intro s ch p E now he
  refine ⟨scratchpadChar E.reg, (scratchpadRecord s.cfg E.reg).color, (scratchpadRecord s.cfg E.reg).attr, _, _,
    fun y => scratchpadChar_eq, scratchpadRecord_none, fun F l => scratchpadRecord_some,
    (EpAt.refl he).exec_sendRecord he _ ⟨0⟩ true, (EpAt.write _).ep he, ?_⟩
  exact doEp_eq he fun c p E => sendChar c p now E

/-- Settles O45: spAck and spRetry write their registers first and send from there (`EpAt.setEp`). -/
theorem scratchpadCharactersAreGatedByAck : Obligations.ScratchpadCharactersAreGatedByAck := by
  intro s ch p E now he tag alternate acked
  have htag : triedTag E.reg = tag := triedTag_eq E.reg
  have halt : other (triedTag E.reg) = alternate := by
    rw [htag]
    simp only [alternate]
    cases tag <;> rfl
  have hacked : E.mapReg (fun r => { lockIn r with spPos := r.spPos + 1, spSent := false, repeatCount := 0 }) =
      { E with reg := acked } := by
    simp only [acked, ← htag]; rfl
  have hspAck {g : Config → EpConfig → Ep → Ep} (h : spAck s.cfg p now E = g s.cfg p { E with reg := acked }) :=
    (EpAt.setEp).same (f := fun c p E => spAck c p now E) he h
  refine ⟨doEp_eq he fun _ _ E => finishScratchpad E, doEp_eq he fun _ _ E => spExhaust E, fun hend => ?finish,
    fun hlt => ?next, fun hlt => ?again, fun hle => ?spent⟩
  case finish =>
    refine hspAck (g := fun _ _ E => finishScratchpad E) ?_
    rw [spAck, hacked, sendOrFinish_finish hend]
  case next =>
    refine hspAck (g := fun c p E => sendChar c p now E) ?_
    rw [spAck, hacked, sendOrFinish_send hlt]
  case again =>
    refine (EpAt.setEp).same (f := fun c p E => spRetry c p now E) (g := fun c p E => sendChar c p now E) he ?_
    rw [spRetry_within hlt, ← halt]
    rfl
  case spent =>
    exact doEp_same (f := fun c p E => spRetry c p now E) (g := fun _ _ E => spExhaust E) he
      ((spRetry_cases s.cfg p now E).2 hle)
end

section
/-! SUPPORT. The heartbeat case by case (R275), the endpoint's rows of a tick before its heartbeat (R220), and
when a tick's time is accepted (R270). -/

namespace Sys2Proof.Machine

variable {s : State} {ch : Nat} {c : Config} {p : EpConfig} {E : Ep} {now : Time}

/-! ### The heartbeat (R275) -/

/-- Outside SendData a due heartbeat sends the address and keeps the time (R275, R276). -/
theorem heartbeat_sends (hs : E.reg.state ≠ .sendData) (hdue : heartbeatDue c E.reg now = true) :
    heartbeat c p now E = { reg := { E.reg with lastHb := some now }, chan := (E.send (hbWord c p)).chan } :=
  if_pos ⟨hs, hdue⟩

/-- In SendData, and where none is due, there is no heartbeat (R275, R277). -/
theorem heartbeat_quiet (h : ¬ (E.reg.state ≠ .sendData ∧ heartbeatDue c E.reg now = true)) :
    heartbeat c p now E = E :=
  if_neg h

/-- The heartbeat keeps the state of the transport machine. -/
theorem heartbeat_state (c : Config) (p : EpConfig) (now : Time) (E : Ep) :
    (heartbeat c p now E).reg.state = E.reg.state := by
  rw [heartbeat_reg]

/-- Whether a heartbeat is due is asked of `lastHb` alone. -/
theorem heartbeatDue_congr {r r' : Regs} (h : r'.lastHb = r.lastHb) :
    heartbeatDue c r' now = heartbeatDue c r now := by
  simp only [heartbeatDue, h]

/-! ### The tick up to its heartbeat (R220) -/

/-- The endpoint in a tick when its heartbeat is about to run: drained, the keys pressed, its handler run. -/
def beforeHeartbeat (c : Config) (p : EpConfig) (now : Time) (E : Ep) : Ep :=
  runHandler c p now (acceptedOf c p E.drained) (keypresses c p (acceptedOf c p E.drained) E.drain)

theorem tickEndpoint_eq_heartbeat (c : Config) (p : EpConfig) (now : Time) (E : Ep) :
    tickEndpoint c p now E = heartbeat c p now (beforeHeartbeat c p now E) := rfl

/-- Neither the keypresses nor the handler write the heartbeat time. -/
theorem beforeHeartbeat_lastHb (c : Config) (p : EpConfig) (now : Time) (E : Ep) :
    (beforeHeartbeat c p now E).reg.lastHb = E.reg.lastHb := by
  rw [beforeHeartbeat, runHandler_handled.lastHb, keypresses_eq]
  rfl

/-- The keypress rows and the handler row, from the drained endpoint on (R220 steps 3 to 5). -/
theorem execAll_rowsBeforeHeartbeat (he : s.ep? ch = some (p, E)) (now : Time) :
    execAll (keyRows s.cfg p ch E.drained ++ [handlerRow ch now E.drained E.reg]) (s.setEp ch E.drain) =
      .next ((s.setEp ch (beforeHeartbeat s.cfg p now E)).answer .nothing) := by
  obtain ⟨u, hkeys, hu⟩ := (EpAt.setEp (E := E.drain)).execAll_keyRows he E.drained
  have hhandler := hu.exec_handlerRow he now E.drained
  rw [handlerRow_keypresses] at hhandler
  rw [execAll_append_of hkeys]
  exact execAll_cons hhandler []

/-! ### The time of a tick (R270) -/

theorem timeOk_iff : timeOk s now = true ↔ ∀ x, s.lastNow = some x → x ≤ now := by
  unfold timeOk
  cases s.lastNow <;> simp

/-- A tick whose time does not go back is carried out and its time kept (log 9). -/
theorem exec_engineTick (h : timeOk s now = true) (ready : Bool) :
    exec (.engineTick now ready) s =
      .next { (if ready then tickAll now s else s) with lastNow := some now, ret := .nothing } :=
  if_pos h

theorem exec_engineTick_back (h : ¬ timeOk s now = true) (ready : Bool) :
    exec (.engineTick now ready) s = .refused .timeWentBack :=
  if_neg h

end Sys2Proof.Machine

open Sys2Proof Sys2Proof.Machine

/-- Settles O49: the loop over the endpoints gives each its own tick from the state before (`tickAll_ep`). -/
theorem engineTickTicksEveryEndpoint : Obligations.EngineTickTicksEveryEndpoint := by
  intro s now hmono
  refine ⟨_, exec_engineTick (timeOk_iff.2 hmono) true, tickAll_cfg now, tickAll_inputs now, rfl, ?_⟩
  intro e p E he
  obtain ⟨hexec, hep⟩ := exec_tickEndpoint he now
  have hall : (tickAll now s).ep? e = some (p, tickEndpoint s.cfg p now E) := tickAll_ep now he
  exact ⟨_, hexec, hall.trans hep.symm⟩

/-- Settles O54: the tick is the heartbeat of what its keypresses and its handler leave, and these do not
write `lastHb`, so whether one is due is seen in the state before the tick. -/
theorem heartbeatOnlyOutsideSendData : Obligations.HeartbeatOnlyOutsideSendData := by
  intro s ch p E now he B keys handler due
  let Eu := beforeHeartbeat s.cfg p now E
  obtain ⟨hexec, hep⟩ := exec_tickEndpoint he now
  rw [tickEndpoint_eq_heartbeat] at hexec hep
  have hlast : Eu.reg.lastHb = E.reg.lastHb := beforeHeartbeat_lastHb s.cfg p now E
  have hdue : heartbeatDue s.cfg Eu.reg now = true ↔ due := by rw [heartbeatDue_congr hlast]; exact heartbeatDue_iff
  refine ⟨_, _, Eu, heartbeat s.cfg p now Eu, execAll_rowsBeforeHeartbeat he now, (EpAt.write _).ep he, hexec, hep,
    heartbeat_state .., fun hs hd => ?sends, fun hquiet => ?quiet⟩
  case sends =>
    rw [heartbeat_sends hs (hdue.2 hd)]
    exact ⟨rfl, rfl⟩
  case quiet =>
    rw [heartbeat_quiet fun ⟨hs, hd⟩ => hquiet.elim hs (absurd (hdue.1 hd))]
    exact ⟨hlast, rfl⟩

/-- Settles O47: the heartbeat's two cases, the due time read from `lastHb` (`heartbeatDue_iff`). -/
theorem heartbeatIsSentWhenDue : Obligations.HeartbeatIsSentWhenDue := by
  intro s ch p E now he due
  have hdue : due ↔ E.reg.state ≠ .sendData ∧ heartbeatDue s.cfg E.reg now = true :=
    and_congr_right' heartbeatDue_iff.symm
  refine ⟨fun h => ?_, fun h => ?_⟩
  · obtain ⟨hs, hd⟩ := hdue.1 h
    exact doEp_of_eq (f := fun c p E => heartbeat c p now E) he (heartbeat_sends hs hd)
  · exact doEp_idle (f := fun c p E => heartbeat c p now E) he (heartbeat_quiet (mt hdue.2 h))

/-- Settles O50: an unready tick that is on time keeps its time only, and a time before the last tick's is
not accepted (`timeOk_iff`). -/
theorem unreadyOrBackwardTickDoesNothing : Obligations.UnreadyOrBackwardTickDoesNothing := by
  refine ⟨fun s now hmono => exec_engineTick (timeOk_iff.2 hmono) false, fun s now x ready hx hlt => ?_⟩
  exact exec_engineTick_back (fun hok => Nat.not_le_of_lt hlt (timeOk_iff.1 hok x hx)) ready
end

section
/-! SUPPORT. The refusals at the boundary (spec/60_exceptions.md): what every row that names a channel answers
where the channel has no endpoint (R301). -/

namespace Sys2Proof.Machine

variable {s : State} {ch : Nat} {i : Instr}

theorem deliver_of_no_ep (he : s.ep? ch = none) (a : Arrival) : deliver s ch a = .refused .badChannel :=
  doEp_none he _

theorem sendWord_of_no_ep (he : s.ep? ch = none) (build : Label → Word) :
    sendWord s ch build = .refused .badChannel :=
  doEp_none he _

/-- With a positive record index send_record looks at its channel, which is refused (R301, log 26). -/
theorem execSendRecord_of_no_ep (he : s.ep? ch = none) {n : Int} (hn : 1 ≤ n) (rec : TextRecord) (isLast : Bool) :
    execSendRecord ch rec n isLast s = .refused .badChannel := by
  unfold execSendRecord
  rw [recordIndex_of_pos hn]
  exact onEp_none he _

/-- Every row that names a channel but send_record, which looks at its record index first, refuses a
channel without an endpoint (R301, log 16), one case per shape of row. -/
theorem exec_of_no_ep (he : s.ep? ch = none) (hc : channelOf i = some ch)
    (hrec : ∀ rec n isLast, i ≠ .sendRecord ch rec n isLast) : exec i s = .refused .badChannel := by
  cases i with
  | reverseBits | parity | pack | unpack | parityCheck | encodeA | encodeB | cntrlSub | differs
  | engineTick | reset => cases hc
  | selectOrder | pendingCount | getPlannedRecordCount | timeout => cases hc; dsimp only [exec]; exact askEp_none he _
  | enq | dc1 | cts | ackIn | nack | syn => cases hc; dsimp only [exec]; exact deliver_of_no_ep he _
  | rts | stx | etx | eot | ackOut | hb | cntrlA | cntrlB | data =>
    cases hc; dsimp only [exec]; exact sendWord_of_no_ep he _
  | sendRecord => cases hc; exact absurd rfl (hrec _ _ _)
  | ingest | hostSupply => cases hc; dsimp only [exec]; exact supplyFrame_of_no_ep he
  | peek | prepareBatch => cases hc; dsimp only [exec]; exact onEp_none he _
  | _ => cases hc; dsimp only [exec]; exact doEp_none he _

end Sys2Proof.Machine

open Sys2Proof Sys2Proof.Machine

/-- Settles O11: an index out of range has no endpoint, and of the rows that name a channel send_record
alone has another reason to refuse, a record index of 0 or less. -/
theorem channelOutOfRangeIsRefused : Obligations.ChannelOutOfRangeIsRefused := by
  intro i ch s hc hle
  have he : s.ep? ch = none := ep_none_of_le hle
  by_cases hrec : ∃ rec n isLast, i = .sendRecord ch rec n isLast
  · obtain ⟨rec, n, isLast, rfl⟩ := hrec
    rcases Int.lt_or_le 0 n with hpos | hn
    · exact .inl (execSendRecord_of_no_ep he hpos rec isLast)
    · exact .inr ⟨rec, n, isLast, rfl, hn, nonPositiveRecordIndexIsRefused s ch rec n isLast hn⟩
  · exact .inl (exec_of_no_ep he hc fun rec n isLast hi => hrec ⟨rec, n, isLast, hi⟩)
end

section
/-! SUPPORT. Reset (spec/70_reset_and_hazards.md): which configurations it accepts, what stands in the
registers and on the channels after it, and why a machine with nothing but reset endpoints is legal. -/

namespace Sys2Proof.Machine

variable {c : Config} {s : State}

/-! ### The boundary of reset (R303) -/

theorem epConfigOk_iff {p : EpConfig} : epConfigOk p = true ↔ p.ownAddr ≤ 0xFF ∧ p.defaultPeer ≤ 0xFF := by
  simp only [epConfigOk, Bool.and_eq_true, decide_eq_true_eq]

theorem configOk_iff : configOk c = true ↔
    500 ≤ c.hbPeriodMs ∧ c.hbPeriodMs ≤ 900 ∧ c.endpoints ≠ [] ∧ c.hbLabel ≤ 0xFF ∧
      ∀ p ∈ c.endpoints, p.ownAddr ≤ 0xFF ∧ p.defaultPeer ≤ 0xFF := by
  simp only [configOk, Bool.and_eq_true, decide_eq_true_eq, List.all_eq_true, epConfigOk_iff,
    Nat.one_le_iff_ne_zero, ne_eq, List.length_eq_zero_iff, and_assoc]

theorem exec_reset_eq (h : configOk c = true) (s : State) : exec (.reset c) s = .next (resetState c s) :=
  if_pos h

theorem exec_reset_badConfig (h : ¬ configOk c = true) (s : State) : exec (.reset c) s = .refused .badConfig :=
  if_neg h

/-! ### The state after reset (R320, R321) -/

theorem resetState_eps_length : (resetState c s).eps.length = c.endpoints.length :=
  List.length_map _

theorem eq_reset_of_mem_resetState_eps {r : Regs} (h : r ∈ (resetState c s).eps) : r = Regs.reset := by
  obtain ⟨_, -, rfl⟩ := List.mem_map.1 h
  rfl

/-- A channel that exists keeps its place and everything on it (log 14). -/
theorem resetState_chans_of_some {n : Nat} {k : Channel} (h : s.chans[n]? = some k) :
    (resetState c s).chans[n]? = some k :=
  (List.getElem?_append_left (List.getElem?_eq_some_iff.1 h).1).trans h

/-- A machine is legal when reset accepts its configuration, each of its endpoints is just reset with
nothing on its channel, and no event waits. -/
theorem inv_of_all_reset (hc : configOk s.cfg = true) (hr : s.eps = s.cfg.endpoints.map fun _ => Regs.reset)
    (hk : s.chans = s.cfg.endpoints.map fun _ => Channel.empty) (hi : s.inputs = []) : Inv s where
  cfg_ok := hc
  eps_len := by rw [hr, List.length_map]
  chans_len := by rw [hk, List.length_map]
  regs := by
    rw [hr]
    exact List.forall_mem_map.2 fun _ _ => RegsInv.reset _ _
  sent := by
    rw [hk]
    exact List.forall_mem_map.2 fun _ _ => List.forall_mem_nil _
  events := by
    rw [hi]
    exact List.forall_mem_nil _

end Sys2Proof.Machine

open Sys2Proof Sys2Proof.Machine

/-- Settles O7: reset's own check is R303 (`configOk_iff`), and where it accepts, every endpoint has the
registers of `Regs.reset`. -/
theorem resetSetsEveryRegister : Obligations.ResetSetsEveryRegister := by
  refine fun cfg s => ⟨fun hok => ?_, fun hbad => exec_reset_badConfig (mt configOk_iff.1 hbad) s⟩
  refine ⟨resetState cfg s, exec_reset_eq (configOk_iff.2 hok) s, rfl, rfl, rfl,
    fun _ _ => resetState_chans_of_some, resetState_eps_length, fun r hr => ?_⟩
  rw [eq_reset_of_mem_resetState_eps hr]
  decide

/-- Settles O8: the reference configuration is within R303, and the rest is `inv_of_all_reset`. -/
theorem resetStateIsLegal : Obligations.ResetStateIsLegal :=
  inv_of_all_reset (by decide) rfl rfl rfl
end
